-- ==== Sys2Proof/Word.lean ====
section
/-! DEFINITION. The word types of the block: the command word, a byte and a colour (00_scope.md R7,
10_state.md R11, R14, R20). -/

namespace Sys2Proof

/-- A command word, one entry of the cross-core queue: 32 bits, carried whole (R11, R41, R60). -/
abbrev Word := BitVec 32

/-- A byte: one pixel code (R14), a command's tag or its payload (R61). -/
abbrev Byte := BitVec 8

/-- A colour, or one unit of `XBUF`, `FB` or `PANEL`: an opaque 16-bit value (R20, R42). -/
abbrev Colour := BitVec 16

end Sys2Proof
end

