-- ==== Sys2Proof/Config.lean ====
section
/-! DEFINITION. The implementation parameters of 00_scope.md R4 and R5 as one record, and the free values:
what the spec leaves open at run time (the schedule, an unspecified colour, which value a racing read
returns, what reset leaves unspecified). A free value is an opaque constant: nothing can evaluate it. -/

namespace Sys2Proof

/-- `DRIVER_MODE`: the sub-mode of the Display Driver (R4, R125). -/
inductive DriverMode where
  | direct
  | framebuffered
  deriving DecidableEq, Repr

/-- The implementation parameters, fixed when the block is built (R4). A value of this record is a field
of `State` that no step changes, so that every statement is over all of them (log entry 1). -/
structure Params where
  /-- `SRC_W`: pixels in one PixelLine. -/
  srcW : Nat
  /-- `SRC_H`: scanlines of a frame. -/
  srcH : Nat
  /-- `PANEL_W`: columns of the panel. -/
  panelW : Nat
  /-- `PANEL_H`: rows of the panel. -/
  panelH : Nat
  /-- `FIFO_DEPTH`: words the cross-core queue holds; 1 for this hardware (log entry 18). -/
  fifoDepth : Nat
  /-- `DRIVER_MODE`, open. -/
  driverMode : DriverMode
  /-- `USE_DMA`, open. -/
  useDma : Bool
  /-- `FB_COUNT`, open: 1 or 2. -/
  fbCount : Nat
  /-- `SWAP_BYTES`, open. -/
  swapBytes : Bool
  /-- `CLEAR_COLOUR`. -/
  clearColour : Colour
  /-- `ECM_SUPPORT`, open. -/
  ecmSupport : Bool
  /-- `ECM_N`: entries of the enhanced-colour table. -/
  ecmN : Nat
  /-- `DEBUG_SET_PIXEL`: false for this hardware; true has no semantics and is refused (R68). -/
  debugSetPixel : Bool
  deriving DecidableEq, Repr

/-- The values R4 gives. The five OPEN parameters take the plainest value: DIRECT, no DMA, one
framebuffer, no swap, no enhanced colour. DESIGN CHOICE (unsafe), log entry 1. -/
def Params.default : Params where
  srcW := 160
  srcH := 144
  panelW := 320
  panelH := 240
  fifoDepth := 1
  driverMode := .direct
  useDma := false
  fbCount := 1
  swapBytes := false
  clearColour := 0x0000#16
  ecmSupport := false
  ecmN := 64
  debugSetPixel := false

/-- The toy parameters of R5: an 8 by 6 picture on a 16 by 10 panel, everything else as in R4. -/
def Params.toy : Params :=
  { Params.default with srcW := 8, srcH := 6, panelW := 16, panelH := 10 }

/-- `PANEL_N = PANEL_W * PANEL_H` (R4). -/
def Params.panelN (P : Params) : Nat := P.panelW * P.panelH

/-- `XBUF_LEN = 4 * SRC_W` (R4, R24). -/
def Params.xbufLen (P : Params) : Nat := 4 * P.srcW

/-- Who moves next. The three agents of R6 that take steps of the block, and the environment's assertion
of `reset` (R178). Which one it is, is a parameter of the step relation (R30): see log entry 2. -/
inductive Turn where
  | prod
  | cons
  | dma
  | reset
  deriving DecidableEq, Repr, Inhabited

/-- FREE VALUE. The agent that moves when the schedule in `State` lists none: any agent may be next
(R6, R52). Log entry 2. -/
opaque Config.freeTurn : Nat → Turn

/-- FREE VALUE. The colour of a pixel code whose selector names no sub-palette: `unspecified(16)`, a draw
per pixel per occurrence (R102, U5). Arguments: the draw counter and the column. Log entry 7. -/
opaque Config.freeColour : Nat → Nat → Colour

/-- FREE VALUE. Which of the values a racing read returns, independently per read (R59, U4). Arguments: the
draw counter and the number of the read within the step. Log entry 8. -/
opaque Config.freeChoice : Nat → Nat → Nat

/-- FREE VALUE. What the `reset` input leaves in the state R31 calls unspecified (R190, U9). Arguments: the
draw counter, the register and the element. Log entry 6. -/
opaque Config.freeReset : Nat → Nat → Nat → Nat

end Sys2Proof
end

