-- ==== Sys2Proof/Syntax.lean ====
section
/-! DEFINITION. The commands the consumer executes (30_encoding.md R63, R65: one constructor per row of
spec/opcode_table.json) and the producer's unencoded port operations (R73, 43_config_port.md), with the
program notation of R71 and R72. -/

namespace Sys2Proof

/-- A DisplayCommand (R63, R65). Every operand is the word's one payload byte, bits 31..24 (R64). -/
inductive Instr where
  /-- `NOP`, tag 0. The payload is ignored (R85); it is kept so that no bit of the word is lost (log entry 15). -/
  | nop (data : Byte)
  /-- `LCD_LINE(line_index)`, tag 1 (R86). -/
  | lcdLine (lineIndex : Byte)
  /-- `IDLE_SET(mode)`, tag 2 (R90). -/
  | idleSet (mode : Byte)
  /-- `SET_PIXEL`, tag 3, debug-only (R93). -/
  | setPixel (data : Byte)
  deriving DecidableEq, Repr

/-- The first index of `PAL`: a three-valued field (R20, R161). -/
inductive SubPalette where
  | object0
  | object1
  | background
  deriving DecidableEq, Repr

/-- A port operation of the producer (R73, R76, R160 to R166). It has no binary encoding. -/
inductive PortOp where
  /-- `ENQUEUE(tag, data, line)`; `line` is used only when `tag = 1` (R76). -/
  | enqueue (tag data : Byte) (line : List Byte)
  /-- `CFG_PAL(s, k, c)` (R161). -/
  | cfgPal (s : SubPalette) (k : BitVec 2) (c : Colour)
  /-- `CFG_SCALE(m)`, `m` of 2 bits (R162). -/
  | cfgScale (m : BitVec 2)
  /-- `CFG_ECM(e)` (R163). -/
  | cfgEcm (e : Bool)
  /-- `CFG_ECMTAB(i, c)` (R164). -/
  | cfgEcmTab (i : Nat) (c : Colour)
  /-- `STATUS()` (R166), `poll` in the notation of R71. -/
  | status
  deriving DecidableEq, Repr

/-- One line of a producer program: a port operation, or the pseudo-operation `wait_idle`, which repeats
`poll` until it returns 0 (R71, R72). -/
inductive ProgItem where
  | op (o : PortOp)
  | waitIdle
  deriving DecidableEq, Repr

end Sys2Proof
end

