-- ==== Sys2Proof/Decode.lean ====
section
/-! DEFINITION. The command word (30_encoding.md R60 to R70): its fields, the total decoder, the encoder,
and the word's bytes (20_memory.md R41). -/

namespace Sys2Proof

/-- `tag = w[7:0]` (R61). -/
def tagOf (w : Word) : Byte := w.extractLsb' 0 8

/-- `data = w[31:24]` (R61, R64). -/
def dataOf (w : Word) : Byte := w.extractLsb' 24 8

/-- The reserved bytes `{rsv2, rsv1} = w[23:8]` (R61, R66). -/
def reservedOf (w : Word) : BitVec 16 := w.extractLsb' 8 16

/-- What the consumer's decoder answers (R63): one of the four commands, or a reserved tag, by name, with
the tag and the payload (R67). -/
inductive Decoded where
  | command (i : Instr)
  | reserved (tag data : Byte)
  deriving DecidableEq, Repr

/-- `decode(w)` (R63), total; the reserved bytes do not take part (R66). -/
def decode (w : Word) : Decoded :=
  if tagOf w = 0#8 then .command (.nop (dataOf w))
  else if tagOf w = 1#8 then .command (.lcdLine (dataOf w))
  else if tagOf w = 2#8 then .command (.idleSet (dataOf w))
  else if tagOf w = 3#8 then .command (.setPixel (dataOf w))
  else .reserved (tagOf w) (dataOf w)

/-- `{data, 0x00, 0x00, tag}`, that is `(data << 24) | tag` (R62): the word the producer port makes. -/
def encodeWord (tag data : Byte) : Word := (data.setWidth 32 <<< 24) ||| tag.setWidth 32

/-- The tag of a command (R65). -/
def Instr.tag : Instr → Byte
  | .nop _ => 0#8
  | .lcdLine _ => 1#8
  | .idleSet _ => 2#8
  | .setPixel _ => 3#8

/-- The payload of a command (R64). -/
def Instr.data : Instr → Byte
  | .nop d => d
  | .lcdLine n => n
  | .idleSet m => m
  | .setPixel d => d

/-- The encoder (R62, R65). -/
def encode (i : Instr) : Word := encodeWord i.tag i.data

/-- The four bytes of a word, byte 0 first; byte `n` is bits `[8n+7 : 8n]` (R41). -/
def bytesOfWord (w : Word) : List Byte :=
  [w.extractLsb' 0 8, w.extractLsb' 8 8, w.extractLsb' 16 8, w.extractLsb' 24 8]

/-- The word whose bytes 0 to 3 are given (R41). -/
def wordOfBytes (b0 b1 b2 b3 : Byte) : Word :=
  (b3.setWidth 32 <<< 24) ||| (b2.setWidth 32 <<< 16) ||| (b1.setWidth 32 <<< 8) ||| b0.setWidth 32

/-- Why a list of bytes is no command: fewer than the four bytes of the one command length (R60), or a
reserved tag (R67). -/
inductive DecodeError where
  | truncated
  | reservedTag (tag data : Byte)
  deriving DecidableEq, Repr

/-- The decoder over any bytes: the command of the first four and the bytes after them, or the reason by
name. A command is always one word long (R60, R70). -/
def decodeBytes : List Byte → Except DecodeError (Instr × List Byte)
  | b0 :: b1 :: b2 :: b3 :: rest =>
    match decode (wordOfBytes b0 b1 b2 b3) with
    | .command i => .ok (i, rest)
    | .reserved t d => .error (.reservedTag t d)
  | _ => .error .truncated

/-- The command this decoder reads from a row's word of `nbits` bits, the bits above them zero. -/
def decodeTableWord (nbits w : Nat) : Option Instr :=
  match decode (BitVec.ofNat 32 (w % 2 ^ nbits)) with
  | .command i => some i
  | .reserved _ _ => none

end Sys2Proof
end

