-- ==== Sys2Proof/Machine/Memory.lean ====
section
/-! DEFINITION. An element-indexed memory (20_memory.md R40, R43, R44): a list of (address, element) pairs in
one canonical form. The element is the space's own unit, 8 or 16 bits; no access is of another width (R43). -/

namespace Sys2Proof.Machine

/-- An address space of elements of `w` bits. Canonical form: addresses strictly rising, no entry equal to
what an unlisted address reads as (`Memory.wf`). -/
abbrev Memory (w : Nat) := List (Nat × BitVec w)

/-- What an address that no write has reached reads as: 0. The spec leaves it unspecified (R31).
DESIGN CHOICE (unsafe), log entry 5. -/
abbrev Memory.unlisted (w : Nat) : BitVec w := 0#w

/-- `MemRead(S, a)` (R8): element `a`, whole. -/
def Memory.read {w : Nat} (m : Memory w) (a : Nat) : BitVec w :=
  match m with
  | [] => Memory.unlisted w
  | (k, u) :: rest => if a = k then u else Memory.read rest a

/-- `MemWrite(S, a, v)` (R8): element `a` becomes `v`, nothing else changes, and the canonical form is kept. -/
def Memory.write {w : Nat} (m : Memory w) (a : Nat) (v : BitVec w) : Memory w :=
  match m with
  | [] => if v = Memory.unlisted w then [] else [(a, v)]
  | (k, u) :: rest =>
    if a < k then
      if v = Memory.unlisted w then (k, u) :: rest else (a, v) :: (k, u) :: rest
    else if a = k then
      if v = Memory.unlisted w then rest else (a, v) :: rest
    else (k, u) :: Memory.write rest a v

/-- Consecutive writes: `S[base + j] <- vs[j]` for `j` in `0 .. vs.length - 1`, in order. -/
def Memory.writeRow {w : Nat} (m : Memory w) (base : Nat) (vs : List (BitVec w)) : Memory w :=
  match vs with
  | [] => m
  | v :: rest => Memory.writeRow (Memory.write m base v) (base + 1) rest

/-- The elements `0 .. n-1`, in order. -/
def Memory.elements {w : Nat} (m : Memory w) (n : Nat) : List (BitVec w) :=
  (List.range n).map (Memory.read m)

/-- Canonical from address `lo` on. -/
def Memory.wfFrom {w : Nat} (lo : Nat) (m : Memory w) : Bool :=
  match m with
  | [] => true
  | (k, u) :: rest => lo ≤ k && u ≠ Memory.unlisted w && Memory.wfFrom (k + 1) rest

/-- The canonical form holds. -/
def Memory.wf {w : Nat} (m : Memory w) : Bool := Memory.wfFrom 0 m

/-- Every listed address is below `n`, the size of the space (R40, R44). -/
def Memory.within {w : Nat} (n : Nat) (m : Memory w) : Bool := m.all fun c => c.1 < n

end Sys2Proof.Machine
end

