-- ==== Sys2Proof/Machine/Tables.lean ====
section
/-! DEFINITION. The repeat predicate and the two offset tables of 41_compositor.md R104 to R106, with the
constants derived from them (00_scope.md R4). They are functions of `SCALE` and the parameters, not state
(R29, R30, R196). -/

namespace Sys2Proof

/-- The ScalingMode, the value of the register `SCALE` (R21). The encoding 3 is never held, so it has no
constructor. -/
inductive ScalingMode where
  | normal
  | stretch
  | keepAspect
  deriving DecidableEq, Repr

namespace Machine

/-- The repeat predicate (R104): 1 if the index is odd or divisible by six, else 0. -/
def rep (i : Nat) : Nat := if i % 2 = 1 ∨ i % 6 = 0 then 1 else 0

/-- `#{i < n : rep(i) = 1}` (R4, R104), by the predicate's period: four of every six indices repeat, and the
rest is counted one by one. `repCount_zero` and `repCount_succ` (Laws/Tables.lean) say that this is the count. -/
def repCount (n : Nat) : Nat := 4 * (n / 6) + ((List.range (n % 6)).map rep).sum

/-- `XOFF(x)`: the index in `OUTBUF` of the first copy of source column `x` in STRETCH_KEEP_ASPECT (R105). -/
def xoff : Nat → Nat
  | 0 => 0
  | x + 1 => xoff x + 1 + rep x

/-- `KA_W = XOFF(SRC_W)` (R105). -/
def kaW (P : Params) : Nat := xoff P.srcW

/-- `OUT_H = SRC_H + #{i < SRC_H : rep(i) = 1}`: the panel rows a stretched frame covers (R104). -/
def outH (P : Params) : Nat := P.srcH + repCount P.srcH

/-- `vrep(m, i)` (R106): how many extra panel rows line `i` takes in mode `m`. -/
def vrep (m : ScalingMode) (i : Nat) : Nat :=
  match m with
  | .normal => 0
  | .stretch => rep i
  | .keepAspect => rep i

/-- `HGT(m)` (R106): the panel rows a frame covers in mode `m`. -/
def hgt (P : Params) (m : ScalingMode) : Nat :=
  match m with
  | .normal => P.srcH
  | .stretch => outH P
  | .keepAspect => outH P

/-- `YBASE(m) = (PANEL_H - HGT(m)) div 2` (R106): the top margin. -/
def ybase (P : Params) (m : ScalingMode) : Nat := (P.panelH - hgt P m) / 2

/-- `YOFF(m, i)` (R106): the first panel row of line `i` in mode `m`. -/
def yoff (P : Params) (m : ScalingMode) : Nat → Nat
  | 0 => ybase P m
  | i + 1 => yoff P m i + 1 + vrep m i

end Machine
end Sys2Proof
end

