-- ==== Sys2Proof/Machine/State.lean ====
section
/-! DEFINITION. The state of the block, all of 10_state.md R10 to R28, grouped by owner, with the parameters and
the model's own fields beside it; the reasons a step can stop; the state after reset (R31). -/

namespace Sys2Proof.Machine

/-- `pphase`, the producer port's phase register (R12). -/
inductive PPhase where
  | idle
  | wait
  | copy
  | mark
  | push
  deriving DecidableEq, Repr

/-- `cphase`, the consumer sequencer's phase register (R17). -/
inductive CPhase where
  | pop
  | dispatch
  | resolve
  | layout
  | push
  | frame
  | ack
  | idle
  deriving DecidableEq, Repr

/-- The state the two cores share for the handoff (R11, R13, R14). -/
structure Channel where
  /-- `Q`, the cross-core queue, oldest word first (R11). -/
  q : List Word
  /-- `BUSY`, the line busy flag, 1 bit (R13). -/
  busy : Bool
  /-- `STG[0 .. SRC_W-1]`, the staging buffer of 8-bit pixel codes (R14). -/
  stg : Memory 8
  deriving DecidableEq, Repr

/-- The producer port's private state (R12, R15). -/
structure Producer where
  /-- `pphase` (R12). -/
  pphase : PPhase
  /-- `PCMD`, the word of the enqueue in progress (R15). -/
  pcmd : Word
  /-- `PLINE[0 .. SRC_W-1]`, the pending PixelLine (R15). -/
  pline : Memory 8
  deriving DecidableEq, Repr

/-- The placement registers of the laid-out line (R19), naturals. -/
structure Placement where
  /-- `OUT_W`: valid elements of `OUTBUF`. -/
  outW : Nat
  /-- `OUT_X`: panel column of `OUTBUF[0]`. -/
  outX : Nat
  /-- `OUT_Y`: panel row of the first output row. -/
  outY : Nat
  /-- `OUT_ROWS`: 1 or 2, the panel rows the line occupies. -/
  outRows : Nat
  deriving DecidableEq, Repr

/-- The consumer's private state (R16 to R19). -/
structure Consumer where
  /-- `cphase` (R17). -/
  cphase : CPhase
  /-- `CMD`, the word most recently popped (R16). -/
  cmd : Word
  /-- `LINEBUF[0 .. SRC_W-1]`, the resolved line (R18). -/
  linebuf : Memory 16
  /-- `OUTBUF[0 .. 2*SRC_W-1]`, the laid-out line (R19). -/
  outbuf : Memory 16
  /-- `OUT_W`, `OUT_X`, `OUT_Y`, `OUT_ROWS` (R19). -/
  place : Placement
  deriving DecidableEq, Repr

/-- A sub-palette: four colours by shade (R20). -/
structure Shades where
  c0 : Colour
  c1 : Colour
  c2 : Colour
  c3 : Colour
  deriving DecidableEq, Repr

/-- `PAL[s][k]`, three sub-palettes of four colours (R20). -/
structure Palette where
  object0 : Shades
  object1 : Shades
  background : Shades
  deriving DecidableEq, Repr

/-- The configuration registers, written by `PROD` and read by `CONS` (R20 to R22). -/
structure ConfigRegs where
  /-- `PAL` (R20). -/
  pal : Palette
  /-- `SCALE` (R21). -/
  scale : ScalingMode
  /-- `ECM_EN`, 1 bit (R22); there only when `ECM_SUPPORT`. -/
  ecmEn : Bool
  /-- `ECM_TAB[0 .. ECM_N-1]` (R22); there only when `ECM_SUPPORT`. -/
  ecmTab : Memory 16
  deriving DecidableEq, Repr

/-- The name of a framebuffer, `FB[0]` or `FB[1]` (R25). -/
inductive BufId where
  | zero
  | one
  deriving DecidableEq, Repr

/-- `DMA_SRC`: the memory a transfer reads (R26). -/
inductive DmaSrc where
  | xbuf
  | fb (b : BufId)
  deriving DecidableEq, Repr

/-- The DMA engine's registers (R26); there only when `USE_DMA`. -/
structure Dma where
  /-- `DMA_BUSY`: a transfer is in flight. -/
  busy : Bool
  /-- `DMA_SRC`. -/
  src : DmaSrc
  /-- `DMA_LEN`: units to move. -/
  len : Nat
  /-- `DMA_POS`: units moved so far. -/
  pos : Nat
  deriving DecidableEq, Repr

/-- `WIN = (wx0, wy0, wx1, wy1)`, the panel's address window (R27). -/
structure Window where
  x0 : Nat
  y0 : Nat
  x1 : Nat
  y1 : Nat
  deriving DecidableEq, Repr

/-- `CUR = (cx, cy)`, where the next `PanelWrite` stores (R27). -/
structure Cursor where
  x : Nat
  y : Nat
  deriving DecidableEq, Repr

/-- The panel: a passive device (R126). -/
structure Panel where
  /-- `WIN` (R27). -/
  win : Window
  /-- `CUR` (R27). -/
  cur : Cursor
  /-- `PANEL[y][x]`, at address `y*PANEL_W + x` (R28, log entry 16). -/
  pix : Memory 16
  deriving DecidableEq, Repr

/-- The Display Driver's state and the panel (R23 to R28). -/
structure Driver where
  /-- `IDLE_MODE`, 8 bits, an output (R23). -/
  idleMode : Byte
  /-- `XBUF[0 .. XBUF_LEN-1]` (R24); there only when DIRECT and `USE_DMA`. -/
  xbuf : Memory 16
  /-- `FB[0][y][x]`, at linear index `y*PANEL_W + x` (R25, R40); there only when FRAMEBUFFERED. -/
  fb0 : Memory 16
  /-- `FB[1][y][x]` (R25); there only when FRAMEBUFFERED and `FB_COUNT = 2`. -/
  fb1 : Memory 16
  /-- `FB_WR`: the writable buffer (R25). -/
  fbWr : BufId
  /-- The DMA registers (R26). -/
  dma : Dma
  /-- `WIN`, `CUR`, `PANEL` (R27, R28). -/
  panel : Panel
  deriving DecidableEq, Repr

/-- A value that a configuration write made while a line was in flight replaced: until that line is
acknowledged a read of the element may still return it (R59, U4). -/
inductive Race where
  | pal (s : SubPalette) (k : BitVec 2) (old : Colour)
  | scale (old : ScalingMode)
  | ecmEn (old : Bool)
  | ecmTab (i : Nat) (old : Colour)
  deriving DecidableEq, Repr

/-- The model's own fields, none of them state of the block (R30): what `ENV` chooses, and the bookkeeping
of races and free values. -/
structure Environment where
  /-- The producer program still to issue: `ENV`'s choice of port operations (R30, R208; log entry 3). -/
  prog : List ProgItem
  /-- Whose turn it is, next first; when the list is empty the turn is free (log entry 2). -/
  sched : List Turn
  /-- The counter free values are drawn with. -/
  draws : Nat
  /-- The values replaced while a line is in flight, newest first (R59; log entry 8). -/
  races : List Race
  /-- What the latest `STATUS()` returned to the producer (R166; log entry 4). -/
  statusRet : Option Bool
  deriving DecidableEq, Repr

/-- The whole machine: the parameters (R4), the state of the block (R10), the model's own fields (R30). -/
structure State where
  cfg : Params
  chan : Channel
  prod : Producer
  cons : Consumer
  regs : ConfigRegs
  drv : Driver
  env : Environment
  deriving DecidableEq, Repr

/-- Why the machine stops with a fault. The block itself raises none (R170): both are for states that no
run reaches. -/
inductive Fault where
  /-- Raised by a command's meaning when `cphase` is no phase of that command (R84): no rule takes the
  consumer there. Safe; log entry 12. -/
  | commandNotInPhase
  /-- Raised by `C_PUSH` and by a DMA beat when the address is outside the space (R40, R44): no rule forms
  one. Safe; log entry 12. -/
  | addressOutsideSpace
  deriving DecidableEq, Repr

/-- Why the machine gives no meaning. -/
inductive Refusal where
  /-- Raised by `exec` for an instruction that has no meaning yet, by its mnemonic. Safe. No arm of this
  model raises it. -/
  | notModelled (mnemonic : String)
  /-- Raised by `step` when the parameters break a constraint of R4: "a model refuses a configuration that
  breaks one". Safe; log entry 11. -/
  | illegalParameters
  /-- Raised by `step` and by SET_PIXEL's meaning when `DEBUG_SET_PIXEL = true`: "a model shall refuse the
  configuration" (R68, U10). Safe; log entry 11. -/
  | debugSetPixelUnspecified
  /-- Raised by a producer turn when the next port operation does not exist with these parameters or has
  an operand out of range (`PortOp.wellFormed`). Safe; log entry 11. -/
  | malformedPortOp
  deriving DecidableEq, Repr

/-- A sub-palette of one colour. -/
def Shades.all (c : Colour) : Shades := ⟨c, c, c, c⟩

/-- The state after reset with parameters `P` (R31, R190): `Q` empty, `BUSY = 0`, `pphase = P_IDLE`,
`cphase = C_POP`, `DMA_BUSY = 0`, `FB_WR = 0`. Everything else the spec leaves unspecified and has a value
named in log entry 5: 0, NORMAL, off, `XBUF`, or the least value R19 and R26 allow. DESIGN CHOICE (unsafe). -/
def State.resetWith (P : Params) : State where
  cfg := P
  chan := { q := [], busy := false, stg := [] }
  prod := { pphase := .idle, pcmd := 0x00000000#32, pline := [] }
  cons := { cphase := .pop, cmd := 0x00000000#32, linebuf := [], outbuf := [],
            place := { outW := P.srcW, outX := 0, outY := 0, outRows := 1 } }
  regs := { pal := ⟨.all 0x0000#16, .all 0x0000#16, .all 0x0000#16⟩, scale := .normal, ecmEn := false,
            ecmTab := [] }
  drv := { idleMode := 0x00#8, xbuf := [], fb0 := [], fb1 := [], fbWr := .zero,
           dma := { busy := false, src := .xbuf, len := 1, pos := 0 },
           panel := { win := ⟨0, 0, 0, 0⟩, cur := ⟨0, 0⟩, pix := [] } }
  env := { prog := [], sched := [], draws := 0, races := [], statusRet := none }

/-- The machine right after reset, with the default parameters (R4, R31; log entries 1 and 5). -/
def State.reset : State := State.resetWith Params.default

end Sys2Proof.Machine
end

