-- ==== Sys2Proof/Machine/Flags.lean ====
section
/-! DEFINITION. The block's flags: `BUSY`, `DMA_BUSY`, and the queue's full and empty conditions (10_state.md
R11, R13, R26; 20_memory.md R46, R47). -/

namespace Sys2Proof.Machine

/-- `AtomicLoad(BUSY)` (R46): the latest value stored. -/
def State.loadBusy (s : State) : Bool := s.chan.busy

/-- `AtomicStore(BUSY, b)` (R46). -/
def State.storeBusy (s : State) (b : Bool) : State := { s with chan := { s.chan with busy := b } }

/-- `|Q| = FIFO_DEPTH` or above: a push is not enabled (R11, R80). -/
def State.queueFull (s : State) : Bool := s.cfg.fifoDepth ≤ s.chan.q.length

/-- `DMA_BUSY`, read as 0 when `USE_DMA` is false (R26). -/
def State.dmaInFlight (s : State) : Bool := s.cfg.useDma && s.drv.dma.busy

end Sys2Proof.Machine
end

