-- ==== Sys2Proof/Machine/Operands.lean ====
section
/-! DEFINITION. What the consumer's steps read: a pixel code's fields, the configuration elements (with the
race rule R59), a colour's byte order; and the producer's writes of the configuration elements. -/

namespace Sys2Proof.Machine

/-- `c[5:4]`, the selector of a pixel code (R101). -/
def pixelSel (c : Byte) : BitVec 2 := c.extractLsb' 4 2

/-- `c[1:0]`, the shade of a pixel code (R101). -/
def pixelShade (c : Byte) : BitVec 2 := c.extractLsb' 0 2

/-- The sub-palette a selector names; 3 names none (R101, R102). -/
def subPaletteOf (sel : BitVec 2) : Option SubPalette :=
  if sel = 0#2 then some .object0
  else if sel = 1#2 then some .object1
  else if sel = 2#2 then some .background
  else none

/-- Element `k` of a sub-palette (R20). -/
def Shades.get (p : Shades) (k : BitVec 2) : Colour :=
  if k = 0#2 then p.c0 else if k = 1#2 then p.c1 else if k = 2#2 then p.c2 else p.c3

/-- A sub-palette with element `k` replaced. -/
def Shades.set (p : Shades) (k : BitVec 2) (c : Colour) : Shades :=
  if k = 0#2 then { p with c0 := c } else if k = 1#2 then { p with c1 := c }
  else if k = 2#2 then { p with c2 := c } else { p with c3 := c }

/-- `PAL[s][k]` (R20). -/
def Palette.get (p : Palette) (s : SubPalette) (k : BitVec 2) : Colour :=
  match s with
  | .object0 => p.object0.get k
  | .object1 => p.object1.get k
  | .background => p.background.get k

/-- `PAL[s][k] <- c` (R161). -/
def Palette.set (p : Palette) (s : SubPalette) (k : BitVec 2) (c : Colour) : Palette :=
  match s with
  | .object0 => { p with object0 := p.object0.set k c }
  | .object1 => { p with object1 := p.object1.set k c }
  | .background => { p with background := p.background.set k c }

/-- One read of a configuration element (R59): the value it holds, or, for each value that a write replaced
while the line in flight was in flight, possibly that one. `choice` is the free value of this read; with no
race it is not looked at. -/
def racingRead {α : Type} (now : α) (olds : List α) (choice : Nat) : α :=
  match olds with
  | [] => now
  | old :: rest => (now :: old :: rest).getD (choice % (rest.length + 2)) now

/-- The values a racing write replaced in `PAL[s][k]`. -/
def Race.palOld (s : SubPalette) (k : BitVec 2) : Race → Option Colour
  | .pal s' k' old => if s' = s ∧ k' = k then some old else none
  | .scale _ => none
  | .ecmEn _ => none
  | .ecmTab _ _ => none

/-- The values a racing write replaced in `SCALE`. -/
def Race.scaleOld : Race → Option ScalingMode
  | .pal _ _ _ => none
  | .scale old => some old
  | .ecmEn _ => none
  | .ecmTab _ _ => none

/-- The values a racing write replaced in `ECM_EN`. -/
def Race.ecmEnOld : Race → Option Bool
  | .pal _ _ _ => none
  | .scale _ => none
  | .ecmEn old => some old
  | .ecmTab _ _ => none

/-- The values a racing write replaced in `ECM_TAB[i]`. -/
def Race.ecmTabOld (i : Nat) : Race → Option Colour
  | .pal _ _ _ => none
  | .scale _ => none
  | .ecmEn _ => none
  | .ecmTab j old => if j = i then some old else none

/-- A read of `PAL[s][k]` by `CONS`; `r` numbers the read within the step (R59, R102). -/
def State.readPal (st : State) (s : SubPalette) (k : BitVec 2) (r : Nat) : Colour :=
  racingRead (st.regs.pal.get s k) (st.env.races.filterMap (Race.palOld s k)) (Config.freeChoice st.env.draws r)

/-- A read of `SCALE` by `CONS` (R59, R107). -/
def State.readScale (st : State) (r : Nat) : ScalingMode :=
  racingRead st.regs.scale (st.env.races.filterMap Race.scaleOld) (Config.freeChoice st.env.draws r)

/-- A read of `ECM_EN` by `CONS`; 0 when `ECM_SUPPORT` is false (R22, R103). -/
def State.readEcmEn (st : State) (r : Nat) : Bool :=
  st.cfg.ecmSupport &&
    racingRead st.regs.ecmEn (st.env.races.filterMap Race.ecmEnOld) (Config.freeChoice st.env.draws r)

/-- A read of `ECM_TAB[i]` by `CONS` (R59, R118). -/
def State.readEcmTab (st : State) (i r : Nat) : Colour :=
  racingRead (st.regs.ecmTab.read i) (st.env.races.filterMap (Race.ecmTabOld i)) (Config.freeChoice st.env.draws r)

/-- The race a configuration write opens: none unless a line is in flight, `BUSY = 1` (R59, R165). -/
def State.race (st : State) (old : Race) : State :=
  if st.loadBusy then { st with env := { st.env with races := old :: st.env.races } } else st

/-- `bswap16(c) = {c[7:0], c[15:8]}` (R7). -/
def bswap16 (c : Colour) : Colour :=
  ((c.extractLsb' 0 8).setWidth 16 <<< 8) ||| (c.extractLsb' 8 8).setWidth 16

/-- `bs(c)`, the byte-order function (R42, R130). -/
def bs (P : Params) (c : Colour) : Colour := if P.swapBytes then bswap16 c else c

end Sys2Proof.Machine
end

