-- ==== Sys2Proof/Machine/Ops.lean ====
section
/-! DEFINITION. The operations the commands and the agents share: phase moves, the panel's operations
(42_display_driver.md R126 to R129), `DmaStart` (R133), the framebuffers (R25), `DisplayClear` (R145), the
queue's pop and the acknowledgement (40_channel.md R82, R89), and the block's substitute for an exception
entry, the `reset` input (60_exceptions.md R170, R175 to R178; 70_reset_and_hazards.md R190). -/

namespace Sys2Proof.Machine

/-- `cphase <- c` (R8, R17). -/
def State.toPhase (s : State) (c : CPhase) : State := { s with cons := { s.cons with cphase := c } }

/-- `pphase <- p` (R8, R12). -/
def State.toPPhase (s : State) (p : PPhase) : State := { s with prod := { s.prod with pphase := p } }

/-- The draw counter moves on, so that the next step's free values are new ones. -/
def State.drew (s : State) : State := { s with env := { s.env with draws := s.env.draws + 1 } }

/-- `PanelSetWindow(x0, y0, x1, y1)` (R127). -/
def Panel.setWindow (p : Panel) (x0 y0 x1 y1 : Nat) : Panel :=
  { p with win := ⟨x0, y0, x1, y1⟩, cur := ⟨x0, y0⟩ }

/-- Where `CUR` goes after a write (R128): along the row, then to the next row, then back to the origin. -/
def Window.advance (w : Window) (c : Cursor) : Cursor :=
  if c.x < w.x1 then ⟨c.x + 1, c.y⟩
  else if c.y < w.y1 then ⟨w.x0, c.y + 1⟩
  else ⟨w.x0, w.y0⟩

/-- The address of `PANEL[y][x]`, and the linear index of `FB[b][y][x]` (R25, R40). -/
def pixelAddr (P : Params) (y x : Nat) : Nat := y * P.panelW + x

/-- `PanelWrite(u)` (R128). -/
def Panel.put (P : Params) (p : Panel) (u : Colour) : Panel :=
  { p with pix := p.pix.write (pixelAddr P p.cur.y p.cur.x) u, cur := p.win.advance p.cur }

/-- `PanelStream(U)` (R129). -/
def Panel.stream (P : Params) (p : Panel) (us : List Colour) : Panel := us.foldl (Panel.put P) p

/-- `PanelSetWindow` over the whole panel: `(0, 0, PANEL_W - 1, PANEL_H - 1)` (R139, R140, R145). -/
def Panel.setFullWindow (P : Params) (p : Panel) : Panel := p.setWindow 0 0 (P.panelW - 1) (P.panelH - 1)

/-- `1 - b` on the name of a framebuffer (R141). -/
def BufId.other : BufId → BufId
  | .zero => .one
  | .one => .zero

/-- `FB[b]` (R25). -/
def Driver.fb (d : Driver) (b : BufId) : Memory 16 :=
  match b with
  | .zero => d.fb0
  | .one => d.fb1

/-- `FB[b] <- m`. -/
def Driver.setFb (d : Driver) (b : BufId) (m : Memory 16) : Driver :=
  match b with
  | .zero => { d with fb0 := m }
  | .one => { d with fb1 := m }

/-- `DmaStart(src, len)` (R133). -/
def Driver.dmaStart (d : Driver) (src : DmaSrc) (len : Nat) : Driver :=
  { d with dma := { busy := true, src := src, len := len, pos := 0 } }

/-- The swap, made only when there are two buffers (R141). -/
def Driver.swap (P : Params) (d : Driver) : Driver :=
  if P.fbCount = 2 then { d with fbWr := d.fbWr.other } else d

/-- Every element of a framebuffer becomes `c` (R145). -/
def fillBuffer (P : Params) (m : Memory 16) (c : Colour) : Memory 16 :=
  m.writeRow 0 (List.replicate P.panelN c)

/-- The framebuffers' part of `DisplayClear` (R145). -/
def Driver.clearBuffers (P : Params) (d : Driver) : Driver :=
  match P.driverMode with
  | .direct => d
  | .framebuffered =>
    if P.fbCount = 2 then
      { d with fb0 := fillBuffer P d.fb0 (bs P P.clearColour), fb1 := fillBuffer P d.fb1 (bs P P.clearColour) }
    else { d with fb0 := fillBuffer P d.fb0 (bs P P.clearColour) }

/-- `DisplayClear()` (R145): the framebuffers, then the whole panel through its window. -/
def Driver.displayClear (P : Params) (d : Driver) : Driver :=
  { d.clearBuffers P with
    panel := (d.panel.setFullWindow P).stream P (List.replicate P.panelN (bs P P.clearColour)) }

/-- `C_POP` (R82): the oldest word moves from `Q` to `CMD`; not enabled while `Q` is empty. -/
def popPhase (s : State) : State :=
  match s.chan.q with
  | [] => s
  | w :: rest =>
    { s with chan := { s.chan with q := rest }, cons := { s.cons with cmd := w, cphase := .dispatch } }

/-- `C_ACK` (R89): the acknowledgement. With it the line is no longer in flight and no read races (R59). -/
def ackPhase (s : State) : State :=
  let acked := (s.storeBusy false).toPhase .pop
  { acked with env := { acked.env with races := [] } }

/-- A memory of `n` elements that `reset` leaves unspecified (R31): every element a free value. -/
def freeMemory (w draw reg n : Nat) : Memory w :=
  Memory.writeRow [] 0 ((List.range n).map fun i => BitVec.ofNat w (Config.freeReset draw reg i))

/-- A natural in `lo .. hi` that `reset` leaves unspecified, `lo <= hi`: any value within the limits. -/
def freeBetween (draw reg elem lo hi : Nat) : Nat := lo + Config.freeReset draw reg elem % (hi - lo + 1)

/-- A ScalingMode that `reset` leaves unspecified: one of the three (R21, R31). -/
def freeScale (draw : Nat) : ScalingMode :=
  match Config.freeReset draw 8 0 % 3 with
  | 0 => .normal
  | 1 => .stretch
  | _ => .keepAspect

/-- Four colours that `reset` leaves unspecified (R31). -/
def freeShades (draw s : Nat) : Shades :=
  let c (k : Nat) : Colour := BitVec.ofNat 16 (Config.freeReset draw 7 (4 * s + k))
  ⟨c 0, c 1, c 2, c 3⟩

/-- A source name that `reset` leaves unspecified (R26, R31). -/
def freeDmaSrc (draw : Nat) : DmaSrc :=
  match Config.freeReset draw 15 0 % 3 with
  | 0 => .xbuf
  | 1 => .fb .zero
  | _ => .fb .one

/-- A window and a cursor that `reset` leaves unspecified, within the limits of R27. -/
def freePanel (P : Params) (draw : Nat) : Panel :=
  let x0 := freeBetween draw 18 0 0 (P.panelW - 1)
  let y0 := freeBetween draw 18 1 0 (P.panelH - 1)
  let x1 := freeBetween draw 18 2 x0 (P.panelW - 1)
  let y1 := freeBetween draw 18 3 y0 (P.panelH - 1)
  { win := ⟨x0, y0, x1, y1⟩
    cur := ⟨freeBetween draw 18 4 x0 x1, freeBetween draw 18 5 y0 y1⟩
    pix := freeMemory 16 draw 19 P.panelN }

/-- The `reset` input (R178, R190), whatever any agent is doing: the values of R31, and a free value
wherever R31 says unspecified (log entry 6). The parameters stay. An enqueue in progress is abandoned. The
producer's program and the schedule are the environment's, not the block's, and stay. -/
def resetInput (s : State) : State :=
  let d := s.env.draws
  let P := s.cfg
  let len := freeBetween d 16 0 1 P.panelN
  { s with
    chan := { q := [], busy := false, stg := freeMemory 8 d 0 P.srcW }
    prod := { pphase := .idle, pcmd := BitVec.ofNat 32 (Config.freeReset d 1 0), pline := freeMemory 8 d 2 P.srcW }
    cons := { cphase := .pop, cmd := BitVec.ofNat 32 (Config.freeReset d 3 0),
              linebuf := freeMemory 16 d 4 P.srcW, outbuf := freeMemory 16 d 5 (2 * P.srcW),
              place := { outW := freeBetween d 6 0 P.srcW (2 * P.srcW), outX := Config.freeReset d 6 1,
                         outY := Config.freeReset d 6 2, outRows := freeBetween d 6 3 1 2 } }
    regs := { pal := ⟨freeShades d 0, freeShades d 1, freeShades d 2⟩, scale := freeScale d,
              ecmEn := Config.freeReset d 9 0 % 2 = 1, ecmTab := freeMemory 16 d 10 P.ecmN }
    drv := { idleMode := BitVec.ofNat 8 (Config.freeReset d 11 0), xbuf := freeMemory 16 d 12 P.xbufLen,
             fb0 := freeMemory 16 d 13 P.panelN, fb1 := freeMemory 16 d 14 P.panelN, fbWr := .zero,
             dma := { busy := false, src := freeDmaSrc d, len := len, pos := freeBetween d 17 0 0 len },
             panel := freePanel P d }
    env := { s.env with draws := d + 1, races := [], statusRet := none } }

end Sys2Proof.Machine
end

