-- ==== Sys2Proof/Machine/Compositor.lean ====
section
/-! DEFINITION. The Scanline Compositor: colour resolution (`C_RESOLVE`, 41_compositor.md R101 to R103, R118) and
layout (`C_LAYOUT`, R107 to R111). -/

namespace Sys2Proof.Machine

/-- `lut(c)` for the pixel of column `x` (R102): the base-scheme lookup. A selector that names no
sub-palette gives an unspecified colour, a free value (log entry 7). -/
def lut (s : State) (x : Nat) (c : Byte) : Colour :=
  match subPaletteOf (pixelSel c) with
  | some sub => s.readPal sub (pixelShade c) (2 * x + 1)
  | none => Config.freeColour s.env.draws x

/-- The enhanced-colour lookup: entry `c mod ECM_N` (R103, R118). -/
def ecmLookup (s : State) (x : Nat) (c : Byte) : Colour := s.readEcmTab (c.toNat % s.cfg.ecmN) (2 * x + 1)

/-- The colour of column `x` (R103): `STG[x]` through the enhanced-colour table or the Palette. -/
def resolvePixel (s : State) (x : Nat) : Colour :=
  if s.readEcmEn (2 * x) then ecmLookup s x (s.chan.stg.read x) else lut s x (s.chan.stg.read x)

/-- The resolved line, columns `0 .. SRC_W-1` (R103). -/
def resolvedLine (s : State) : List Colour := (List.range s.cfg.srcW).map (resolvePixel s)

/-- Phase `C_RESOLVE` (R103). -/
def resolvePhase (s : State) : State :=
  ({ s with cons := { s.cons with linebuf := s.cons.linebuf.writeRow 0 (resolvedLine s), cphase := .layout } }).drew

/-- The loop of `layout_normal` (R108). -/
def layoutNormal (P : Params) (linebuf outbuf : Memory 16) : Memory 16 :=
  (List.range P.srcW).foldl (fun out x => out.write x (linebuf.read x)) outbuf

/-- The loop of `layout_stretch` (R109). -/
def layoutStretch (P : Params) (linebuf outbuf : Memory 16) : Memory 16 :=
  (List.range P.srcW).foldl
    (fun out x => (out.write (2 * x) (linebuf.read x)).write (2 * x + 1) (linebuf.read x)) outbuf

/-- The loop of `layout_keep_aspect` (R110). -/
def layoutKeepAspect (P : Params) (linebuf outbuf : Memory 16) : Memory 16 :=
  (List.range P.srcW).foldl
    (fun out x =>
      let first := out.write (xoff x) (linebuf.read x)
      if rep x = 1 then first.write (xoff x + 1) (linebuf.read x) else first) outbuf

/-- The layout function that the mode selects (R107). -/
def layoutLine (P : Params) (m : ScalingMode) (linebuf outbuf : Memory 16) : Memory 16 :=
  match m with
  | .normal => layoutNormal P linebuf outbuf
  | .stretch => layoutStretch P linebuf outbuf
  | .keepAspect => layoutKeepAspect P linebuf outbuf

/-- `OUT_W` in each mode (R108 to R110). -/
def outWidth (P : Params) (m : ScalingMode) : Nat :=
  match m with
  | .normal => P.srcW
  | .stretch => 2 * P.srcW
  | .keepAspect => kaW P

/-- The placement registers of line `n` in mode `m` (R107 to R110). -/
def placementOf (P : Params) (m : ScalingMode) (n : Nat) : Placement where
  outW := outWidth P m
  outX := (P.panelW - outWidth P m) / 2
  outY := yoff P m n
  outRows := 1 + vrep m n

/-- Phase `C_LAYOUT` of the line `n` (R107). `SCALE` is read once (log entry 9). -/
def layoutPhase (n : Nat) (s : State) : State :=
  let m := s.readScale 0
  ({ s with cons := { s.cons with
      outbuf := layoutLine s.cfg m s.cons.linebuf s.cons.outbuf
      place := placementOf s.cfg m n
      cphase := .push } }).drew

end Sys2Proof.Machine
end

