-- ==== Sys2Proof/Machine/PanelDriver.lean ====
section
/-! DEFINITION. The Display Driver: the push of a laid-out line (`C_PUSH`, 42_display_driver.md R131, R132, R136,
R137), the end of a frame (`C_FRAME`, R138 to R141), the display-clear routine (`C_IDLE`, 40_channel.md R91) and
the steps of the DMA engine (R134, R135). -/

namespace Sys2Proof.Machine

/-- One output row on its way out: `bs(OUTBUF[k])` for `k < OUT_W` (R130, R132). -/
def rowUnits (s : State) : List Colour := (s.cons.outbuf.elements s.cons.place.outW).map (bs s.cfg)

/-- The units of the placed line, `OUT_ROWS` times the row (R132, R137). -/
def lineUnits (s : State) : List Colour := (List.replicate s.cons.place.outRows (rowUnits s)).flatten

/-- `PanelSetWindow(OUT_X, OUT_Y, OUT_X + OUT_W - 1, OUT_Y + OUT_ROWS - 1)` (R132, R137). -/
def lineWindow (s : State) (p : Panel) : Panel :=
  let pl := s.cons.place
  p.setWindow pl.outX pl.outY (pl.outX + pl.outW - 1) (pl.outY + pl.outRows - 1)

/-- `push_direct` (R132). -/
def pushDirect (s : State) : State :=
  { s with drv := { s.drv with panel := (lineWindow s s.drv.panel).stream s.cfg (lineUnits s) } }

/-- `push_direct_dma` (R137): copy to `XBUF`, set the window, start the transfer. -/
def pushDirectDma (s : State) : State :=
  let copied := { s.drv with xbuf := s.drv.xbuf.writeRow 0 (lineUnits s), panel := lineWindow s s.drv.panel }
  { s with drv := copied.dmaStart .xbuf (s.cons.place.outRows * s.cons.place.outW) }

/-- The loop of `push_fb` (R136) over the rows of the writable buffer. -/
def fbRows (s : State) (m : Memory 16) : Memory 16 :=
  (List.range s.cons.place.outRows).foldl
    (fun m r => m.writeRow (pixelAddr s.cfg (s.cons.place.outY + r) s.cons.place.outX) (rowUnits s)) m

/-- `push_fb` (R136). -/
def pushFb (s : State) : State :=
  { s with drv := s.drv.setFb s.drv.fbWr (fbRows s (s.drv.fb s.drv.fbWr)) }

/-- Whether `C_PUSH` must wait (R131, R137, R142): a transfer is in flight, and the push would reuse the
transfer buffer or the one framebuffer. -/
def pushWaits (s : State) : Bool :=
  match s.cfg.driverMode with
  | .direct => s.dmaInFlight
  | .framebuffered => s.cfg.fbCount = 1 && s.dmaInFlight

/-- The placed line lies inside the panel and the buffers (R44, R113). -/
def placementInside (s : State) : Bool :=
  let pl := s.cons.place
  1 ≤ pl.outW && pl.outW ≤ 2 * s.cfg.srcW && 1 ≤ pl.outRows && pl.outRows ≤ 2
    && pl.outX + pl.outW ≤ s.cfg.panelW && pl.outY + pl.outRows ≤ s.cfg.panelH

/-- The push rule that the configuration selects (R131). -/
def pushLine (s : State) : State :=
  match s.cfg.driverMode with
  | .direct => if s.cfg.useDma then pushDirectDma s else pushDirect s
  | .framebuffered => pushFb s

/-- The phase after `C_PUSH` (R131): `C_FRAME` after the last line of a frame in framebuffered mode. -/
def afterPush (P : Params) (n : Nat) : CPhase :=
  match P.driverMode with
  | .direct => .ack
  | .framebuffered => if n + 1 = P.srcH then .frame else .ack

/-- Phase `C_PUSH` of the line `n` (R131). A waiting turn changes nothing. -/
def pushPhase (n : Nat) (s : State) : Host.Outcome State Fault Refusal :=
  if pushWaits s then .next s
  else if placementInside s then .next ((pushLine s).toPhase (afterPush s.cfg n))
  else .fault .addressOutsideSpace

/-- `frame_push_blocking` (R139): the whole of `FB[FB_WR]` to the panel, then the swap. -/
def framePushBlocking (s : State) : State :=
  let shown := { s.drv with
    panel := (s.drv.panel.setFullWindow s.cfg).stream s.cfg ((s.drv.fb s.drv.fbWr).elements s.cfg.panelN) }
  { s with drv := shown.swap s.cfg }

/-- `frame_push_dma` (R140): skipped, push and swap, while a transfer is in flight. -/
def framePushDma (s : State) : State :=
  if s.dmaInFlight then s
  else
    let windowed := { s.drv with panel := s.drv.panel.setFullWindow s.cfg }
    { s with drv := (windowed.dmaStart (.fb s.drv.fbWr) s.cfg.panelN).swap s.cfg }

/-- Phase `C_FRAME` (R138); it never waits. -/
def framePhase (s : State) : State :=
  (if s.cfg.useDma then framePushDma s else framePushBlocking s).toPhase .ack

/-- Phase `C_IDLE` with payload `m` (R91); not enabled while a transfer is in flight. -/
def idlePhase (m : Byte) (s : State) : State :=
  if s.dmaInFlight then s
  else
    ({ s with drv := { s.drv.displayClear s.cfg with idleMode := m } }).toPhase .pop

/-- The memory a transfer reads (R26, R134). -/
def Driver.source (d : Driver) (src : DmaSrc) : Memory 16 :=
  match src with
  | .xbuf => d.xbuf
  | .fb b => d.fb b

/-- The address of unit `pos` in a transfer's source: `XBUF[pos]`, or
`FB[b][pos div PANEL_W][pos mod PANEL_W]` (R134). -/
def sourceAddr (P : Params) (src : DmaSrc) (pos : Nat) : Nat :=
  match src with
  | .xbuf => pos
  | .fb _ => pixelAddr P (pos / P.panelW) (pos % P.panelW)

/-- The elements of a transfer's source (R24, R25). -/
def sourceSize (P : Params) (src : DmaSrc) : Nat :=
  match src with
  | .xbuf => P.xbufLen
  | .fb _ => P.panelN

/-- One DMA beat (R134): the unit is read at the time of the beat. -/
def dmaBeat (s : State) : State :=
  let d := s.drv
  let u := (d.source d.dma.src).read (sourceAddr s.cfg d.dma.src d.dma.pos)
  { s with drv := { d with panel := d.panel.put s.cfg u, dma := { d.dma with pos := d.dma.pos + 1 } } }

/-- DMA completion (R135). -/
def dmaComplete (s : State) : State :=
  { s with drv := { s.drv with dma := { s.drv.dma with busy := false } } }

/-- The source unit and the panel element of the next beat exist (R40, R44). -/
def beatInside (s : State) : Bool :=
  s.drv.dma.pos < sourceSize s.cfg s.drv.dma.src && s.drv.panel.cur.x < s.cfg.panelW
    && s.drv.panel.cur.y < s.cfg.panelH

/-- A turn of the DMA engine (R6, R134, R135): a beat, or completion, or nothing while no transfer is in
flight. -/
def dmaTurn (s : State) : Host.Outcome State Fault Refusal :=
  if s.dmaInFlight then
    if s.drv.dma.pos < s.drv.dma.len then
      if beatInside s then .next (dmaBeat s) else .fault .addressOutsideSpace
    else .next (dmaComplete s)
  else .next s

end Sys2Proof.Machine
end

