-- ==== Sys2Proof/Machine/Commands.lean ====
section
/-! DEFINITION. The meaning of each command (40_channel.md R85 to R94): the consumer's next step while that
command is in `CMD`, phase by phase (R83, R84), one step per phase (log entry 13). A phase the command does not
have is a fault: no rule takes the consumer there. -/

namespace Sys2Proof.Machine

/-- `C_DISPATCH` of a word that has no effect (R83): back to `C_POP`. -/
def noEffect (s : State) : Host.Outcome State Fault Refusal :=
  match s.cons.cphase with
  | .dispatch => .next (s.toPhase .pop)
  | .pop => .fault .commandNotInPhase
  | .resolve => .fault .commandNotInPhase
  | .layout => .fault .commandNotInPhase
  | .push => .fault .commandNotInPhase
  | .frame => .fault .commandNotInPhase
  | .ack => .fault .commandNotInPhase
  | .idle => .fault .commandNotInPhase

/-- `NOP` (R85): no effect; the payload is ignored. -/
def execNop (_data : Byte) (s : State) : Host.Outcome State Fault Refusal := noEffect s

/-- `LCD_LINE(line_index)` (R86, R87): dispatch, resolve, lay out, push, at the end of a frame push the
frame, acknowledge. An index not below `SRC_H` is acknowledged at once (R87). -/
def execLcdLine (lineIndex : Byte) (s : State) : Host.Outcome State Fault Refusal :=
  match s.cons.cphase with
  | .dispatch => .next (s.toPhase (if lineIndex.toNat < s.cfg.srcH then .resolve else .ack))
  | .resolve => .next (resolvePhase s)
  | .layout => .next (layoutPhase lineIndex.toNat s)
  | .push => pushPhase lineIndex.toNat s
  | .frame => .next (framePhase s)
  | .ack => .next (ackPhase s)
  | .pop => .fault .commandNotInPhase
  | .idle => .fault .commandNotInPhase

/-- `IDLE_SET(mode)` (R90, R91): dispatch, then the display-clear/idle routine. -/
def execIdleSet (mode : Byte) (s : State) : Host.Outcome State Fault Refusal :=
  match s.cons.cphase with
  | .dispatch => .next (s.toPhase .idle)
  | .idle => .next (idlePhase mode s)
  | .pop => .fault .commandNotInPhase
  | .resolve => .fault .commandNotInPhase
  | .layout => .fault .commandNotInPhase
  | .push => .fault .commandNotInPhase
  | .frame => .fault .commandNotInPhase
  | .ack => .fault .commandNotInPhase

/-- `SET_PIXEL` (R68, R93): no effect with `DEBUG_SET_PIXEL = false`; with true the spec gives no semantics
and the configuration is refused. -/
def execSetPixel (_data : Byte) (s : State) : Host.Outcome State Fault Refusal :=
  if s.cfg.debugSetPixel then .refused .debugSetPixelUnspecified else noEffect s

/-- A reserved tag, 4 to 255 (R67, R94): no effect. -/
def execReserved (_tag _data : Byte) (s : State) : Host.Outcome State Fault Refusal := noEffect s

end Sys2Proof.Machine
end

