-- ==== Sys2Proof/Machine/Dispatch.lean ====
section
/-! DEFINITION. The dispatch on the command (40_channel.md R83): one arm per constructor of `Instr`. -/

namespace Sys2Proof.Machine

def exec (i : Instr) (s : State) : Host.Outcome State Fault Refusal :=
  match i with
  | .nop data => Sys2Proof.Machine.execNop data s
  | .lcdLine lineIndex => Sys2Proof.Machine.execLcdLine lineIndex s
  | .idleSet mode => Sys2Proof.Machine.execIdleSet mode s
  | .setPixel data => Sys2Proof.Machine.execSetPixel data s

end Sys2Proof.Machine
end

