-- ==== Sys2Proof/WellFormed.lean ====
section
/-! DEFINITION. What is well formed: a parameter set (00_scope.md R4), a port operation (R73, R76, R161 to
R164) and a command a program may enqueue (R64, R202, 93_implementation_defined.md U2). -/

namespace Sys2Proof

/-- `1 <= SRC_W` (R4). -/
def Params.widthOk (P : Params) : Bool := 1 ≤ P.srcW

/-- `1 <= SRC_H <= 256` (R4). -/
def Params.heightOk (P : Params) : Bool := 1 ≤ P.srcH && P.srcH ≤ 256

/-- `2*SRC_W <= PANEL_W` (R4). -/
def Params.panelWidthOk (P : Params) : Bool := 2 * P.srcW ≤ P.panelW

/-- `OUT_H <= PANEL_H` and `SRC_H <= PANEL_H` (R4). -/
def Params.panelHeightOk (P : Params) : Bool := Machine.outH P ≤ P.panelH && P.srcH ≤ P.panelH

/-- `FB_COUNT in {1,2}` (R4). -/
def Params.fbCountOk (P : Params) : Bool := P.fbCount = 1 || P.fbCount = 2

/-- `ECM_N in {1,2,4,...,256}` (R4). -/
def Params.ecmSizeOk (P : Params) : Bool := [1, 2, 4, 8, 16, 32, 64, 128, 256].contains P.ecmN

/-- `FIFO_DEPTH >= 1` (R4's table). -/
def Params.fifoOk (P : Params) : Bool := 1 ≤ P.fifoDepth

/-- A legal parameter set: every constraint of R4. The machine refuses any other. -/
def Params.legal (P : Params) : Bool :=
  P.widthOk && P.heightOk && P.panelWidthOk && P.panelHeightOk && P.fbCountOk && P.ecmSizeOk && P.fifoOk

/-- A port operation that exists with these parameters and whose operands are in range: a PixelLine of
`SRC_W` codes when the tag is 1 (R76), an index below `ECM_N` (R164), and the enhanced-colour operations
only when `ECM_SUPPORT` (R163, R164). -/
def PortOp.wellFormed (P : Params) : PortOp → Bool
  | .enqueue tag _ line => tag ≠ 1#8 || line.length = P.srcW
  | .cfgPal _ _ _ => true
  | .cfgScale _ => true
  | .cfgEcm _ => P.ecmSupport
  | .cfgEcmTab i _ => P.ecmSupport && i < P.ecmN
  | .status => true

/-- A command a program may enqueue: a line index below `SRC_H` (R64, R202) and no SET_PIXEL (U2). The
machine executes the others too, as R87 and R93 say (log entry 10). -/
def Instr.wellFormed (P : Params) : Instr → Bool
  | .nop _ => true
  | .lcdLine lineIndex => lineIndex.toNat < P.srcH
  | .idleSet _ => true
  | .setPixel _ => false

end Sys2Proof
end

