-- ==== Sys2Proof/Machine/ProducerPort.lean ====
section
/-! DEFINITION. The producer port: `ENQUEUE` phase by phase (40_channel.md R76 to R81) and the configuration port
(43_config_port.md R160 to R166), with the programs of 30_encoding.md R71 and R72. -/

namespace Sys2Proof.Machine

/-- `ENQUEUE` accepted (R76): the word and, for an LCD_LINE, the PixelLine are latched. -/
def acceptEnqueue (tag data : Byte) (line : List Byte) (s : State) : State :=
  { s with prod :=
    { pphase := .wait
      pcmd := encodeWord tag data
      pline := if tag = 1#8 then s.prod.pline.writeRow 0 line else s.prod.pline } }

/-- Phase `P_WAIT` (R77): spin while `BUSY = 1`; then copy for an LCD_LINE, push for any other tag. -/
def waitPhase (s : State) : State :=
  if s.loadBusy then s
  else if tagOf s.prod.pcmd = 1#8 then s.toPPhase .copy
  else s.toPPhase .push

/-- Phase `P_COPY` (R78): `STG[x] <- PLINE[x]` for every column. -/
def copyPhase (s : State) : State :=
  ({ s with chan := { s.chan with
      stg := s.chan.stg.writeRow 0 (s.prod.pline.elements s.cfg.srcW) } }).toPPhase .mark

/-- Phase `P_MARK` (R79). -/
def markPhase (s : State) : State := (s.storeBusy true).toPPhase .push

/-- Phase `P_PUSH` (R80): `QueuePush`; not enabled while the queue is full. -/
def pushWordPhase (s : State) : State :=
  if s.queueFull then s
  else ({ s with chan := { s.chan with q := s.chan.q ++ [s.prod.pcmd] } }).toPPhase .idle

/-- `CFG_PAL(s, k, c)` (R161). -/
def cfgPal (sub : SubPalette) (k : BitVec 2) (c : Colour) (s : State) : State :=
  let raced := s.race (.pal sub k (s.regs.pal.get sub k))
  { raced with regs := { s.regs with pal := s.regs.pal.set sub k c } }

/-- The mode a 2-bit operand names; 3 names none (R21). -/
def scaleOf (m : BitVec 2) : Option ScalingMode :=
  if m = 0#2 then some .normal
  else if m = 1#2 then some .stretch
  else if m = 2#2 then some .keepAspect
  else none

/-- `CFG_SCALE(m)` (R162); 3 has no effect. -/
def cfgScale (m : BitVec 2) (s : State) : State :=
  match scaleOf m with
  | none => s
  | some mode =>
    let raced := s.race (.scale s.regs.scale)
    { raced with regs := { s.regs with scale := mode } }

/-- `CFG_ECM(e)` (R163). -/
def cfgEcm (e : Bool) (s : State) : State :=
  let raced := s.race (.ecmEn s.regs.ecmEn)
  { raced with regs := { s.regs with ecmEn := e } }

/-- `CFG_ECMTAB(i, c)` (R164). -/
def cfgEcmTab (i : Nat) (c : Colour) (s : State) : State :=
  let raced := s.race (.ecmTab i (s.regs.ecmTab.read i))
  { raced with regs := { s.regs with ecmTab := s.regs.ecmTab.write i c } }

/-- `STATUS()` (R166): the value of `BUSY` is returned to the producer and nothing of the block changes. -/
def statusRead (s : State) : State := { s with env := { s.env with statusRet := some s.loadBusy } }

/-- A well-formed port operation, accepted while `pphase = P_IDLE` (R76, R160). -/
def portOp (o : PortOp) (s : State) : State :=
  match o with
  | .enqueue tag data line => acceptEnqueue tag data line s
  | .cfgPal sub k c => cfgPal sub k c s
  | .cfgScale m => cfgScale m s
  | .cfgEcm e => cfgEcm e s
  | .cfgEcmTab i c => cfgEcmTab i c s
  | .status => statusRead s

/-- The program without its first item, which has been issued. -/
def State.issued (s : State) (rest : List ProgItem) : State := { s with env := { s.env with prog := rest } }

/-- One poll of `wait_idle` (R72): done when the load of `BUSY` returns 0, repeated otherwise. -/
def pollOnce (rest : List ProgItem) (s : State) : State :=
  if s.loadBusy then statusRead s else (statusRead s).issued rest

/-- `P_IDLE`: the producer issues its program's next item, or nothing (R30, R71, R76, R160). -/
def issueNext (s : State) : Host.Outcome State Fault Refusal :=
  match s.env.prog with
  | [] => .next s
  | .op o :: rest => if o.wellFormed s.cfg then .next (portOp o (s.issued rest)) else .refused .malformedPortOp
  | .waitIdle :: rest => .next (pollOnce rest s)

/-- A turn of the producer (R6, R12): the step of its phase. -/
def prodTurn (s : State) : Host.Outcome State Fault Refusal :=
  match s.prod.pphase with
  | .idle => issueNext s
  | .wait => .next (waitPhase s)
  | .copy => .next (copyPhase s)
  | .mark => .next (markPhase s)
  | .push => .next (pushWordPhase s)

/-- `enq LCD_LINE n, line` (R71). -/
def enqLine (n : Byte) (line : List Byte) : ProgItem := .op (.enqueue 1#8 n line)

/-- `enq IDLE_SET m` (R71). -/
def enqIdleSet (m : Byte) : ProgItem := .op (.enqueue 2#8 m [])

/-- `frame L` (R72): the lines in ascending order. -/
def frameProgram (lines : List (List Byte)) : List ProgItem :=
  lines.mapIdx fun n line => enqLine (BitVec.ofNat 8 n) line

/-- `palette P` (R72): the twelve `cfg.pal`, `s` outermost. -/
def paletteProgram (p : Palette) : List ProgItem :=
  [SubPalette.object0, SubPalette.object1, SubPalette.background].flatMap fun sub =>
    [0#2, 1#2, 2#2, 3#2].map fun k => .op (.cfgPal sub k (p.get sub k))

/-- `set_mode m` (R72, R167): wait, change the mode, clear with the idle mode `d` to keep. -/
def setModeProgram (m : BitVec 2) (d : Byte) : List ProgItem := [.waitIdle, .op (.cfgScale m), enqIdleSet d]

end Sys2Proof.Machine
end

