-- ==== Sys2Proof/Machine/Turns.lean ====
section
/-! DEFINITION. One turn of each agent (00_scope.md R6, 20_memory.md R52) and who has it. -/

namespace Sys2Proof.Machine

/-- Whose turn it is: the schedule's first entry, or a free value when the schedule lists none (R30, R52;
log entry 2). -/
def State.turn (s : State) : Turn :=
  match s.env.sched with
  | [] => Config.freeTurn s.env.draws
  | t :: _ => t

/-- The state with that turn taken off the schedule. -/
def State.turnTaken (s : State) : State :=
  match s.env.sched with
  | [] => s.drew
  | _ :: rest => { s with env := { s.env with sched := rest } }

/-- The consumer's step while a command is in `CMD`: the meaning of the word's command (R83). -/
def runCommand (s : State) : Host.Outcome State Fault Refusal :=
  match decode s.cons.cmd with
  | .command i => exec i s
  | .reserved t d => execReserved t d s

/-- A turn of the consumer (R17, R84): the pop, or the next phase of the command in `CMD`. -/
def consTurn (s : State) : Host.Outcome State Fault Refusal :=
  if s.cons.cphase = .pop then .next (popPhase s) else runCommand s

/-- A turn of agent `t`. `reset` takes priority in that it is taken at whatever point its turn comes (R190). -/
def agentTurn (t : Turn) (s : State) : Host.Outcome State Fault Refusal :=
  match t with
  | .prod => prodTurn s
  | .cons => consTurn s
  | .dma => dmaTurn s
  | .reset => .next (resetInput s)

/-- Whether agent `t` has an enabled step (R6, R56): the producer unless its program is at its end, `P_WAIT` finds
`BUSY = 1` (R77) or `P_PUSH` a full queue (R80); the consumer unless `C_POP` finds an empty queue (R82) or `C_PUSH`
or `C_IDLE` waits for a transfer (R131, R91); the DMA engine while a transfer is in flight (R134, R135). A poll of
`wait_idle` is a step (R72). `ENV` may assert `reset` at any moment (R190). -/
def State.enabled (s : State) (t : Turn) : Bool :=
  match t with
  | .prod =>
    match s.prod.pphase with
    | .idle => !s.env.prog.isEmpty
    | .wait => !s.loadBusy
    | .copy => true
    | .mark => true
    | .push => !s.queueFull
  | .cons =>
    match s.cons.cphase with
    | .pop => !s.chan.q.isEmpty
    | .dispatch => true
    | .resolve => true
    | .layout => true
    | .push => !pushWaits s
    | .frame => true
    | .ack => true
    | .idle => !s.dmaInFlight
  | .dma => s.dmaInFlight
  | .reset => true

/-- One step of the machine (R52): the parameters are checked (R4, R68), then one agent takes one turn. -/
def stepTurn (s : State) : Host.Outcome State Fault Refusal :=
  if s.cfg.debugSetPixel then .refused .debugSetPixelUnspecified
  else if s.cfg.legal then agentTurn s.turn s.turnTaken
  else .refused .illegalParameters

/-- The word `w` of `nbits` bits in `CMD` at `C_DISPATCH`, with the consumer's turn next. -/
def State.placeWord (s : State) (nbits w : Nat) : State :=
  { s with
    cons := { s.cons with cmd := BitVec.ofNat 32 (w % 2 ^ nbits), cphase := .dispatch }
    env := { s.env with sched := .cons :: s.env.sched } }

end Sys2Proof.Machine
end

