-- ==== Sys2Proof/Machine/Step.lean ====
section
/-! DEFINITION. The step, and how the host places an instruction (log entry 3). -/

namespace Sys2Proof.Machine

/-- One atomic step of one agent (20_memory.md R52). -/
def step (s : State) : Host.Outcome State Fault Refusal := stepTurn s

/-- `s` with the command word `w` where the next step takes its command from: in `CMD`, the consumer in
`C_DISPATCH` and its turn next (log entry 3). -/
def State.withFetchWord (s : State) (nbits w : Nat) : State := s.placeWord nbits w

end Sys2Proof.Machine
end

