-- ==== Sys2Proof/Safety.lean ====
section
/-! DEFINITION. The terms the claims use: quiescence (70_reset_and_hazards.md R208), the in-flight count and
invariant (40_channel.md R92), and what holds in every state a run reaches (20_memory.md R44, 41_compositor.md
R113, 42_display_driver.md R143, R147), runs and weak fairness (R207). -/

namespace Sys2Proof.Machine

/-- A word whose tag is LCD_LINE (R65). -/
def isLine (w : Word) : Bool := tagOf w = 1#8

/-- The line index of a command word (R64). -/
def lineIndexOf (w : Word) : Nat := (dataOf w).toNat

/-- `cphase` is one of `C_RESOLVE`, `C_LAYOUT`, `C_PUSH`, `C_FRAME`, `C_ACK`: the phases only an LCD_LINE has. -/
def CPhase.ofLine : CPhase → Bool
  | .resolve | .layout | .push | .frame | .ack => true
  | .pop | .dispatch | .idle => false

/-- The LCD_LINE words in `PCMD` after a `P_MARK`, waiting for their push (R92). -/
def portLines (p : PPhase) (pcmd : Word) : Nat := if p = .push && isLine pcmd then 1 else 0

/-- The LCD_LINE words in `CMD` while they are executed (R92). -/
def cmdLines (c : CPhase) (cmd : Word) : Nat := if (c = .dispatch || c.ofLine) && isLine cmd then 1 else 0

/-- The LCD_LINE words in `PCMD` after a `P_MARK`, in `Q`, and in `CMD` while it is executed (R92). -/
def State.linesInFlight (s : State) : Nat :=
  portLines s.prod.pphase s.prod.pcmd + s.chan.q.countP isLine + cmdLines s.cons.cphase s.cons.cmd

/-- The in-flight invariant (R92), with what makes every step keep it: `BUSY = 1` exactly when an LCD_LINE is
in flight, and then exactly one; `BUSY = 0` and the word an LCD_LINE in `P_COPY` and `P_MARK`; `BUSY = 0` while
any other word waits in `P_PUSH` (R77); the phases of an LCD_LINE are entered by an LCD_LINE only. -/
abbrev State.ChannelInv (s : State) : Prop :=
  s.linesInFlight = s.chan.busy.toNat ∧
  ((s.prod.pphase = .copy ∨ s.prod.pphase = .mark) → s.chan.busy = false ∧ isLine s.prod.pcmd = true) ∧
  (s.prod.pphase = .push → isLine s.prod.pcmd = false → s.chan.busy = false) ∧
  (s.cons.cphase.ofLine = true → isLine s.cons.cmd = true)

/-- Quiescence (R208): the block has nothing left to do until the producer issues an operation. -/
abbrev State.Quiescent (s : State) : Prop :=
  s.prod.pphase = .idle ∧ s.chan.q = [] ∧ s.cons.cphase = .pop ∧ s.chan.busy = false ∧ s.dmaInFlight = false

/-- Every memory is in canonical form. -/
abbrev State.Canonical (s : State) : Prop :=
  s.chan.stg.wf = true ∧ s.prod.pline.wf = true ∧ s.cons.linebuf.wf = true ∧ s.cons.outbuf.wf = true ∧
  s.regs.ecmTab.wf = true ∧ s.drv.xbuf.wf = true ∧ s.drv.fb0.wf = true ∧ s.drv.fb1.wf = true ∧
  s.drv.panel.pix.wf = true

/-- Every listed address lies in its space (R40). -/
abbrev State.AddressesInside (s : State) : Prop :=
  s.chan.stg.within s.cfg.srcW = true ∧ s.prod.pline.within s.cfg.srcW = true ∧
  s.cons.linebuf.within s.cfg.srcW = true ∧ s.cons.outbuf.within (2 * s.cfg.srcW) = true ∧
  s.regs.ecmTab.within s.cfg.ecmN = true ∧ s.drv.xbuf.within s.cfg.xbufLen = true ∧
  s.drv.fb0.within s.cfg.panelN = true ∧ s.drv.fb1.within s.cfg.panelN = true ∧
  s.drv.panel.pix.within s.cfg.panelN = true

/-- `cphase` is a phase of the command in `CMD` (R83, R84), with the index in range past `C_DISPATCH` (R87). -/
abbrev State.PhaseFits (s : State) : Prop :=
  match s.cons.cphase with
  | .pop => True
  | .dispatch => True
  | .resolve => isLine s.cons.cmd = true ∧ lineIndexOf s.cons.cmd < s.cfg.srcH
  | .layout => isLine s.cons.cmd = true ∧ lineIndexOf s.cons.cmd < s.cfg.srcH
  | .push => isLine s.cons.cmd = true ∧ lineIndexOf s.cons.cmd < s.cfg.srcH ∧ placementInside s = true
  | .frame => isLine s.cons.cmd = true ∧ s.cfg.driverMode = .framebuffered
  | .ack => isLine s.cons.cmd = true
  | .idle => tagOf s.cons.cmd = 2#8

/-- The limits of R27: the window inside the panel and the cursor inside the window. -/
abbrev State.WindowInside (s : State) : Prop :=
  let p := s.drv.panel
  p.win.x0 ≤ p.win.x1 ∧ p.win.x1 < s.cfg.panelW ∧ p.win.y0 ≤ p.win.y1 ∧ p.win.y1 < s.cfg.panelH ∧
  p.win.x0 ≤ p.cur.x ∧ p.cur.x ≤ p.win.x1 ∧ p.win.y0 ≤ p.cur.y ∧ p.cur.y ≤ p.win.y1

/-- Columns of the panel's window (R129). -/
def Window.width (w : Window) : Nat := w.x1 - w.x0 + 1

/-- Rows of the panel's window. -/
def Window.height (w : Window) : Nat := w.y1 - w.y0 + 1

/-- The panel position of unit `j` of a stream into the window (R129): row by row, left to right. -/
def Window.cell (w : Window) (j : Nat) : Cursor := ⟨w.x0 + j % w.width, w.y0 + j / w.width⟩

/-- The limits of R26, and while a transfer is in flight: its window holds exactly its units (R133), the
cursor stands where the next unit goes (R128, R134), and the source has that many units. -/
abbrev State.TransferPlaced (s : State) : Prop :=
  let d := s.drv.dma
  let p := s.drv.panel
  1 ≤ d.len ∧ d.len ≤ s.cfg.panelN ∧ d.pos ≤ d.len ∧
  (s.dmaInFlight = true →
    p.win.width * p.win.height = d.len ∧ d.len ≤ sourceSize s.cfg d.src ∧
    p.cur = p.win.cell (if d.pos = d.len then 0 else d.pos))

/-- The state stays inside the machine's spaces and its phases fit its command: no step forms an address
outside a space (R44, R113) and no command is in a phase it does not have. -/
abbrev State.Sound (s : State) : Prop :=
  s.cfg.legal = true ∧ s.cfg.debugSetPixel = false ∧ s.chan.q.length ≤ s.cfg.fifoDepth ∧
  s.AddressesInside ∧ s.PhaseFits ∧ s.WindowInside ∧ s.TransferPlaced

/-- The gating invariant (R25, R143): with one buffer `FB_WR` is constant 0, `C_FRAME` is entered in
framebuffered mode only (R138), and a transfer in flight reads `XBUF` in direct mode, and in framebuffered mode
the buffer that is not writable (with two) or the one there is. -/
abbrev State.Gated (s : State) : Prop :=
  (s.cfg.fbCount ≠ 2 → s.drv.fbWr = .zero) ∧
  (s.cons.cphase = .frame → s.cfg.driverMode = .framebuffered) ∧
  (s.dmaInFlight = true →
    (s.cfg.driverMode = .direct → s.drv.dma.src = .xbuf) ∧
    (s.cfg.driverMode = .framebuffered → s.cfg.fbCount = 2 → s.drv.dma.src = .fb s.drv.fbWr.other) ∧
    (s.cfg.driverMode = .framebuffered → s.cfg.fbCount ≠ 2 → s.drv.dma.src = .fb s.drv.fbWr))

/-- With one framebuffer a frame never ends while a transfer is in flight (R142). -/
abbrev State.OneBufferFrameFree (s : State) : Prop :=
  s.cfg.driverMode = .framebuffered → s.cfg.fbCount = 1 → s.cons.cphase = .frame → s.dmaInFlight = false

/-- The output columns that hold the copies of source column `x`, counted from `OUT_X` (R108 to R110). -/
def copiesOf (m : ScalingMode) (x : Nat) : List Nat :=
  match m with
  | .normal => [x]
  | .stretch => [2 * x, 2 * x + 1]
  | .keepAspect => if rep x = 1 then [xoff x, xoff x + 1] else [xoff x]

/-- The position `(x, y)` lies in the placed line `pl` (R114). -/
abbrev Placement.Covers (pl : Placement) (c : Cursor) : Prop :=
  pl.outX ≤ c.x ∧ c.x < pl.outX + pl.outW ∧ pl.outY ≤ c.y ∧ c.y < pl.outY + pl.outRows

/-- A position of the panel (R28). -/
abbrev Cursor.InPanel (c : Cursor) (P : Params) : Prop := c.x < P.panelW ∧ c.y < P.panelH

/-- `PANEL[c.y][c.x]` (R28). -/
def State.panelAt (s : State) (c : Cursor) : Colour := s.drv.panel.pix.read (pixelAddr s.cfg c.y c.x)

/-- `FB[b][c.y][c.x]` (R25). -/
def State.bufferAt (s : State) (b : BufId) (c : Cursor) : Colour := (s.drv.fb b).read (pixelAddr s.cfg c.y c.x)

/-- Unit `j` of the source of the transfer the DMA registers name (R134). -/
def State.sourceUnit (s : State) (j : Nat) : Colour :=
  (s.drv.source s.drv.dma.src).read (sourceAddr s.cfg s.drv.dma.src j)

/-- While a transfer is in flight the window's positions already passed hold the source's units (R147). -/
abbrev State.TransferDelivered (s : State) : Prop :=
  s.dmaInFlight = true → ∀ j < s.drv.dma.pos, s.panelAt (s.drv.panel.win.cell j) = s.sourceUnit j

/-- No configuration element has been written while a line was in flight (R59, R198). -/
abbrev State.RaceFree (s : State) : Prop := s.env.races = []

/-- The next turn is `t`'s, by the schedule, and the parameters are ones the machine runs with. -/
abbrev State.TurnIs (s : State) (t : Turn) (rest : List Turn) : Prop :=
  s.env.sched = t :: rest ∧ s.cfg.legal = true ∧ s.cfg.debugSetPixel = false

/-- `s` with the schedule `ts`. -/
def State.withSched (s : State) (ts : List Turn) : State := { s with env := { s.env with sched := ts } }

/-- `s` with the producer program `p`. -/
def State.withProg (s : State) (p : List ProgItem) : State := { s with env := { s.env with prog := p } }

/-- `r` is the run of the machine whose turns are `σ 0, σ 1, …`: in every state the step that gives the turn to the
agent the schedule names answers the next state (R52). A schedule is a term of the claims, not state (R30). -/
def IsRun (σ : Nat → Turn) (r : Nat → State) : Prop := ∀ n, step ((r n).withSched [σ n]) = .next (r (n + 1))

/-- Weak fairness of each of `PROD`, `CONS` and `DMA` along a run (R207): an agent whose step stays enabled is
eventually scheduled, so from every point on there is a turn of the agent or a state in which it has no enabled
step. It is an assumption about the platform: a liveness claim carries it as a hypothesis (U7, log entry 20). -/
def WeaklyFair (σ : Nat → Turn) (r : Nat → State) : Prop :=
  ∀ a, a ≠ Turn.reset → ∀ n, ∃ m, n ≤ m ∧ (σ m = a ∨ (r m).enabled a = false)

/-- `n` meanings of the same command one after another, the consumer alone moving: how a command's phases
follow each other (R84, R86). -/
def execPhases (i : Instr) : Nat → State → Host.Outcome State Fault Refusal
  | 0, s => .next s
  | n + 1, s =>
    match exec i s with
    | .next t => execPhases i n t
    | .fault r => .fault r
    | .refused r => .refused r

/-- `n` turns of the DMA engine one after another (R134, R135). -/
def dmaTurns : Nat → State → Host.Outcome State Fault Refusal
  | 0, s => .next s
  | n + 1, s =>
    match dmaTurn s with
    | .next t => dmaTurns n t
    | .fault r => .fault r
    | .refused r => .refused r

end Sys2Proof.Machine
end

