-- ==== Sys2Proof/Certificates/Slice0/Obligations.lean ====
section
/-! DEFINITION. The statements for the provers, in the order of the spec's files. Where a statement rests on a
choice of the model (a log entry) its docstring says so. -/

open Sys2Proof Sys2Proof.Machine

/-! ### 30_encoding.md -/

/-- R62, R63, R41: every command decodes from its word, and from its four bytes with any bytes after them.
That NOP keeps its ignored payload is the model's choice (log entry 15). -/
def Obligations.DecodeOfEncodeGivesTheCommand : Prop :=
  ∀ i : Instr, decode (encode i) = .command i ∧
    ∀ rest : List Byte, decodeBytes (bytesOfWord (encode i) ++ rest) = .ok (i, rest)

/-- R62, R63, R66: encoding what was decoded gives the word back with the reserved bytes zero, and nothing
else lost. That a NOP's bits 31..24 come back too, which R63 ignores, is the model's choice (log entry 15); that
the reserved bytes are ignored is the spec's decision D3. -/
def Obligations.EncodeOfDecodeZeroesOnlyReservedBytes : Prop :=
  ∀ w : Word, (∀ i, decode w = .command i → encode i = w &&& 0xFF0000FF#32) ∧
    (∀ t d, decode w = .reserved t d → encodeWord t d = w &&& 0xFF0000FF#32 ∧ 4 ≤ t.toNat)

/-- R63: the decoder's rows by mask and match, the reserved tags, and that bits 23..8 take no part (the spec's
decision D3). That the NOP of the first clause carries the payload, which R63 and R65 ignore, is the model's choice
(log entry 15). -/
def Obligations.DecodeFollowsTheTagAndIgnoresReservedBytes : Prop :=
  ∀ w : Word,
    (w &&& 0x000000FF#32 = 0x00000000#32 → decode w = .command (.nop (dataOf w))) ∧
    (w &&& 0x000000FF#32 = 0x00000001#32 → decode w = .command (.lcdLine (dataOf w))) ∧
    (w &&& 0x000000FF#32 = 0x00000002#32 → decode w = .command (.idleSet (dataOf w))) ∧
    (w &&& 0x000000FF#32 = 0x00000003#32 → decode w = .command (.setPixel (dataOf w))) ∧
    (4 ≤ (w &&& 0x000000FF#32).toNat → decode w = .reserved (tagOf w) (dataOf w)) ∧
    (tagOf w).toNat = w.toNat % 256 ∧ (dataOf w).toNat = w.toNat / 2 ^ 24 ∧
    ∀ w' : Word, w &&& 0xFF0000FF#32 = w' &&& 0xFF0000FF#32 → decode w = decode w'

/-- R74: the worked encodings and decodings. -/
def Obligations.WorkedEncodingsAndDecodings : Prop :=
  encode (.nop 0) = 0x00000000#32 ∧ bytesOfWord 0x00000000#32 = [0x00, 0x00, 0x00, 0x00] ∧
  encode (.lcdLine 0) = 0x00000001#32 ∧ bytesOfWord 0x00000001#32 = [0x01, 0x00, 0x00, 0x00] ∧
  encode (.lcdLine 5) = 0x05000001#32 ∧ bytesOfWord 0x05000001#32 = [0x01, 0x00, 0x00, 0x05] ∧
  encode (.lcdLine 143) = 0x8F000001#32 ∧ bytesOfWord 0x8F000001#32 = [0x01, 0x00, 0x00, 0x8F] ∧
  encode (.idleSet 0) = 0x00000002#32 ∧ bytesOfWord 0x00000002#32 = [0x02, 0x00, 0x00, 0x00] ∧
  encode (.idleSet 1) = 0x01000002#32 ∧ bytesOfWord 0x01000002#32 = [0x02, 0x00, 0x00, 0x01] ∧
  encode (.setPixel 0) = 0x00000003#32 ∧ encodeWord 3 0 = 0x00000003#32 ∧
  bytesOfWord 0x00000003#32 = [0x03, 0x00, 0x00, 0x00] ∧
  encodeWord 255 255 = 0xFF0000FF#32 ∧ bytesOfWord 0xFF0000FF#32 = [0xFF, 0x00, 0x00, 0xFF] ∧
  decode 0x05ABCD01#32 = .command (.lcdLine 5) ∧ decode 0x00000104#32 = .reserved 4 0

/-! ### 40_channel.md: the producer's enqueue -/

/-- R76: an accepted `ENQUEUE` latches the word, and for an LCD_LINE the PixelLine, and moves to `P_WAIT`;
nothing else of the block changes. -/
def Obligations.EnqueueLatchesWordAndLine : Prop :=
  ∀ (s : State) (rest : List Turn) (tag data : Byte) (codes : List Byte) (more : List ProgItem),
    s.TurnIs .prod rest → s.Canonical → s.prod.pphase = .idle → s.env.prog = .op (.enqueue tag data codes) :: more →
    (tag = 1#8 → codes.length = s.cfg.srcW) →
    ∃ t, step s = .next t ∧ t.prod.pphase = .wait ∧ t.prod.pcmd.toNat = data.toNat * 2 ^ 24 + tag.toNat ∧
      (∀ x (h : x < codes.length), tag = 1#8 → t.prod.pline.read x = codes[x]) ∧
      (tag ≠ 1#8 → t.prod.pline = s.prod.pline) ∧
      t.cfg = s.cfg ∧ t.chan = s.chan ∧ t.cons = s.cons ∧ t.regs = s.regs ∧ t.drv = s.drv ∧
      t.env = { s.env with sched := rest, prog := more }

/-- R78: `P_COPY` copies every element of `PLINE` to `STG` and moves to `P_MARK`; nothing else changes. -/
def Obligations.CopyPhaseFillsTheStagingBuffer : Prop :=
  ∀ (s : State) (rest : List Turn), s.TurnIs .prod rest → s.Canonical → s.prod.pphase = .copy →
    ∃ t, step s = .next t ∧ (∀ x < s.cfg.srcW, t.chan.stg.read x = s.prod.pline.read x) ∧
      (∀ a, s.cfg.srcW ≤ a → t.chan.stg.read a = s.chan.stg.read a) ∧
      t = { s with
        chan := { s.chan with stg := t.chan.stg }
        prod := { s.prod with pphase := .mark }
        env := { s.env with sched := rest } }

/-- R77, R79, R80: `P_WAIT` spins while `BUSY = 1`, for every tag; then an LCD_LINE goes to `P_COPY` and every other
word straight to `P_PUSH` (the spec's decision D2). `P_MARK` stores 1 to `BUSY`; `P_PUSH` appends the word and
returns, or waits on a full queue (D1). -/
def Obligations.WaitMarkAndPushPhases : Prop :=
  ∀ (s : State) (rest : List Turn), s.TurnIs .prod rest →
    (s.prod.pphase = .wait →
      (s.chan.busy = true → step s = .next (s.withSched rest)) ∧
      (s.chan.busy = false → tagOf s.prod.pcmd = 1#8 → step s = .next ((s.withSched rest).toPPhase .copy)) ∧
      (s.chan.busy = false → tagOf s.prod.pcmd ≠ 1#8 → step s = .next ((s.withSched rest).toPPhase .push))) ∧
    (s.prod.pphase = .mark → step s = .next { s with
        chan := { s.chan with busy := true }
        prod := { s.prod with pphase := .push }
        env := { s.env with sched := rest } }) ∧
    (s.prod.pphase = .push → s.chan.q.length < s.cfg.fifoDepth → step s = .next { s with
        chan := { s.chan with q := s.chan.q ++ [s.prod.pcmd] }
        prod := { s.prod with pphase := .idle }
        env := { s.env with sched := rest } }) ∧
    (s.prod.pphase = .push → s.cfg.fifoDepth ≤ s.chan.q.length → step s = .next (s.withSched rest))

/-- R80: with a queue of one word, a push can find the queue full only behind a word that is no LCD_LINE. -/
def Obligations.FullQueueAtPushHoldsNoLine : Prop :=
  ∀ (s : State) (w : Word), s.ChannelInv → s.prod.pphase = .push → s.chan.q = [w] → isLine w = false

/-- R76, R81: an `ENQUEUE` of an LCD_LINE alone, five producer steps from an idle port with `BUSY = 0` and room in
the queue: the word and the line are in `PCMD` and `PLINE`, the line is in `STG`, `BUSY = 1`, the word at the end of
`Q`, the port idle again, and everything else as before. -/
def Obligations.EnqueueOfALineEndToEnd : Prop :=
  ∀ (s : State) (rest : List Turn) (n : Byte) (codes : List Byte) (more : List ProgItem),
    s.TurnIs .prod (.prod :: .prod :: .prod :: .prod :: rest) → s.Canonical → s.prod.pphase = .idle →
    s.chan.busy = false → s.chan.q.length < s.cfg.fifoDepth → s.env.prog = enqLine n codes :: more →
    codes.length = s.cfg.srcW →
    ∃ t, Host.Core.run Sys2Proof.core 5 s = .next t ∧ t.chan.busy = true ∧
      t.chan.q = s.chan.q ++ [encode (.lcdLine n)] ∧ t.prod.pphase = .idle ∧ t.prod.pcmd = encode (.lcdLine n) ∧
      (∀ x (h : x < codes.length), t.prod.pline.read x = codes[x] ∧ t.chan.stg.read x = codes[x]) ∧
      (∀ a, s.cfg.srcW ≤ a → t.prod.pline.read a = s.prod.pline.read a ∧ t.chan.stg.read a = s.chan.stg.read a) ∧
      t.cfg = s.cfg ∧ t.cons = s.cons ∧ t.regs = s.regs ∧ t.drv = s.drv ∧
      t.env = { s.env with sched := rest, prog := more }

/-- R96: while a line is in flight no step but the reset input changes `STG`, and a second `ENQUEUE` stays in
`P_WAIT`. -/
def Obligations.BackpressureProtectsTheLineInFlight : Prop :=
  ∀ s t : State, s.ChannelInv → s.chan.busy = true → s.turn ≠ .reset → step s = .next t →
    t.chan.stg = s.chan.stg ∧ (s.prod.pphase = .wait → t.prod.pphase = .wait ∧ t.prod.pcmd = s.prod.pcmd) ∧
    (t.chan.busy = false → s.turn = .cons ∧ s.cons.cphase = .ack)

/-! ### 40_channel.md: the consumer and the commands -/

/-- R82: `C_POP` moves the oldest word to `CMD`, and waits on an empty queue. -/
def Obligations.PopTakesTheOldestWord : Prop :=
  ∀ (s : State) (rest : List Turn), s.TurnIs .cons rest → s.cons.cphase = .pop →
    (∀ w ws, s.chan.q = w :: ws → step s = .next { s with
        chan := { s.chan with q := ws }
        cons := { s.cons with cmd := w, cphase := .dispatch }
        env := { s.env with sched := rest } }) ∧
    (s.chan.q = [] → step s = .next (s.withSched rest))

/-- R83: `C_DISPATCH` moves `cphase` by what `CMD` decodes to and, for an LCD_LINE, by whether its index is below
`SRC_H`; nothing else of the block changes. The clauses for an index not below `SRC_H`, for SET_PIXEL and for the
reserved tags rest on log entry 10 (the spec's decisions D5 and D4). -/
def Obligations.DispatchFollowsTheTag : Prop :=
  ∀ (s : State) (rest : List Turn), s.TurnIs .cons rest → s.cons.cphase = .dispatch →
    let moved (c : CPhase) : State :=
      { s with cons := { s.cons with cphase := c }, env := { s.env with sched := rest } }
    (∀ d, decode s.cons.cmd = .command (.nop d) → step s = .next (moved .pop)) ∧
    (∀ n, decode s.cons.cmd = .command (.lcdLine n) → n.toNat < s.cfg.srcH → step s = .next (moved .resolve)) ∧
    (∀ n, decode s.cons.cmd = .command (.lcdLine n) → s.cfg.srcH ≤ n.toNat → step s = .next (moved .ack)) ∧
    (∀ m, decode s.cons.cmd = .command (.idleSet m) → step s = .next (moved .idle)) ∧
    (∀ d, decode s.cons.cmd = .command (.setPixel d) → step s = .next (moved .pop)) ∧
    (∀ t d, decode s.cons.cmd = .reserved t d → step s = .next (moved .pop))

/-- R83: past `C_POP` a consumer step is the meaning of the command in `CMD`, with the turn taken. That the
meaning answers for one phase at a time is the model's form (log entry 13). -/
def Obligations.StepRunsTheCommandInCmd : Prop :=
  ∀ (s : State) (rest : List Turn), s.TurnIs .cons rest → s.cons.cphase ≠ .pop →
    (∀ i, decode s.cons.cmd = .command i → step s = exec i (s.withSched rest)) ∧
    (∀ t d, decode s.cons.cmd = .reserved t d → step s = execReserved t d (s.withSched rest))

/-- R84: `cphase` moves only along the edges of the graph, one per step; the reset input puts it at `C_POP`. -/
def Obligations.ConsumerPhaseMovesOnlyAlongTheGraph : Prop :=
  ∀ s t : State, step s = .next t → t.cons.cphase = s.cons.cphase ∨
    (s.turn = .reset ∧ t.cons.cphase = .pop) ∨
    (s.turn = .cons ∧
      ((s.cons.cphase = .pop ∧ t.cons.cphase = .dispatch ∧ s.chan.q ≠ []) ∨
       (s.cons.cphase = .dispatch ∧ t.cons.cphase ∈ [CPhase.pop, .resolve, .ack, .idle]) ∨
       (s.cons.cphase = .resolve ∧ t.cons.cphase = .layout) ∨
       (s.cons.cphase = .layout ∧ t.cons.cphase = .push) ∨
       (s.cons.cphase = .push ∧ t.cons.cphase ∈ [CPhase.frame, .ack]) ∨
       (s.cons.cphase = .frame ∧ t.cons.cphase = .ack) ∨
       (s.cons.cphase = .ack ∧ t.cons.cphase = .pop) ∨
       (s.cons.cphase = .idle ∧ t.cons.cphase = .pop ∧ s.dmaInFlight = false)))

/-- R85: NOP. Its meaning only returns to `C_POP`; popped and dispatched in two consumer steps it writes `CMD`
and `cphase` and nothing else. -/
def Obligations.NopHasNoEffect : Prop :=
  (∀ (s : State) (d : Byte), s.cons.cphase = .dispatch → exec (.nop d) s = .next (s.toPhase .pop)) ∧
  ∀ (s : State) (rest : List Turn) (w : Word) (ws : List Word),
    s.TurnIs .cons (.cons :: rest) → s.cons.cphase = .pop → s.chan.q = w :: ws → tagOf w = 0#8 →
    Host.Core.run Sys2Proof.core 2 s = .next { s with
      chan := { s.chan with q := ws }
      cons := { s.cons with cmd := w, cphase := .pop }
      env := { s.env with sched := rest } }

/-- R93, R94: SET_PIXEL with `DEBUG_SET_PIXEL = false` and every reserved tag are popped and discarded; with
`DEBUG_SET_PIXEL = true` SET_PIXEL is refused (R68). -/
def Obligations.SetPixelAndReservedTagsAreDiscarded : Prop :=
  (∀ (s : State) (d : Byte), s.cons.cphase = .dispatch → s.cfg.debugSetPixel = false →
    exec (.setPixel d) s = .next (s.toPhase .pop)) ∧
  (∀ (s : State) (d : Byte), s.cfg.debugSetPixel = true → exec (.setPixel d) s = .refused .debugSetPixelUnspecified) ∧
  ∀ (s : State) (rest : List Turn) (w : Word) (ws : List Word),
    s.TurnIs .cons (.cons :: rest) → s.cons.cphase = .pop → s.chan.q = w :: ws → 3 ≤ (tagOf w).toNat →
    Host.Core.run Sys2Proof.core 2 s = .next { s with
      chan := { s.chan with q := ws }
      cons := { s.cons with cmd := w, cphase := .pop }
      env := { s.env with sched := rest } }

/-- R87: an LCD_LINE whose index is not below `SRC_H` draws nothing and is acknowledged. -/
def Obligations.LineOutsideTheFrameIsOnlyAcknowledged : Prop :=
  ∀ (s : State) (n : Byte), s.cons.cphase = .dispatch → s.cfg.srcH ≤ n.toNat →
    execPhases (.lcdLine n) 2 s = .next { s with
      chan := { s.chan with busy := false }
      cons := { s.cons with cphase := .pop }
      env := { s.env with races := [] } }

/-- R89: `C_ACK` stores 0 to `BUSY` and returns to `C_POP`. That the model's record of racing writes ends there
is log entry 8. -/
def Obligations.AckClearsBusy : Prop :=
  ∀ (s : State) (n : Byte), s.cons.cphase = .ack → exec (.lcdLine n) s = .next { s with
    chan := { s.chan with busy := false }
    cons := { s.cons with cphase := .pop }
    env := { s.env with races := [] } }

/-- R91, R145: IDLE_SET, from dispatch, with no transfer in flight: `IDLE_MODE` latched, every element of the
panel and of every framebuffer there is equal to `bs(CLEAR_COLOUR)`, everything else as before; and `C_IDLE`
waits while a transfer is in flight. -/
def Obligations.IdleSetLatchesTheModeAndClearsTheDisplay : Prop :=
  (∀ (s : State) (m : Byte), s.cons.cphase = .dispatch → exec (.idleSet m) s = .next (s.toPhase .idle)) ∧
  (∀ (s : State) (m : Byte), s.cfg.legal = true → s.Canonical → s.cons.cphase = .idle → s.dmaInFlight = false →
    ∃ t, exec (.idleSet m) s = .next t ∧ t.drv.idleMode = m ∧
      (∀ c : Cursor, c.InPanel s.cfg → t.panelAt c = bs s.cfg s.cfg.clearColour) ∧
      (s.cfg.driverMode = .framebuffered → ∀ c : Cursor, c.InPanel s.cfg →
        t.bufferAt .zero c = bs s.cfg s.cfg.clearColour) ∧
      (s.cfg.driverMode = .framebuffered → s.cfg.fbCount = 2 → ∀ c : Cursor, c.InPanel s.cfg →
        t.bufferAt .one c = bs s.cfg s.cfg.clearColour) ∧
      (s.cfg.driverMode = .direct → t.drv.fb0 = s.drv.fb0 ∧ t.drv.fb1 = s.drv.fb1) ∧
      (s.cfg.fbCount = 1 → t.drv.fb1 = s.drv.fb1) ∧
      t.drv.panel.win = ⟨0, 0, s.cfg.panelW - 1, s.cfg.panelH - 1⟩ ∧ t.drv.panel.cur = ⟨0, 0⟩ ∧
      t.drv.xbuf = s.drv.xbuf ∧ t.drv.fbWr = s.drv.fbWr ∧ t.drv.dma = s.drv.dma ∧
      t.cons = { s.cons with cphase := .pop } ∧ t.cfg = s.cfg ∧ t.chan = s.chan ∧ t.prod = s.prod ∧
      t.regs = s.regs ∧ t.env = s.env) ∧
  (∀ (s : State) (m : Byte), s.cons.cphase = .idle → s.dmaInFlight = true → exec (.idleSet m) s = .next s)

/-- R86 in the configuration DIRECT without DMA: an LCD_LINE whose index is below `SRC_H`, from dispatch, takes
five consumer steps and ends with every copy of every resolved pixel in its panel position, every other panel
element as before, and `BUSY = 0`. The colours are the ones the resolution gives in the starting state. -/
def Obligations.DirectLineIsDrawnAndAcknowledged : Prop :=
  ∀ (s : State) (n : Byte), s.cfg.legal = true → s.cfg.driverMode = .direct → s.cfg.useDma = false →
    s.Canonical → s.RaceFree → s.cons.cphase = .dispatch → n.toNat < s.cfg.srcH →
    ∃ t, execPhases (.lcdLine n) 5 s = .next t ∧ t.chan = { s.chan with busy := false } ∧
      t.cons.cphase = .pop ∧ t.cons.cmd = s.cons.cmd ∧ t.cfg = s.cfg ∧ t.prod = s.prod ∧ t.regs = s.regs ∧
      t.drv = { s.drv with panel := t.drv.panel } ∧
      t.env.prog = s.env.prog ∧ t.env.sched = s.env.sched ∧
      (∀ r < 1 + vrep s.regs.scale n.toNat, ∀ x < s.cfg.srcW, ∀ k ∈ copiesOf s.regs.scale x,
        t.panelAt ⟨(placementOf s.cfg s.regs.scale n.toNat).outX + k, yoff s.cfg s.regs.scale n.toNat + r⟩
          = bs s.cfg (resolvePixel s x)) ∧
      (∀ c : Cursor, c.InPanel s.cfg → ¬ (placementOf s.cfg s.regs.scale n.toNat).Covers c →
        t.panelAt c = s.panelAt c)

/-- R86 in the configuration FRAMEBUFFERED without DMA: a line that does not end the frame takes five consumer
steps and changes the writable buffer only; the last line takes six, loads the whole buffer into the panel and
swaps the buffers when there are two (the spec's decisions D19 and D20). -/
def Obligations.FramebufferedLineIsComposedAndAcknowledged : Prop :=
  ∀ (s : State) (n : Byte), s.cfg.legal = true → s.cfg.driverMode = .framebuffered → s.cfg.useDma = false →
    s.Canonical → s.RaceFree → s.cons.cphase = .dispatch → n.toNat < s.cfg.srcH →
    ∃ t, execPhases (.lcdLine n) (if n.toNat + 1 = s.cfg.srcH then 6 else 5) s = .next t ∧
      t.chan = { s.chan with busy := false } ∧ t.cons.cphase = .pop ∧ t.cfg = s.cfg ∧ t.prod = s.prod ∧
      t.regs = s.regs ∧ t.drv.idleMode = s.drv.idleMode ∧ t.drv.xbuf = s.drv.xbuf ∧ t.drv.dma = s.drv.dma ∧
      t.drv.fb s.drv.fbWr.other = s.drv.fb s.drv.fbWr.other ∧
      (∀ r < 1 + vrep s.regs.scale n.toNat, ∀ x < s.cfg.srcW, ∀ k ∈ copiesOf s.regs.scale x,
        t.bufferAt s.drv.fbWr
            ⟨(placementOf s.cfg s.regs.scale n.toNat).outX + k, yoff s.cfg s.regs.scale n.toNat + r⟩
          = bs s.cfg (resolvePixel s x)) ∧
      (∀ c : Cursor, c.InPanel s.cfg → ¬ (placementOf s.cfg s.regs.scale n.toNat).Covers c →
        t.bufferAt s.drv.fbWr c = s.bufferAt s.drv.fbWr c) ∧
      (n.toNat + 1 ≠ s.cfg.srcH → t.drv.panel = s.drv.panel ∧ t.drv.fbWr = s.drv.fbWr) ∧
      (n.toNat + 1 = s.cfg.srcH →
        (∀ c : Cursor, c.InPanel s.cfg → t.panelAt c = t.bufferAt s.drv.fbWr c) ∧
        t.drv.fbWr = if s.cfg.fbCount = 2 then s.drv.fbWr.other else s.drv.fbWr)

/-- R92: the in-flight invariant is kept by every step of every agent and by the reset input, from every state
that meets it. -/
def Obligations.StepKeepsTheInFlightInvariant : Prop :=
  ∀ s t : State, s.ChannelInv → step s = .next t → t.ChannelInv

/-- R92's consequences: never more than one LCD_LINE in flight, `BUSY` says whether there is one, and `P_COPY`
overlaps neither a line in flight nor a `C_RESOLVE`. -/
def Obligations.AtMostOneLineInFlight : Prop :=
  ∀ s : State, s.ChannelInv → s.linesInFlight ≤ 1 ∧ (s.chan.busy = true ↔ s.linesInFlight = 1) ∧
    (s.prod.pphase = .copy → s.chan.busy = false ∧ s.cons.cphase ≠ .resolve ∧ ∀ w ∈ s.chan.q, isLine w = false)

/-! ### 41_compositor.md -/

/-- R101, R102: with no race, the base-scheme lookup of a code whose selector is 0, 1 or 2 is that element of
the Palette; bits 7, 6, 3, 2 of the code are ignored. Selector 3 gives a free value, named in log entry 7. -/
def Obligations.LutReadsThePaletteBySelectorAndShade : Prop :=
  ∀ (s : State) (x : Nat) (c : Byte), s.RaceFree →
    (c.toNat / 16 % 4 = 0 → lut s x c = s.regs.pal.get .object0 (pixelShade c)) ∧
    (c.toNat / 16 % 4 = 1 → lut s x c = s.regs.pal.get .object1 (pixelShade c)) ∧
    (c.toNat / 16 % 4 = 2 → lut s x c = s.regs.pal.get .background (pixelShade c)) ∧
    (pixelShade c).toNat = c.toNat % 4 ∧
    (∀ c' : Byte, c &&& 0x33#8 = c' &&& 0x33#8 → lut s x c = lut s x c')

/-- R103, R118: `C_RESOLVE` with no race: every column's code through the Palette lookup, or with `ECM_EN = 1`
through entry `c mod ECM_N` of the enhanced-colour table; nothing else of the block changes. -/
def Obligations.ResolvePhaseFillsTheLineBuffer : Prop :=
  ∀ (s : State) (n : Byte), s.Canonical → s.RaceFree → s.cons.cphase = .resolve →
    ∃ t, exec (.lcdLine n) s = .next t ∧
      (∀ x < s.cfg.srcW, t.cons.linebuf.read x =
        if s.cfg.ecmSupport = true ∧ s.regs.ecmEn = true then
          s.regs.ecmTab.read ((s.chan.stg.read x).toNat % s.cfg.ecmN)
        else lut s x (s.chan.stg.read x)) ∧
      (∀ a, s.cfg.srcW ≤ a → t.cons.linebuf.read a = s.cons.linebuf.read a) ∧
      t.cons = { s.cons with linebuf := t.cons.linebuf, cphase := .layout } ∧
      t.cfg = s.cfg ∧ t.chan = s.chan ∧ t.prod = s.prod ∧ t.regs = s.regs ∧ t.drv = s.drv ∧
      t.env = { s.env with draws := t.env.draws }

/-- R104: the repeat predicate, its period of six, and that `OUT_H` counts the repeated lines. -/
def Obligations.RepeatPredicateAndStretchedHeight : Prop :=
  (∀ i, (rep i = 1 ↔ i % 2 = 1 ∨ i % 6 = 0) ∧ (rep i = 0 ∨ rep i = 1) ∧ rep (i + 6) = rep i) ∧
  [0, 1, 2, 3, 4, 5].map rep = [1, 1, 0, 1, 0, 1] ∧
  ∀ P : Params, outH P = P.srcH + ((List.range P.srcH).filter fun i => rep i = 1).length

/-- R105: the horizontal table, and that the scaled line is between one and two times as wide. -/
def Obligations.HorizontalTableAndScaledWidth : Prop :=
  xoff 0 = 0 ∧ (∀ x, xoff (x + 1) = xoff x + 1 + rep x) ∧
  (∀ P : Params, kaW P = xoff P.srcW ∧ P.srcW ≤ kaW P ∧ kaW P ≤ 2 * P.srcW ∧
    kaW P = P.srcW + ((List.range P.srcW).filter fun x => rep x = 1).length) ∧
  kaW .default = 267 ∧ (List.range 14).map xoff = [0, 2, 4, 5, 7, 8, 10, 12, 14, 15, 17, 18, 20, 22]

/-- R106: the vertical table; it ends at the bottom of the frame, inside the panel. -/
def Obligations.VerticalTableStaysInsideThePanel : Prop :=
  ∀ P : Params, P.legal = true → ∀ m : ScalingMode,
    yoff P m 0 = (P.panelH - hgt P m) / 2 ∧ (∀ i, yoff P m (i + 1) = yoff P m i + 1 + vrep m i) ∧
    (∀ i, yoff P .normal i = ybase P .normal + i) ∧
    yoff P m P.srcH = ybase P m + hgt P m ∧ yoff P m P.srcH ≤ P.panelH

/-- R107 to R110: `C_LAYOUT` with no race: the four placement registers of the mode, every copy of every source
pixel in `OUTBUF`, the elements of `OUTBUF` from `OUT_W` on as before, and nothing else changed. The centring of
`OUT_X` is the spec's decision D13; a racing read of `SCALE` is log entry 9. -/
def Obligations.LayoutPhasePlacesEveryPixel : Prop :=
  ∀ (s : State) (n : Byte), s.Canonical → s.RaceFree → s.cons.cphase = .layout →
    ∃ t, exec (.lcdLine n) s = .next t ∧
      t.cons.place.outW = (match s.regs.scale with
        | .normal => s.cfg.srcW | .stretch => 2 * s.cfg.srcW | .keepAspect => kaW s.cfg) ∧
      t.cons.place.outX = (s.cfg.panelW - t.cons.place.outW) / 2 ∧
      t.cons.place.outY = yoff s.cfg s.regs.scale n.toNat ∧
      t.cons.place.outRows = 1 + vrep s.regs.scale n.toNat ∧
      (∀ x < s.cfg.srcW, ∀ k ∈ copiesOf s.regs.scale x, t.cons.outbuf.read k = s.cons.linebuf.read x) ∧
      (∀ a, t.cons.place.outW ≤ a → t.cons.outbuf.read a = s.cons.outbuf.read a) ∧
      t.cons = { s.cons with outbuf := t.cons.outbuf, place := t.cons.place, cphase := .push } ∧
      t.cfg = s.cfg ∧ t.chan = s.chan ∧ t.prod = s.prod ∧ t.regs = s.regs ∧ t.drv = s.drv ∧
      t.env = { s.env with draws := t.env.draws }

/-- R111: in every mode the output columns are exactly the copies of the source columns, each source column
once or twice, in order. -/
def Obligations.LayoutIsAnOrderedIntegerZoom : Prop :=
  ∀ (P : Params) (m : ScalingMode),
    P.srcW ≤ outWidth P m ∧ outWidth P m ≤ 2 * P.srcW ∧
    (∀ x < P.srcW, (copiesOf m x).length = 1 ∨ (copiesOf m x).length = 2) ∧
    (∀ k, k < outWidth P m ↔ ∃ x < P.srcW, k ∈ copiesOf m x) ∧
    (∀ x y k l, k ∈ copiesOf m x → l ∈ copiesOf m y → k ≤ l → x ≤ y) ∧
    (∀ n, (placementOf P m n).outRows = 1 ∨ (placementOf P m n).outRows = 2)

/-- R113: the placed line lies inside the panel, for every legal parameter set, mode and line of the frame. -/
def Obligations.PlacedLineLiesInsideThePanel : Prop :=
  ∀ (P : Params) (m : ScalingMode) (n : Nat), P.legal = true → n < P.srcH →
    (placementOf P m n).outX + (placementOf P m n).outW ≤ P.panelW ∧
    (placementOf P m n).outY + (placementOf P m n).outRows ≤ P.panelH

/-! ### 42_display_driver.md -/

/-- R127, R128: setting the window puts the cursor at its origin and writes no pixel; a write stores at the
cursor, leaves every other element alone and moves the cursor along the row, to the next row, or back. -/
def Obligations.PanelWindowAndWrite : Prop :=
  (∀ (p : Panel) (x0 y0 x1 y1 : Nat), (p.setWindow x0 y0 x1 y1).win = ⟨x0, y0, x1, y1⟩ ∧
    (p.setWindow x0 y0 x1 y1).cur = ⟨x0, y0⟩ ∧ (p.setWindow x0 y0 x1 y1).pix = p.pix) ∧
  (∀ (P : Params) (p : Panel) (u : Colour), p.pix.wf = true →
    (p.put P u).pix.read (pixelAddr P p.cur.y p.cur.x) = u ∧
    (∀ a, a ≠ pixelAddr P p.cur.y p.cur.x → (p.put P u).pix.read a = p.pix.read a) ∧
    (p.put P u).win = p.win ∧
    (p.cur.x < p.win.x1 → (p.put P u).cur = ⟨p.cur.x + 1, p.cur.y⟩) ∧
    (p.win.x1 ≤ p.cur.x → p.cur.y < p.win.y1 → (p.put P u).cur = ⟨p.win.x0, p.cur.y + 1⟩) ∧
    (p.win.x1 ≤ p.cur.x → p.win.y1 ≤ p.cur.y → (p.put P u).cur = ⟨p.win.x0, p.win.y0⟩))

/-- R129: a stream of exactly the window's units fills the window row by row and changes nothing else; the
cursor is back at the origin. -/
def Obligations.StreamFillsTheWindow : Prop :=
  ∀ (P : Params) (p : Panel) (x0 y0 x1 y1 : Nat) (us : List Colour),
    x0 ≤ x1 → x1 < P.panelW → y0 ≤ y1 → y1 < P.panelH → p.pix.wf = true →
    us.length = (x1 - x0 + 1) * (y1 - y0 + 1) →
    let q := (p.setWindow x0 y0 x1 y1).stream P us
    (∀ r k (h : r * (x1 - x0 + 1) + k < us.length), k < x1 - x0 + 1 →
      q.pix.read (pixelAddr P (y0 + r) (x0 + k)) = us[r * (x1 - x0 + 1) + k]) ∧
    (∀ c : Cursor, c.InPanel P → ¬ (x0 ≤ c.x ∧ c.x ≤ x1 ∧ y0 ≤ c.y ∧ c.y ≤ y1) →
      q.pix.read (pixelAddr P c.y c.x) = p.pix.read (pixelAddr P c.y c.x)) ∧
    q.win = ⟨x0, y0, x1, y1⟩ ∧ q.cur = ⟨x0, y0⟩ ∧ q.pix.wf = true

/-- R130: the byte-order function exchanges the two bytes, or does nothing, and undoes itself. -/
def Obligations.ByteOrderFunctionIsAnInvolution : Prop :=
  ∀ (P : Params) (c : Colour), bs P (bs P c) = c ∧
    (P.swapBytes = true → (bs P c).toNat = c.toNat % 256 * 256 + c.toNat / 256) ∧
    (P.swapBytes = false → bs P c = c)

/-- R132: `push_direct` at `C_PUSH`: the placed line's panel elements, and only those, become the row's colours
through the byte order; the window is the line's and the cursor at its origin. -/
def Obligations.DirectPushPaintsExactlyThePlacedLine : Prop :=
  ∀ (s : State) (n : Byte), s.cfg.driverMode = .direct → s.cfg.useDma = false → s.Canonical →
    s.cons.cphase = .push → placementInside s = true →
    ∃ t, exec (.lcdLine n) s = .next t ∧
      (∀ r < s.cons.place.outRows, ∀ k < s.cons.place.outW,
        t.panelAt ⟨s.cons.place.outX + k, s.cons.place.outY + r⟩ = bs s.cfg (s.cons.outbuf.read k)) ∧
      (∀ c : Cursor, c.InPanel s.cfg → ¬ s.cons.place.Covers c → t.panelAt c = s.panelAt c) ∧
      t.drv.panel.win = ⟨s.cons.place.outX, s.cons.place.outY, s.cons.place.outX + s.cons.place.outW - 1,
        s.cons.place.outY + s.cons.place.outRows - 1⟩ ∧
      t.drv.panel.cur = ⟨s.cons.place.outX, s.cons.place.outY⟩ ∧
      t = { s with
        cons := { s.cons with cphase := .ack }
        drv := { s.drv with panel := t.drv.panel } }

/-- R133, R137: `push_direct_dma` at `C_PUSH` waits while a transfer is in flight; otherwise it copies the rows
into `XBUF`, sets the window and starts the transfer, and no pixel changes yet. -/
def Obligations.DmaPushCopiesAndStartsTheTransfer : Prop :=
  ∀ (s : State) (n : Byte), s.cfg.driverMode = .direct → s.cfg.useDma = true → s.cons.cphase = .push →
    (s.drv.dma.busy = true → exec (.lcdLine n) s = .next s) ∧
    (s.drv.dma.busy = false → s.Canonical → placementInside s = true →
      ∃ t, exec (.lcdLine n) s = .next t ∧
        (∀ r < s.cons.place.outRows, ∀ k < s.cons.place.outW,
          t.drv.xbuf.read (r * s.cons.place.outW + k) = bs s.cfg (s.cons.outbuf.read k)) ∧
        (∀ a, s.cons.place.outRows * s.cons.place.outW ≤ a → t.drv.xbuf.read a = s.drv.xbuf.read a) ∧
        t = { s with
          cons := { s.cons with cphase := .ack }
          drv := { s.drv with
            xbuf := t.drv.xbuf
            dma := { busy := true, src := .xbuf, len := s.cons.place.outRows * s.cons.place.outW, pos := 0 }
            panel := { s.drv.panel with
              win := ⟨s.cons.place.outX, s.cons.place.outY, s.cons.place.outX + s.cons.place.outW - 1,
                s.cons.place.outY + s.cons.place.outRows - 1⟩
              cur := ⟨s.cons.place.outX, s.cons.place.outY⟩ } } })

/-- R137: when the transfer that `push_direct_dma` starts has completed, after its `DMA_LEN` beats and one
completion step, the panel holds exactly what `push_direct` would have made of it. -/
def Obligations.CompletedDmaPushEqualsDirectPush : Prop :=
  ∀ (s : State) (n : Byte), s.cfg.driverMode = .direct → s.cfg.useDma = true → s.drv.dma.busy = false →
    s.Canonical → s.cons.cphase = .push → placementInside s = true →
    ∃ u t, exec (.lcdLine n) s = .next u ∧
      dmaTurns (s.cons.place.outRows * s.cons.place.outW + 1) u = .next t ∧
      t.drv.panel = (pushDirect s).drv.panel ∧ t.dmaInFlight = false

/-- R131, R136: `push_fb` at `C_PUSH` writes the placed line into the writable buffer and touches nothing else
of the driver; with one buffer it waits while a transfer is in flight; with two, a transfer in flight reads the
other buffer; the next phase is `C_FRAME` exactly for the last line. -/
def Obligations.FramebufferPushWritesTheWritableBuffer : Prop :=
  ∀ (s : State) (n : Byte), s.cfg.driverMode = .framebuffered → s.cons.cphase = .push →
    (s.cfg.fbCount = 1 → s.dmaInFlight = true → exec (.lcdLine n) s = .next s) ∧
    (¬ (s.cfg.fbCount = 1 ∧ s.dmaInFlight = true) → s.Canonical → s.Gated → placementInside s = true →
      ∃ t, exec (.lcdLine n) s = .next t ∧
        (∀ r < s.cons.place.outRows, ∀ k < s.cons.place.outW,
          t.bufferAt s.drv.fbWr ⟨s.cons.place.outX + k, s.cons.place.outY + r⟩ = bs s.cfg (s.cons.outbuf.read k)) ∧
        (∀ c : Cursor, c.InPanel s.cfg → ¬ s.cons.place.Covers c →
          t.bufferAt s.drv.fbWr c = s.bufferAt s.drv.fbWr c) ∧
        (s.dmaInFlight = true → s.cfg.fbCount = 2 → s.drv.dma.src ≠ .fb s.drv.fbWr) ∧
        t.drv = s.drv.setFb s.drv.fbWr (t.drv.fb s.drv.fbWr) ∧
        t = { s with
          cons := { s.cons with cphase := if n.toNat + 1 = s.cfg.srcH then .frame else .ack }
          drv := t.drv })

/-- R139, R141: `frame_push_blocking` loads the whole writable buffer into the panel, element for element, in one
step, and swaps the buffers when there are two. -/
def Obligations.BlockingFramePushLoadsTheWholeBuffer : Prop :=
  ∀ (s : State) (n : Byte), s.cfg.useDma = false → s.cfg.legal = true → s.Canonical → s.cons.cphase = .frame →
    ∃ t, exec (.lcdLine n) s = .next t ∧
      (∀ c : Cursor, c.InPanel s.cfg → t.panelAt c = s.bufferAt s.drv.fbWr c) ∧
      t.drv.panel.win = ⟨0, 0, s.cfg.panelW - 1, s.cfg.panelH - 1⟩ ∧ t.drv.panel.cur = ⟨0, 0⟩ ∧
      t = { s with
        cons := { s.cons with cphase := .ack }
        drv := { s.drv with
          panel := t.drv.panel
          fbWr := if s.cfg.fbCount = 2 then s.drv.fbWr.other else s.drv.fbWr } }

/-- R140, R144: `frame_push_dma` never waits: with a transfer in flight it changes nothing but the phase, neither
push nor swap; otherwise it sets the whole window, starts the transfer of the writable buffer and swaps. -/
def Obligations.DmaFramePushStartsOrSkips : Prop :=
  ∀ (s : State) (n : Byte), s.cfg.useDma = true → s.cons.cphase = .frame →
    (s.drv.dma.busy = true → exec (.lcdLine n) s = .next (s.toPhase .ack)) ∧
    (s.drv.dma.busy = false → exec (.lcdLine n) s = .next { s with
      cons := { s.cons with cphase := .ack }
      drv := { s.drv with
        fbWr := if s.cfg.fbCount = 2 then s.drv.fbWr.other else s.drv.fbWr
        dma := { busy := true, src := .fb s.drv.fbWr, len := s.cfg.panelN, pos := 0 }
        panel := { s.drv.panel with
          win := ⟨0, 0, s.cfg.panelW - 1, s.cfg.panelH - 1⟩
          cur := ⟨0, 0⟩ } } })

/-- R142: with one framebuffer and DMA a frame never ends while a transfer is in flight: the property is kept by
every step, so the missed-frame branch is never taken. -/
def Obligations.OneFramebufferNeverSkipsAFrame : Prop :=
  ∀ s t : State, s.OneBufferFrameFree → step s = .next t → t.OneBufferFrameFree

/-- R134, R135: a beat moves the unit at `DMA_POS`, read at that time, to the panel and counts it; with all units
moved the turn clears `DMA_BUSY`; a turn while no transfer is in flight changes nothing. -/
def Obligations.DmaBeatAndCompletion : Prop :=
  ∀ (s : State) (rest : List Turn), s.TurnIs .dma rest →
    (s.dmaInFlight = true → s.Sound → s.drv.dma.pos < s.drv.dma.len → step s = .next { s with
      drv := { s.drv with
        panel := s.drv.panel.put s.cfg (match s.drv.dma.src with
          | .xbuf => s.drv.xbuf.read s.drv.dma.pos
          | .fb b => s.bufferAt b ⟨s.drv.dma.pos % s.cfg.panelW, s.drv.dma.pos / s.cfg.panelW⟩)
        dma := { s.drv.dma with pos := s.drv.dma.pos + 1 } }
      env := { s.env with sched := rest } }) ∧
    (s.dmaInFlight = true → s.drv.dma.len ≤ s.drv.dma.pos → step s = .next { s with
      drv := { s.drv with dma := { s.drv.dma with busy := false } }
      env := { s.env with sched := rest } }) ∧
    (s.dmaInFlight = false → step s = .next (s.withSched rest))

/-- R135: a transfer in flight completes after the beats that are left and one completion step, and then every
position of its window holds its unit, provided those passed so far did (R147). -/
def Obligations.TransferCompletesAndDeliversItsSource : Prop :=
  ∀ s : State, s.Sound → s.Canonical → s.TransferDelivered → s.dmaInFlight = true →
    ∃ t, dmaTurns (s.drv.dma.len - s.drv.dma.pos + 1) s = .next t ∧ t.dmaInFlight = false ∧
      (∀ j < s.drv.dma.len, t.panelAt (s.drv.panel.win.cell j) = s.sourceUnit j) ∧
      t.cfg = s.cfg ∧ t.chan = s.chan ∧ t.prod = s.prod ∧ t.cons = s.cons ∧ t.regs = s.regs ∧ t.env = s.env ∧
      t.drv = { s.drv with dma := t.drv.dma, panel := t.drv.panel }

/-- R143: the gating invariant is kept by every step; and while a transfer is in flight no step of the consumer
writes the transfer's source, the panel, its window or cursor, or the DMA registers. -/
def Obligations.TransferInFlightGatesTheConsumer : Prop :=
  ∀ s t : State, s.Gated → step s = .next t → t.Gated ∧
    (s.dmaInFlight = true → s.turn = .cons →
      t.drv.panel = s.drv.panel ∧ t.drv.dma = s.drv.dma ∧
      t.drv.source s.drv.dma.src = s.drv.source s.drv.dma.src)

/-- R147: while a transfer is in flight the window's positions already passed hold the source's units; every step
keeps this. -/
def Obligations.StepKeepsTheDeliveredPrefix : Prop :=
  ∀ s t : State, s.Sound → s.Canonical → s.Gated → s.TransferDelivered → step s = .next t → t.TransferDelivered

/-! ### 43_config_port.md and the race rule of 20_memory.md -/

/-- R161 to R164: each configuration write with no line in flight changes its one element, takes one step, and
changes nothing else of the block; `CFG_SCALE(3)` changes nothing. -/
def Obligations.ConfigurationWritesChangeOneElement : Prop :=
  ∀ (s : State) (rest : List Turn) (more : List ProgItem), s.TurnIs .prod rest → s.prod.pphase = .idle →
    s.chan.busy = false →
    (∀ sub k c, s.env.prog = .op (.cfgPal sub k c) :: more →
      ∃ pal, step s = .next { s with
          regs := { s.regs with pal := pal }, env := { s.env with sched := rest, prog := more } } ∧
        ∀ sub' k', pal.get sub' k' = if sub' = sub ∧ k' = k then c else s.regs.pal.get sub' k') ∧
    (∀ m : BitVec 2, s.env.prog = .op (.cfgScale m) :: more →
      step s = .next { s with
        regs := { s.regs with scale :=
          if m = 0#2 then .normal else if m = 1#2 then .stretch
          else if m = 2#2 then .keepAspect else s.regs.scale }
        env := { s.env with sched := rest, prog := more } }) ∧
    (∀ e, s.cfg.ecmSupport = true → s.env.prog = .op (.cfgEcm e) :: more →
      step s = .next { s with
        regs := { s.regs with ecmEn := e }, env := { s.env with sched := rest, prog := more } }) ∧
    (∀ i c, s.cfg.ecmSupport = true → i < s.cfg.ecmN → s.regs.ecmTab.wf = true →
      s.env.prog = .op (.cfgEcmTab i c) :: more →
      ∃ tab, step s = .next { s with
          regs := { s.regs with ecmTab := tab }, env := { s.env with sched := rest, prog := more } } ∧
        tab.read i = c ∧ ∀ j, j ≠ i → tab.read j = s.regs.ecmTab.read j)

/-- R166: `STATUS()` returns `BUSY` and changes nothing of the block; `wait_idle` (R72) polls until it returns 0.
Where the returned value is kept is the model's choice (log entry 4). -/
def Obligations.StatusReturnsBusy : Prop :=
  ∀ (s : State) (rest : List Turn) (more : List ProgItem), s.TurnIs .prod rest → s.prod.pphase = .idle →
    (s.env.prog = .op .status :: more →
      step s = .next { s with env := { s.env with sched := rest, prog := more, statusRet := some s.chan.busy } }) ∧
    (s.env.prog = .waitIdle :: more → s.chan.busy = true →
      step s = .next { s with env := { s.env with sched := rest, statusRet := some true } }) ∧
    (s.env.prog = .waitIdle :: more → s.chan.busy = false →
      step s = .next { s with env := { s.env with sched := rest, prog := more, statusRet := some false } })

/-- R59, for `PAL`, `SCALE`, `ECM_EN` and `ECM_TAB`. A configuration write made while a line is in flight stores the
new value and records the old one beside those already recorded, and changes nothing else (`CFG_SCALE(3)` changes and
records nothing); the records stay until the
line's `C_ACK` or the reset input, only such writes adding to them. In every state each read of an element answers the
register or a recorded value of that element, so with nothing recorded for it the register; and the read picks
neither: for each of those values some choice gives it. Which choice a read makes is a free value, one per read
(log entry 8; the spec's decision D28). -/
def Obligations.RacingReadReturnsOldOrNew : Prop :=
  (∀ (s : State) (rest : List Turn) (more : List ProgItem), s.TurnIs .prod rest → s.prod.pphase = .idle →
    s.chan.busy = true →
    (∀ m mode, scaleOf m = some mode → s.env.prog = .op (.cfgScale m) :: more → step s = .next { s with
        regs := { s.regs with scale := mode }
        env := { s.env with sched := rest, prog := more, races := .scale s.regs.scale :: s.env.races } }) ∧
    (∀ m, scaleOf m = none → s.env.prog = .op (.cfgScale m) :: more → step s = .next { s with
        env := { s.env with sched := rest, prog := more } }) ∧
    (∀ sub k c, s.env.prog = .op (.cfgPal sub k c) :: more →
      ∃ pal, step s = .next { s with
          regs := { s.regs with pal := pal }
          env := { s.env with
            sched := rest, prog := more, races := .pal sub k (s.regs.pal.get sub k) :: s.env.races } } ∧
        ∀ sub' k', pal.get sub' k' = if sub' = sub ∧ k' = k then c else s.regs.pal.get sub' k') ∧
    (∀ e, s.cfg.ecmSupport = true → s.env.prog = .op (.cfgEcm e) :: more → step s = .next { s with
        regs := { s.regs with ecmEn := e }
        env := { s.env with sched := rest, prog := more, races := .ecmEn s.regs.ecmEn :: s.env.races } }) ∧
    (∀ i c, s.cfg.ecmSupport = true → i < s.cfg.ecmN → s.regs.ecmTab.wf = true →
      s.env.prog = .op (.cfgEcmTab i c) :: more →
      ∃ tab, step s = .next { s with
          regs := { s.regs with ecmTab := tab }
          env := { s.env with
            sched := rest, prog := more, races := .ecmTab i (s.regs.ecmTab.read i) :: s.env.races } } ∧
        tab.read i = c ∧ ∀ j, j ≠ i → tab.read j = s.regs.ecmTab.read j)) ∧
  (∀ s t : State, step s = .next t → s.turn ≠ .reset → ¬ (s.turn = .cons ∧ s.cons.cphase = .ack) →
    t.env.races = s.env.races ∨
      (s.turn = .prod ∧ s.chan.busy = true ∧ ∃ old, t.env.races = old :: s.env.races)) ∧
  (∀ (u : State) (r : Nat),
    (u.readScale r = u.regs.scale ∨ Race.scale (u.readScale r) ∈ u.env.races) ∧
    (∀ sub k, u.readPal sub k r = u.regs.pal.get sub k ∨ Race.pal sub k (u.readPal sub k r) ∈ u.env.races) ∧
    (u.cfg.ecmSupport = true → u.readEcmEn r = u.regs.ecmEn ∨ Race.ecmEn (u.readEcmEn r) ∈ u.env.races) ∧
    (u.cfg.ecmSupport = false → u.readEcmEn r = false) ∧
    (∀ i, u.readEcmTab i r = u.regs.ecmTab.read i ∨ Race.ecmTab i (u.readEcmTab i r) ∈ u.env.races)) ∧
  (∀ (α : Type) (now : α) (olds : List α) (v : α), (v = now ∨ v ∈ olds) ↔ ∃ choice, racingRead now olds choice = v)

/-! ### 60_exceptions.md, 70_reset_and_hazards.md and the whole machine -/

/-- R10, R182: ownership. A producer turn changes no consumer or driver state and only appends to `Q`; a consumer
turn changes no producer state, no configuration and no `STG`; a DMA turn changes the DMA registers and the panel
only. -/
def Obligations.EachAgentWritesOnlyItsOwnState : Prop :=
  ∀ s t : State, step s = .next t → t.cfg = s.cfg ∧
    (s.turn = .prod → t.cons = s.cons ∧ t.drv = s.drv ∧ (∃ ws, t.chan.q = s.chan.q ++ ws) ∧
      (s.chan.busy = true → t.chan.busy = true)) ∧
    (s.turn = .cons → t.prod = s.prod ∧ t.regs = s.regs ∧ t.chan.stg = s.chan.stg ∧
      t.chan.q.IsSuffix s.chan.q ∧ (t.chan.busy = true → s.chan.busy = true)) ∧
    (s.turn = .dma → t.chan = s.chan ∧ t.prod = s.prod ∧ t.cons = s.cons ∧ t.regs = s.regs ∧
      t.drv = { s.drv with dma := t.drv.dma, panel := t.drv.panel })

/-- R170: no command and no port operation can fail. From a sound state every step answers a next state, unless
the producer program's next item is no port operation of this configuration (log entry 11). -/
def Obligations.NoStepOfASoundStateFaults : Prop :=
  ∀ s : State, s.Sound → (∃ t, step s = .next t) ∨
    (step s = .refused .malformedPortOp ∧ s.turn = .prod ∧ s.prod.pphase = .idle ∧
      ∃ o more, s.env.prog = .op o :: more ∧ o.wellFormed s.cfg = false)

/-- R44, R113, R26, R27: soundness is kept by every step: every address formed lies in its space, the queue holds
at most `FIFO_DEPTH` words, the window lies in the panel and the cursor in the window, a transfer's window holds
exactly its units, and the consumer is in a phase of the command in `CMD`. -/
def Obligations.StepKeepsTheStateSound : Prop :=
  ∀ s t : State, s.Sound → step s = .next t → t.Sound

/-- Every step keeps every memory in its canonical form (R47 to R49 for what the accesses are; the form is the
model's, log entry 16). -/
def Obligations.StepKeepsMemoriesCanonical : Prop :=
  ∀ s t : State, s.Canonical → step s = .next t → t.Canonical

/-- The invariants hold in the state after reset, for every legal parameter set, and that state is quiescent
(R31, R191, R208). The reset values that R31 leaves unspecified are the model's (log entry 5). -/
def Obligations.ResetStateMeetsTheInvariants : Prop :=
  ∀ P : Params, P.legal = true → P.debugSetPixel = false →
    (State.resetWith P).Quiescent ∧ (State.resetWith P).ChannelInv ∧ (State.resetWith P).Canonical ∧
    (State.resetWith P).Sound ∧ (State.resetWith P).Gated ∧ (State.resetWith P).OneBufferFrameFree ∧
    (State.resetWith P).TransferDelivered ∧ (State.resetWith P).RaceFree

/-- R190: the reset input, whatever any agent is doing: `Q` empty, `BUSY = 0`, `P_IDLE`, `C_POP`, `DMA_BUSY = 0`,
`FB_WR = 0`; the parameters stay. -/
def Obligations.ResetInputGivesTheResetState : Prop :=
  ∀ (s : State) (rest : List Turn), s.TurnIs .reset rest →
    ∃ t, step s = .next t ∧ t.chan.q = [] ∧ t.chan.busy = false ∧ t.prod.pphase = .idle ∧ t.cons.cphase = .pop ∧
      t.drv.dma.busy = false ∧ t.drv.fbWr = .zero ∧ t.Quiescent ∧ t.cfg = s.cfg

/-- R191, R208: in a quiescent state with no port operation to issue, a turn of any agent changes nothing. -/
def Obligations.QuiescentStateMovesOnlyByANewOperation : Prop :=
  ∀ (s : State) (t : Turn) (rest : List Turn), s.TurnIs t rest → t ≠ .reset → s.Quiescent → s.env.prog = [] →
    step s = .next (s.withSched rest)

/-- R4, R68: a machine whose parameters break a constraint, or with `DEBUG_SET_PIXEL = true`, is refused at every
step; with legal parameters no step refuses them. -/
def Obligations.IllegalParametersAreRefused : Prop :=
  ∀ s : State, (s.cfg.debugSetPixel = true → step s = .refused .debugSetPixelUnspecified) ∧
    (s.cfg.debugSetPixel = false → s.cfg.legal = false → step s = .refused .illegalParameters) ∧
    (s.cfg.debugSetPixel = false → s.cfg.legal = true → step s = agentTurn s.turn s.turnTaken)

/-- R23: `IDLE_MODE` has no effect on any other state: two states that differ in it alone take the same step, and
differ afterwards in it alone. -/
def Obligations.IdleModeInfluencesNothing : Prop :=
  ∀ (s : State) (m : Byte), match step s, step { s with drv := { s.drv with idleMode := m } } with
    | .next t, .next t' => { t' with drv := { t'.drv with idleMode := t.drv.idleMode } } = t
    | .fault r, .fault r' => r = r'
    | .refused r, .refused r' => r = r'
    | _, _ => False

/-- R6, R52, R209: a producer step and a DMA step commute: in either order they lead to the same state. -/
def Obligations.ProducerAndDmaStepsCommute : Prop :=
  ∀ s a b : State, prodTurn s = .next a → dmaTurn s = .next b →
    ∃ c, dmaTurn a = .next c ∧ prodTurn b = .next c

/-- R207 (the spec's decision D35), R208: what weak fairness of `PROD`, `CONS` and `DMA` gives, and what is lost
without it (R97, R148, R177). Along every weakly fair run without reset, from a state that meets the in-flight
invariant and at every point of it: a transfer in flight completes, every word in `Q` is popped and executed to
completion, a line in flight is acknowledged, an `ENQUEUE` in progress pushes its word and returns, and the run comes
to a quiescent state with its program at its end. Without a turn of the consumer, or without one of the DMA engine
while `C_PUSH` waits for its transfer, a producer in `P_WAIT` stays there for ever. Fairness is a hypothesis, never
built in (log entry 20). -/
def Obligations.WeaklyFairRunsMakeProgress : Prop :=
  (∀ (σ : Nat → Turn) (r : Nat → State), IsRun σ r → WeaklyFair σ r → (∀ n, σ n ≠ .reset) → (r 0).ChannelInv →
    ∀ n,
      ((r n).dmaInFlight = true → ∃ m, n ≤ m ∧ σ m = .dma ∧ (r m).dmaInFlight = true ∧
        (r m).drv.dma.len ≤ (r m).drv.dma.pos ∧ (r (m + 1)).dmaInFlight = false) ∧
      (∀ older w younger, (r n).chan.q = older ++ w :: younger → ∃ m k pushed, n < m ∧ m < k ∧
        (r m).chan.q = younger ++ pushed ∧ (r m).cons.cphase = .dispatch ∧
        (∀ j, m ≤ j → j < k → (r j).cons.cmd = w ∧ (r j).cons.cphase ≠ .pop) ∧ (r k).cons.cphase = .pop) ∧
      ((r n).chan.busy = true → ∃ m, n ≤ m ∧ σ m = .cons ∧ (r m).cons.cphase = .ack ∧
        (r (m + 1)).chan.busy = false) ∧
      ((r n).prod.pphase ≠ .idle → ∃ m, n ≤ m ∧ σ m = .prod ∧ (r m).prod.pphase = .push ∧
        (r (m + 1)).chan.q = (r m).chan.q ++ [(r n).prod.pcmd] ∧ (r (m + 1)).prod.pphase = .idle) ∧
      (∃ m, n ≤ m ∧ (r m).Quiescent ∧ (r m).env.prog = [])) ∧
  (∀ (σ : Nat → Turn) (r : Nat → State), IsRun σ r → (r 0).prod.pphase = .wait → (r 0).chan.busy = true →
    ((∀ n, σ n = .prod ∨ σ n = .dma) → ∀ n, (r n).prod.pphase = .wait ∧ (r n).chan.busy = true) ∧
    ((∀ n, σ n = .prod ∨ σ n = .cons) → (r 0).cons.cphase = .push → pushWaits (r 0) = true →
      ∀ n, (r n).prod.pphase = .wait ∧ (r n).chan.busy = true ∧ (r n).cons.cphase = .push))

/-- R53, R86: from a quiescent state in DIRECT mode without DMA, one enqueued LCD_LINE, the producer's five steps
and the consumer's six: the codes the producer gave are on the panel, each copy of each pixel in its place, and
the machine is quiescent again. -/
def Obligations.EnqueuedLineReachesThePanel : Prop :=
  ∀ (s : State) (n : Byte) (codes : List Byte) (more : List ProgItem) (rest : List Turn),
    s.TurnIs .prod (List.replicate 4 .prod ++ List.replicate 6 .cons ++ rest) →
    s.Quiescent → s.Canonical → s.RaceFree → s.cfg.driverMode = .direct → s.cfg.useDma = false →
    s.env.prog = enqLine n codes :: more → codes.length = s.cfg.srcW → n.toNat < s.cfg.srcH →
    ∃ t, Host.Core.run Sys2Proof.core 11 s = .next t ∧ t.Quiescent ∧ t.env.prog = more ∧
      t.cfg = s.cfg ∧ t.regs = s.regs ∧
      (∀ r < 1 + vrep s.regs.scale n.toNat, ∀ x (h : x < codes.length), ∀ k ∈ copiesOf s.regs.scale x,
        t.panelAt ⟨(placementOf s.cfg s.regs.scale n.toNat).outX + k, yoff s.cfg s.regs.scale n.toNat + r⟩
          = bs s.cfg (if s.cfg.ecmSupport = true ∧ s.regs.ecmEn = true then
              s.regs.ecmTab.read (codes[x].toNat % s.cfg.ecmN) else lut s x codes[x])) ∧
      (∀ c : Cursor, c.InPanel s.cfg → ¬ (placementOf s.cfg s.regs.scale n.toNat).Covers c →
        t.panelAt c = s.panelAt c)
end

