-- ==== Sys2Proof/Laws/Memory.lean ====
section
/-! SUPPORT. The laws of an element-indexed memory: read after write, the canonical form is kept by every
operation, equal readings of canonical memories are equal memories, and what a row of writes leaves. -/

namespace Sys2Proof.Machine

section
variable {w : Nat}

@[simp] theorem Memory.read_nil (a : Nat) : Memory.read ([] : Memory w) a = 0#w := rfl

theorem Memory.read_cons (k : Nat) (u : BitVec w) (rest : Memory w) (a : Nat) :
    Memory.read ((k, u) :: rest) a = if a = k then u else Memory.read rest a := rfl

theorem Memory.wfFrom_cons (lo k : Nat) (u : BitVec w) (rest : Memory w) :
    Memory.wfFrom lo ((k, u) :: rest) = true ↔ lo ≤ k ∧ u ≠ 0#w ∧ Memory.wfFrom (k + 1) rest = true := by
  simp [Memory.wfFrom, and_assoc]

/-- A canonical memory is canonical from any lower address. -/
theorem Memory.wfFrom_mono {lo lo' : Nat} (h : lo' ≤ lo) :
    ∀ {m : Memory w}, Memory.wfFrom lo m = true → Memory.wfFrom lo' m = true
  | [], _ => rfl
  | (k, u) :: rest, hm => by
    rw [Memory.wfFrom_cons] at hm ⊢
    exact ⟨h.trans hm.1, hm.2⟩

/-- Below the first address a canonical memory may list, it reads as the unlisted value. -/
theorem Memory.read_below {lo a : Nat} (ha : a < lo) :
    ∀ {m : Memory w}, Memory.wfFrom lo m = true → Memory.read m a = 0#w
  | [], _ => rfl
  | (k, u) :: rest, hm => by
    rw [Memory.wfFrom_cons] at hm
    rw [Memory.read_cons, if_neg (by omega)]
    exact Memory.read_below (by omega) hm.2.2

/-- A write leaves every other element alone. -/
theorem Memory.read_write_other {a b : Nat} (v : BitVec w) (hab : b ≠ a) :
    ∀ m : Memory w, Memory.read (Memory.write m a v) b = Memory.read m b
  | [] => by
    unfold Memory.write
    split
    · rfl
    · simp [Memory.read_cons, hab]
  | (k, u) :: rest => by
    have ih := Memory.read_write_other v hab rest
    unfold Memory.write
    split_ifs <;> simp_all [Memory.read_cons]

/-- A read of the element just written gives what was written. -/
theorem Memory.read_write_same {a : Nat} (v : BitVec w) :
    ∀ {lo : Nat} {m : Memory w}, Memory.wfFrom lo m = true → Memory.read (Memory.write m a v) a = v
  | _, [], _ => by
    unfold Memory.write
    split
    · simp_all
    · simp [Memory.read_cons]
  | lo, (k, u) :: rest, hm => by
    have hm' := hm
    rw [Memory.wfFrom_cons] at hm
    have ih := Memory.read_write_same (a := a) v hm.2.2
    unfold Memory.write
    split_ifs with h1 h2 h3 h4
    · subst h2
      rw [Memory.read_cons, if_neg (by omega)]
      exact Memory.read_below (by omega) hm.2.2
    · simp [Memory.read_cons]
    · subst h4
      exact Memory.read_below (by omega) hm.2.2
    · simp [Memory.read_cons]
    · rw [Memory.read_cons, if_neg h3]
      exact ih

theorem Memory.wfFrom_write {a : Nat} (v : BitVec w) :
    ∀ {lo : Nat} {m : Memory w}, lo ≤ a → Memory.wfFrom lo m = true →
      Memory.wfFrom lo (Memory.write m a v) = true
  | lo, [], ha, _ => by
    unfold Memory.write
    split
    · rfl
    · rename_i hv
      exact (Memory.wfFrom_cons _ _ _ _).2 ⟨ha, hv, rfl⟩
  | lo, (k, u) :: rest, ha, hm => by
    have hm' := (Memory.wfFrom_cons _ _ _ _).1 hm
    unfold Memory.write
    split_ifs with h1 h2 h3 h4
    · exact hm
    · exact (Memory.wfFrom_cons _ _ _ _).2 ⟨ha, h2, (Memory.wfFrom_cons _ _ _ _).2 ⟨h1, hm'.2⟩⟩
    · exact Memory.wfFrom_mono (by omega) hm'.2.2
    · exact (Memory.wfFrom_cons _ _ _ _).2 ⟨ha, h4, by subst h3; exact hm'.2.2⟩
    · exact (Memory.wfFrom_cons _ _ _ _).2 ⟨hm'.1, hm'.2.1, Memory.wfFrom_write v (by omega) hm'.2.2⟩

/-- Every write keeps the canonical form. -/
theorem Memory.wf_write {m : Memory w} (a : Nat) (v : BitVec w) (hm : m.wf = true) :
    (Memory.write m a v).wf = true := Memory.wfFrom_write v (Nat.zero_le a) hm

/-- Reading after writing, in one line: the written element, and every other as before. -/
theorem Memory.read_write {m : Memory w} (a b : Nat) (v : BitVec w) (hm : m.wf = true) :
    Memory.read (Memory.write m a v) b = if b = a then v else Memory.read m b := by
  split
  · rename_i h; subst h; exact Memory.read_write_same v hm
  · rename_i h; exact Memory.read_write_other v h m

/-- Every row of writes keeps the canonical form. -/
theorem Memory.wf_writeRow (vs : List (BitVec w)) :
    ∀ {m : Memory w} (base : Nat), m.wf = true → (m.writeRow base vs).wf = true := by
  induction vs with
  | nil => intro m base hm; exact hm
  | cons v rest ih => intro m base hm; exact ih (base + 1) (Memory.wf_write base v hm)

/-- A row of writes leaves every element outside the row alone. -/
theorem Memory.read_writeRow_outside (vs : List (BitVec w)) :
    ∀ (m : Memory w) (base a : Nat), (a < base ∨ base + vs.length ≤ a) →
      Memory.read (m.writeRow base vs) a = Memory.read m a := by
  induction vs with
  | nil => intro m base a _; rfl
  | cons v rest ih =>
    intro m base a h
    simp only [List.length_cons] at h
    rw [Memory.writeRow, ih _ _ _ (by omega), Memory.read_write_other v (by omega)]

/-- What a row of writes leaves in its own elements. -/
theorem Memory.read_writeRow_inside (vs : List (BitVec w)) :
    ∀ {m : Memory w} (base j : Nat) (hj : j < vs.length), m.wf = true →
      Memory.read (m.writeRow base vs) (base + j) = vs[j] := by
  induction vs with
  | nil => intro m base j hj; simp at hj
  | cons v rest ih =>
    intro m base j hj hm
    cases j with
    | zero =>
      rw [Memory.writeRow, Memory.read_writeRow_outside _ _ _ _ (by omega)]
      exact Memory.read_write_same v hm
    | succ j =>
      have h := ih (base + 1) j (by simpa using hj) (Memory.wf_write base v hm)
      simpa [Memory.writeRow, Nat.add_assoc, Nat.add_comm 1] using h

@[simp] theorem Memory.within_nil (n : Nat) : Memory.within n ([] : Memory w) = true := rfl

@[simp] theorem Memory.within_cons (n k : Nat) (u : BitVec w) (rest : Memory w) :
    Memory.within n ((k, u) :: rest) = true ↔ k < n ∧ Memory.within n rest = true := by
  simp [Memory.within]

/-- A write inside the space keeps every listed address inside it. -/
theorem Memory.within_write {n a : Nat} (v : BitVec w) (ha : a < n) :
    ∀ {m : Memory w}, m.within n = true → (Memory.write m a v).within n = true
  | [], _ => by unfold Memory.write; split <;> simp [ha]
  | (k, u) :: rest, hm => by
    have hk := (Memory.within_cons _ _ _ _).1 hm
    have ih := Memory.within_write v ha hk.2
    unfold Memory.write
    split_ifs <;> simp [ha, hk, ih]

/-- A row of writes inside the space keeps every listed address inside it. -/
theorem Memory.within_writeRow {n : Nat} (vs : List (BitVec w)) :
    ∀ {m : Memory w} (base : Nat), base + vs.length ≤ n → m.within n = true →
      (m.writeRow base vs).within n = true := by
  induction vs with
  | nil => intro m base _ hm; exact hm
  | cons v rest ih =>
    intro m base h hm
    simp only [List.length_cons] at h
    exact ih (base + 1) (by omega) (Memory.within_write v (by omega) hm)

/-- Outside the space a memory whose listed addresses lie inside it reads as the unlisted value. -/
theorem Memory.read_of_within {n a : Nat} (ha : n ≤ a) :
    ∀ {m : Memory w}, m.within n = true → Memory.read m a = 0#w
  | [], _ => rfl
  | (k, u) :: rest, hm => by
    have hk := (Memory.within_cons _ _ _ _).1 hm
    rw [Memory.read_cons, if_neg (by omega)]
    exact Memory.read_of_within ha hk.2

theorem Memory.eq_of_read_from :
    ∀ {lo : Nat} {m m' : Memory w}, Memory.wfFrom lo m = true → Memory.wfFrom lo m' = true →
      (∀ a, Memory.read m a = Memory.read m' a) → m = m'
  | _, [], [], _, _, _ => rfl
  | lo, [], (k, u) :: rest, _, h', hr => by
    have h := (Memory.wfFrom_cons _ _ _ _).1 h'
    have := hr k
    simp [Memory.read_cons] at this
    exact absurd this.symm h.2.1
  | lo, (k, u) :: rest, [], h', _, hr => by
    have h := (Memory.wfFrom_cons _ _ _ _).1 h'
    have := hr k
    simp [Memory.read_cons] at this
    exact absurd this h.2.1
  | lo, (k, u) :: rest, (k', u') :: rest', h, h', hr => by
    have hm := (Memory.wfFrom_cons _ _ _ _).1 h
    have hm' := (Memory.wfFrom_cons _ _ _ _).1 h'
    have hk : k = k' := by
      rcases Nat.lt_trichotomy k k' with hlt | heq | hgt
      · have := hr k
        rw [Memory.read_cons, if_pos rfl, Memory.read_cons, if_neg (by omega),
          Memory.read_below (by omega) hm'.2.2] at this
        exact absurd this hm.2.1
      · exact heq
      · have := hr k'
        rw [Memory.read_cons, if_neg (by omega), Memory.read_below (by omega) hm.2.2,
          Memory.read_cons, if_pos rfl] at this
        exact absurd this.symm hm'.2.1
    subst hk
    have hu : u = u' := by simpa [Memory.read_cons] using hr k
    subst hu
    have hrest : rest = rest' := by
      refine Memory.eq_of_read_from hm.2.2 hm'.2.2 fun a => ?_
      by_cases ha : a = k
      · subst ha
        rw [Memory.read_below (by omega) hm.2.2, Memory.read_below (by omega) hm'.2.2]
      · have := hr a
        rwa [Memory.read_cons, if_neg ha, Memory.read_cons, if_neg ha] at this
    rw [hrest]

/-- Canonical memories that read alike are equal. -/
theorem Memory.eq_of_read {m m' : Memory w} (h : m.wf = true) (h' : m'.wf = true)
    (hr : ∀ a, Memory.read m a = Memory.read m' a) : m = m' := Memory.eq_of_read_from h h' hr

@[simp] theorem Memory.length_elements (m : Memory w) (n : Nat) : (m.elements n).length = n := by
  simp [Memory.elements]

@[simp] theorem Memory.getElem_elements (m : Memory w) (n j : Nat) (h : j < (m.elements n).length) :
    (m.elements n)[j] = m.read j := by simp [Memory.elements]

end

end Sys2Proof.Machine
end

