-- ==== Sys2Proof/Laws/State.lean ====
section
/-! SUPPORT. One lemma per component and per field of State under each named update, so that no proof unfolds a
record update. -/

namespace Sys2Proof.Machine

section
variable (s : State) (c : CPhase) (p : PPhase) (b : Bool) (ts : List Turn) (pr : List ProgItem)

@[simp] theorem State.toPhase_cphase : (s.toPhase c).cons.cphase = c := rfl
@[simp] theorem State.toPhase_cmd : (s.toPhase c).cons.cmd = s.cons.cmd := rfl
@[simp] theorem State.toPhase_linebuf : (s.toPhase c).cons.linebuf = s.cons.linebuf := rfl
@[simp] theorem State.toPhase_outbuf : (s.toPhase c).cons.outbuf = s.cons.outbuf := rfl
@[simp] theorem State.toPhase_place : (s.toPhase c).cons.place = s.cons.place := rfl
@[simp] theorem State.toPhase_cfg : (s.toPhase c).cfg = s.cfg := rfl
@[simp] theorem State.toPhase_chan : (s.toPhase c).chan = s.chan := rfl
@[simp] theorem State.toPhase_prod : (s.toPhase c).prod = s.prod := rfl
@[simp] theorem State.toPhase_regs : (s.toPhase c).regs = s.regs := rfl
@[simp] theorem State.toPhase_drv : (s.toPhase c).drv = s.drv := rfl
@[simp] theorem State.toPhase_env : (s.toPhase c).env = s.env := rfl

@[simp] theorem State.toPPhase_pphase : (s.toPPhase p).prod.pphase = p := rfl
@[simp] theorem State.toPPhase_pcmd : (s.toPPhase p).prod.pcmd = s.prod.pcmd := rfl
@[simp] theorem State.toPPhase_pline : (s.toPPhase p).prod.pline = s.prod.pline := rfl
@[simp] theorem State.toPPhase_cfg : (s.toPPhase p).cfg = s.cfg := rfl
@[simp] theorem State.toPPhase_chan : (s.toPPhase p).chan = s.chan := rfl
@[simp] theorem State.toPPhase_cons : (s.toPPhase p).cons = s.cons := rfl
@[simp] theorem State.toPPhase_regs : (s.toPPhase p).regs = s.regs := rfl
@[simp] theorem State.toPPhase_drv : (s.toPPhase p).drv = s.drv := rfl
@[simp] theorem State.toPPhase_env : (s.toPPhase p).env = s.env := rfl

@[simp] theorem State.storeBusy_busy : (s.storeBusy b).chan.busy = b := rfl
@[simp] theorem State.storeBusy_q : (s.storeBusy b).chan.q = s.chan.q := rfl
@[simp] theorem State.storeBusy_stg : (s.storeBusy b).chan.stg = s.chan.stg := rfl
@[simp] theorem State.storeBusy_cfg : (s.storeBusy b).cfg = s.cfg := rfl
@[simp] theorem State.storeBusy_prod : (s.storeBusy b).prod = s.prod := rfl
@[simp] theorem State.storeBusy_cons : (s.storeBusy b).cons = s.cons := rfl
@[simp] theorem State.storeBusy_regs : (s.storeBusy b).regs = s.regs := rfl
@[simp] theorem State.storeBusy_drv : (s.storeBusy b).drv = s.drv := rfl
@[simp] theorem State.storeBusy_env : (s.storeBusy b).env = s.env := rfl

@[simp] theorem State.drew_draws : s.drew.env.draws = s.env.draws + 1 := rfl
@[simp] theorem State.drew_prog : s.drew.env.prog = s.env.prog := rfl
@[simp] theorem State.drew_sched : s.drew.env.sched = s.env.sched := rfl
@[simp] theorem State.drew_races : s.drew.env.races = s.env.races := rfl
@[simp] theorem State.drew_statusRet : s.drew.env.statusRet = s.env.statusRet := rfl
@[simp] theorem State.drew_cfg : s.drew.cfg = s.cfg := rfl
@[simp] theorem State.drew_chan : s.drew.chan = s.chan := rfl
@[simp] theorem State.drew_prod : s.drew.prod = s.prod := rfl
@[simp] theorem State.drew_cons : s.drew.cons = s.cons := rfl
@[simp] theorem State.drew_regs : s.drew.regs = s.regs := rfl
@[simp] theorem State.drew_drv : s.drew.drv = s.drv := rfl

@[simp] theorem State.withSched_sched : (s.withSched ts).env.sched = ts := rfl
@[simp] theorem State.withSched_prog : (s.withSched ts).env.prog = s.env.prog := rfl
@[simp] theorem State.withSched_draws : (s.withSched ts).env.draws = s.env.draws := rfl
@[simp] theorem State.withSched_races : (s.withSched ts).env.races = s.env.races := rfl
@[simp] theorem State.withSched_statusRet : (s.withSched ts).env.statusRet = s.env.statusRet := rfl
@[simp] theorem State.withSched_cfg : (s.withSched ts).cfg = s.cfg := rfl
@[simp] theorem State.withSched_chan : (s.withSched ts).chan = s.chan := rfl
@[simp] theorem State.withSched_prod : (s.withSched ts).prod = s.prod := rfl
@[simp] theorem State.withSched_cons : (s.withSched ts).cons = s.cons := rfl
@[simp] theorem State.withSched_regs : (s.withSched ts).regs = s.regs := rfl
@[simp] theorem State.withSched_drv : (s.withSched ts).drv = s.drv := rfl

@[simp] theorem State.issued_prog : (s.issued pr).env.prog = pr := rfl
@[simp] theorem State.issued_sched : (s.issued pr).env.sched = s.env.sched := rfl
@[simp] theorem State.issued_draws : (s.issued pr).env.draws = s.env.draws := rfl
@[simp] theorem State.issued_races : (s.issued pr).env.races = s.env.races := rfl
@[simp] theorem State.issued_cfg : (s.issued pr).cfg = s.cfg := rfl
@[simp] theorem State.issued_chan : (s.issued pr).chan = s.chan := rfl
@[simp] theorem State.issued_prod : (s.issued pr).prod = s.prod := rfl
@[simp] theorem State.issued_cons : (s.issued pr).cons = s.cons := rfl
@[simp] theorem State.issued_regs : (s.issued pr).regs = s.regs := rfl
@[simp] theorem State.issued_drv : (s.issued pr).drv = s.drv := rfl

@[simp] theorem State.turnTaken_cfg : s.turnTaken.cfg = s.cfg := by unfold State.turnTaken; split <;> rfl
@[simp] theorem State.turnTaken_chan : s.turnTaken.chan = s.chan := by unfold State.turnTaken; split <;> rfl
@[simp] theorem State.turnTaken_prod : s.turnTaken.prod = s.prod := by unfold State.turnTaken; split <;> rfl
@[simp] theorem State.turnTaken_cons : s.turnTaken.cons = s.cons := by unfold State.turnTaken; split <;> rfl
@[simp] theorem State.turnTaken_regs : s.turnTaken.regs = s.regs := by unfold State.turnTaken; split <;> rfl
@[simp] theorem State.turnTaken_drv : s.turnTaken.drv = s.drv := by unfold State.turnTaken; split <;> rfl
@[simp] theorem State.turnTaken_prog : s.turnTaken.env.prog = s.env.prog := by
  unfold State.turnTaken; split <;> rfl
@[simp] theorem State.turnTaken_races : s.turnTaken.env.races = s.env.races := by
  unfold State.turnTaken; split <;> rfl
@[simp] theorem State.turnTaken_statusRet : s.turnTaken.env.statusRet = s.env.statusRet := by
  unfold State.turnTaken; split <;> rfl

/-- With a turn on the schedule the turn is that one, and the rest of the schedule is left. -/
theorem State.turn_of_sched {t : Turn} {rest : List Turn} (h : s.env.sched = t :: rest) :
    s.turn = t ∧ s.turnTaken = s.withSched rest := by simp [State.turn, State.turnTaken, State.withSched, h]

variable (r : Race)

@[simp] theorem State.race_cfg : (s.race r).cfg = s.cfg := by unfold State.race; split <;> rfl
@[simp] theorem State.race_chan : (s.race r).chan = s.chan := by unfold State.race; split <;> rfl
@[simp] theorem State.race_prod : (s.race r).prod = s.prod := by unfold State.race; split <;> rfl
@[simp] theorem State.race_cons : (s.race r).cons = s.cons := by unfold State.race; split <;> rfl
@[simp] theorem State.race_regs : (s.race r).regs = s.regs := by unfold State.race; split <;> rfl
@[simp] theorem State.race_drv : (s.race r).drv = s.drv := by unfold State.race; split <;> rfl
@[simp] theorem State.race_prog : (s.race r).env.prog = s.env.prog := by unfold State.race; split <;> rfl
@[simp] theorem State.race_sched : (s.race r).env.sched = s.env.sched := by unfold State.race; split <;> rfl
theorem State.race_races : (s.race r).env.races = if s.chan.busy then r :: s.env.races else s.env.races := by
  unfold State.race State.loadBusy; split <;> rfl

/-- While no line is in flight a configuration write opens no race (R59). -/
theorem State.race_of_not_busy (h : s.chan.busy = false) : s.race r = s := by
  simp [State.race, State.loadBusy, h]

@[simp] theorem State.loadBusy_eq : s.loadBusy = s.chan.busy := rfl
@[simp] theorem State.queueFull_eq : s.queueFull = decide (s.cfg.fifoDepth ≤ s.chan.q.length) := rfl

variable (d : Driver) (m : Memory 16)

@[simp] theorem Driver.setFb_idleMode (i : BufId) : (d.setFb i m).idleMode = d.idleMode := by cases i <;> rfl
@[simp] theorem Driver.setFb_xbuf (i : BufId) : (d.setFb i m).xbuf = d.xbuf := by cases i <;> rfl
@[simp] theorem Driver.setFb_fbWr (i : BufId) : (d.setFb i m).fbWr = d.fbWr := by cases i <;> rfl
@[simp] theorem Driver.setFb_dma (i : BufId) : (d.setFb i m).dma = d.dma := by cases i <;> rfl
@[simp] theorem Driver.setFb_panel (i : BufId) : (d.setFb i m).panel = d.panel := by cases i <;> rfl
@[simp] theorem Driver.fb_setFb_same (i : BufId) : (d.setFb i m).fb i = m := by cases i <;> rfl
theorem Driver.fb_setFb (i j : BufId) : (d.setFb i m).fb j = if j = i then m else d.fb j := by
  cases i <;> cases j <;> rfl
@[simp] theorem Driver.setFb_setFb (i : BufId) (m' : Memory 16) : (d.setFb i m).setFb i m' = d.setFb i m' := by
  cases i <;> rfl
@[simp] theorem BufId.other_other (i : BufId) : i.other.other = i := by cases i <;> rfl
@[simp] theorem BufId.other_ne (i : BufId) : i.other ≠ i := by cases i <;> simp [BufId.other]

variable (P : Params)

@[simp] theorem Driver.swap_idleMode : (d.swap P).idleMode = d.idleMode := by unfold Driver.swap; split <;> rfl
@[simp] theorem Driver.swap_xbuf : (d.swap P).xbuf = d.xbuf := by unfold Driver.swap; split <;> rfl
@[simp] theorem Driver.swap_fb0 : (d.swap P).fb0 = d.fb0 := by unfold Driver.swap; split <;> rfl
@[simp] theorem Driver.swap_fb1 : (d.swap P).fb1 = d.fb1 := by unfold Driver.swap; split <;> rfl
@[simp] theorem Driver.swap_dma : (d.swap P).dma = d.dma := by unfold Driver.swap; split <;> rfl
@[simp] theorem Driver.swap_panel : (d.swap P).panel = d.panel := by unfold Driver.swap; split <;> rfl
theorem Driver.swap_fbWr : (d.swap P).fbWr = if P.fbCount = 2 then d.fbWr.other else d.fbWr := by
  unfold Driver.swap; split <;> rfl
@[simp] theorem Driver.swap_fb (i : BufId) : (d.swap P).fb i = d.fb i := by cases i <;> simp [Driver.fb]

@[simp] theorem Driver.clearBuffers_idleMode : (d.clearBuffers P).idleMode = d.idleMode := by
  unfold Driver.clearBuffers; split <;> [rfl; split <;> rfl]
@[simp] theorem Driver.clearBuffers_xbuf : (d.clearBuffers P).xbuf = d.xbuf := by
  unfold Driver.clearBuffers; split <;> [rfl; split <;> rfl]
@[simp] theorem Driver.clearBuffers_fbWr : (d.clearBuffers P).fbWr = d.fbWr := by
  unfold Driver.clearBuffers; split <;> [rfl; split <;> rfl]
@[simp] theorem Driver.clearBuffers_dma : (d.clearBuffers P).dma = d.dma := by
  unfold Driver.clearBuffers; split <;> [rfl; split <;> rfl]
@[simp] theorem Driver.clearBuffers_panel : (d.clearBuffers P).panel = d.panel := by
  unfold Driver.clearBuffers; split <;> [rfl; split <;> rfl]

end

end Sys2Proof.Machine
end

