-- ==== Sys2Proof/Laws/Panel.lean ====
section
/-! SUPPORT. The laws of the panel: its addresses, the walk of the cursor through the window, and what a stream of
units leaves (42_display_driver.md R126 to R129). -/

namespace Sys2Proof.Machine

section
variable (P : Params) (p : Panel)

@[simp] theorem Panel.setWindow_win (x0 y0 x1 y1 : Nat) : (p.setWindow x0 y0 x1 y1).win = ⟨x0, y0, x1, y1⟩ := rfl
@[simp] theorem Panel.setWindow_cur (x0 y0 x1 y1 : Nat) : (p.setWindow x0 y0 x1 y1).cur = ⟨x0, y0⟩ := rfl
@[simp] theorem Panel.setWindow_pix (x0 y0 x1 y1 : Nat) : (p.setWindow x0 y0 x1 y1).pix = p.pix := rfl
@[simp] theorem Panel.put_win (u : Colour) : (p.put P u).win = p.win := rfl
@[simp] theorem Panel.put_cur (u : Colour) : (p.put P u).cur = p.win.advance p.cur := rfl
@[simp] theorem Panel.put_pix (u : Colour) :
    (p.put P u).pix = p.pix.write (pixelAddr P p.cur.y p.cur.x) u := rfl

@[simp] theorem Panel.stream_nil : p.stream P [] = p := rfl
@[simp] theorem Panel.stream_cons (u : Colour) (us : List Colour) :
    p.stream P (u :: us) = (p.put P u).stream P us := rfl
theorem Panel.stream_append (us vs : List Colour) : p.stream P (us ++ vs) = (p.stream P us).stream P vs := by
  simp [Panel.stream]

@[simp] theorem Panel.stream_win (us : List Colour) : (p.stream P us).win = p.win := by
  induction us generalizing p with
  | nil => rfl
  | cons u us ih => rw [Panel.stream_cons, ih, Panel.put_win]

/-- A stream keeps the pixel memory canonical. -/
theorem Panel.wf_stream (us : List Colour) (h : p.pix.wf = true) : (p.stream P us).pix.wf = true := by
  induction us generalizing p with
  | nil => exact h
  | cons u us ih => exact ih _ (Memory.wf_write _ _ h)

/-- Panel positions in range have different addresses. -/
theorem pixelAddr_inj {P : Params} {y y' x x' : Nat} (hx : x < P.panelW) (hx' : x' < P.panelW) :
    pixelAddr P y x = pixelAddr P y' x' ↔ y = y' ∧ x = x' := by
  constructor
  · intro h
    unfold pixelAddr at h
    have h1 := congrArg (· / P.panelW) h
    have h2 := congrArg (· % P.panelW) h
    have hw : 0 < P.panelW := by omega
    simp only [Nat.mul_comm _ P.panelW, Nat.mul_add_div hw, Nat.div_eq_of_lt hx, Nat.div_eq_of_lt hx',
      Nat.mul_add_mod, Nat.mod_eq_of_lt hx, Nat.mod_eq_of_lt hx'] at h1 h2
    exact ⟨by simpa using h1, h2⟩
  · rintro ⟨rfl, rfl⟩; rfl

/-- A panel position in range has an address below `PANEL_N`. -/
theorem pixelAddr_lt {P : Params} {y x : Nat} (hx : x < P.panelW) (hy : y < P.panelH) :
    pixelAddr P y x < P.panelN := by
  unfold pixelAddr Params.panelN
  calc y * P.panelW + x < y * P.panelW + P.panelW := by omega
    _ = (y + 1) * P.panelW := by rw [Nat.add_mul, Nat.one_mul]
    _ ≤ P.panelH * P.panelW := Nat.mul_le_mul_right _ hy
    _ = P.panelW * P.panelH := Nat.mul_comm _ _

/-- The linear index of a position is its address, and every index below `PANEL_N` is one. -/
theorem pixelAddr_div_mod (P : Params) (j : Nat) : pixelAddr P (j / P.panelW) (j % P.panelW) = j := by
  unfold pixelAddr
  exact Nat.div_add_mod' j P.panelW

variable (w : Window)

theorem Window.width_pos : 0 < w.width := by unfold Window.width; omega
theorem Window.height_pos : 0 < w.height := by unfold Window.height; omega

@[simp] theorem Window.cell_zero : w.cell 0 = ⟨w.x0, w.y0⟩ := by simp [Window.cell]

theorem Window.width_eq : w.width = w.x1 - w.x0 + 1 := rfl
theorem Window.height_eq : w.height = w.y1 - w.y0 + 1 := rfl
theorem Window.cell_x (j : Nat) : (w.cell j).x = w.x0 + j % w.width := rfl
theorem Window.cell_y (j : Nat) : (w.cell j).y = w.y0 + j / w.width := rfl

/-- Unit `j` of the window's units lies in the window. -/
theorem Window.cell_inside {w : Window} (hx : w.x0 ≤ w.x1) (hy : w.y0 ≤ w.y1) {j : Nat}
    (hj : j < w.width * w.height) :
    w.x0 ≤ (w.cell j).x ∧ (w.cell j).x ≤ w.x1 ∧ w.y0 ≤ (w.cell j).y ∧ (w.cell j).y ≤ w.y1 := by
  have h1 : j % w.width < w.width := Nat.mod_lt _ w.width_pos
  have h2 : j / w.width < w.height := Nat.div_lt_of_lt_mul hj
  have hw := w.width_eq
  have hh := w.height_eq
  rw [Window.cell_x, Window.cell_y]
  generalize j / w.width = q at h2 ⊢
  generalize j % w.width = k at h1 ⊢
  omega

/-- Different units have different positions. -/
theorem Window.cell_inj {w : Window} {i j : Nat} : w.cell i = w.cell j ↔ i = j := by
  constructor
  · intro h
    simp only [Window.cell, Cursor.mk.injEq] at h
    have h1 : i % w.width = j % w.width := by omega
    have h2 : i / w.width = j / w.width := by omega
    rw [← Nat.div_add_mod i w.width, ← Nat.div_add_mod j w.width, h1, h2]
  · rintro rfl; rfl

/-- The position in row `r` and column `k` of the window. -/
theorem Window.cell_row_col {w : Window} (r : Nat) {k : Nat} (hk : k < w.width) :
    w.cell (r * w.width + k) = ⟨w.x0 + k, w.y0 + r⟩ := by
  simp [Window.cell, Nat.mul_comm r, Nat.mod_eq_of_lt hk, Nat.mul_add_div w.width_pos,
    Nat.div_eq_of_lt hk]

/-- Every position of the window is the position of one of its units. -/
theorem Window.exists_cell {w : Window} {c : Cursor} (h0 : w.x0 ≤ c.x) (h1 : c.x ≤ w.x1) (h2 : w.y0 ≤ c.y)
    (h3 : c.y ≤ w.y1) : ∃ j < w.width * w.height, w.cell j = c := by
  have hk : c.x - w.x0 < w.width := by unfold Window.width; omega
  have hr : c.y - w.y0 < w.height := by unfold Window.height; omega
  refine ⟨(c.y - w.y0) * w.width + (c.x - w.x0), ?_, ?_⟩
  · calc (c.y - w.y0) * w.width + (c.x - w.x0) < (c.y - w.y0) * w.width + w.width := by omega
      _ = (c.y - w.y0 + 1) * w.width := by rw [Nat.add_mul, Nat.one_mul]
      _ ≤ w.height * w.width := Nat.mul_le_mul_right _ hr
      _ = w.width * w.height := Nat.mul_comm _ _
  · rw [Window.cell_row_col _ hk]
    cases c
    simp only [Cursor.mk.injEq]
    simp only at h0 h2
    omega

/-- The cursor walks through the window's positions in order (R128). -/
theorem Window.advance_cell {w : Window} (hx : w.x0 ≤ w.x1) (hy : w.y0 ≤ w.y1) {j : Nat}
    (hj : j + 1 < w.width * w.height) : w.advance (w.cell j) = w.cell (j + 1) := by
  have hw := w.width_eq
  have hh := w.height_eq
  have hm : j % w.width < w.width := Nat.mod_lt _ w.width_pos
  have hrow : (j + 1) / w.width < w.height := Nat.div_lt_of_lt_mul hj
  have hcx := w.cell_x j
  have hcy := w.cell_y j
  unfold Window.advance
  by_cases hk : j % w.width + 1 < w.width
  · have h1 : (j + 1) % w.width = j % w.width + 1 := by
      rw [Nat.add_mod_eq_ite, Nat.mod_eq_of_lt (show 1 < w.width by omega), if_neg (by omega)]
    have h2 : (j + 1) / w.width = j / w.width := by
      rw [Nat.succ_div_of_not_dvd]
      intro hd
      have := Nat.mod_eq_zero_of_dvd hd
      omega
    rw [if_pos (by omega), Cursor.mk.injEq, w.cell_x (j + 1), w.cell_y (j + 1), h1, h2]
    exact ⟨by omega, hcy⟩
  · have hd : w.width ∣ j + 1 := by
      refine ⟨j / w.width + 1, ?_⟩
      have := Nat.div_add_mod j w.width
      rw [Nat.mul_add, Nat.mul_one]
      omega
    have h1 : (j + 1) % w.width = 0 := Nat.mod_eq_zero_of_dvd hd
    have h2 : (j + 1) / w.width = j / w.width + 1 := Nat.succ_div_of_dvd hd
    rw [if_neg (by omega), if_pos (by omega), Cursor.mk.injEq, w.cell_x (j + 1), w.cell_y (j + 1), h1, h2]
    exact ⟨rfl, by omega⟩

/-- After the window's last unit the cursor is back at the origin (R128). -/
theorem Window.advance_last {w : Window} (hx : w.x0 ≤ w.x1) (hy : w.y0 ≤ w.y1) {j : Nat}
    (hj : j + 1 = w.width * w.height) : w.advance (w.cell j) = w.cell 0 := by
  have hw := w.width_eq
  have hh := w.height_eq
  have hcx := w.cell_x j
  have hcy := w.cell_y j
  have hd : w.width ∣ j + 1 := ⟨w.height, hj⟩
  have hm : j % w.width < w.width := Nat.mod_lt _ w.width_pos
  have h1 : (j + 1) / w.width = w.height := by rw [hj, Nat.mul_div_cancel_left _ w.width_pos]
  have h2 : (j + 1) / w.width = j / w.width + 1 := Nat.succ_div_of_dvd hd
  have h3 : j % w.width + 1 = w.width := by
    have e1 := Nat.div_add_mod j w.width
    have e2 : w.width * (j / w.width + 1) = w.width * w.height := by rw [← h2, h1]
    rw [Nat.mul_add, Nat.mul_one] at e2
    omega
  unfold Window.advance
  rw [if_neg (by omega), if_neg (by omega), Window.cell_zero]

/-- What a stream that fits in the rest of the window does, from unit `j` on: it fills the next positions in
order, leaves every other element alone, and moves the cursor on. -/
theorem Panel.stream_spec {P : Params} (us : List Colour) :
    ∀ {p : Panel} {j : Nat}, p.win.x0 ≤ p.win.x1 → p.win.x1 < P.panelW → p.win.y0 ≤ p.win.y1 →
      p.pix.wf = true → p.cur = p.win.cell j → j < p.win.width * p.win.height →
      j + us.length ≤ p.win.width * p.win.height →
      (∀ i (h : i < us.length),
        (p.stream P us).pix.read (pixelAddr P (p.win.cell (j + i)).y (p.win.cell (j + i)).x) = us[i]) ∧
      (∀ a, (∀ i < us.length, a ≠ pixelAddr P (p.win.cell (j + i)).y (p.win.cell (j + i)).x) →
        (p.stream P us).pix.read a = p.pix.read a) ∧
      (p.stream P us).cur =
        p.win.cell (if j + us.length = p.win.width * p.win.height then 0 else j + us.length) := by
  induction us with
  | nil =>
    intro p j _ _ _ _ hc hj _
    refine ⟨by simp, by simp, ?_⟩
    rw [if_neg (by simp; omega)]
    simpa using hc
  | cons u us ih =>
    intro p j hx hxW hy hwf hc hj hlen
    simp only [List.length_cons] at hlen
    rw [Panel.stream_cons]
    have hin := Window.cell_inside hx hy hj
    have hput : ∀ b, (p.put P u).pix.read b =
        if b = pixelAddr P (p.win.cell j).y (p.win.cell j).x then u else p.pix.read b := by
      intro b; rw [Panel.put_pix, Memory.read_write _ _ _ hwf, hc]
    rcases Nat.lt_or_ge (j + 1) (p.win.width * p.win.height) with hnext | hlast
    · have hc' : (p.put P u).cur = (p.put P u).win.cell (j + 1) := by
        rw [Panel.put_cur, hc, Window.advance_cell hx hy hnext, Panel.put_win]
      have h := ih (p := p.put P u) (j := j + 1) hx hxW hy (Memory.wf_write _ _ hwf) hc' hnext
        (by rw [Panel.put_win]; omega)
      simp only [Panel.put_win] at h
      obtain ⟨hread, hother, hcur⟩ := h
      refine ⟨?_, ?_, ?_⟩
      · intro i hi
        cases i with
        | zero =>
          simp only [Nat.add_zero, List.getElem_cons_zero]
          rw [hother]
          · rw [hput, if_pos rfl]
          · intro i hi heq
            have hin' := Window.cell_inside hx hy (w := p.win) (j := j + 1 + i) (by omega)
            have := (pixelAddr_inj (by omega) (by omega)).1 heq
            have hcell : p.win.cell j = p.win.cell (j + 1 + i) := by
              rw [Cursor.mk.injEq]; exact ⟨this.2, this.1⟩
            have := Window.cell_inj.1 hcell
            omega
        | succ i =>
          have := hread i (by simpa using hi)
          rw [show j + 1 + i = j + (i + 1) by omega] at this
          simpa using this
      · intro a ha
        rw [hother, hput, if_neg (by simpa using ha 0 (by simp))]
        intro i hi
        have := ha (i + 1) (by simpa using hi)
        rwa [show j + (i + 1) = j + 1 + i by omega] at this
      · simp only [hcur, show j + 1 + us.length = j + (us.length + 1) by omega, List.length_cons]
    · have hnil : us = [] := List.eq_nil_of_length_eq_zero (by omega)
      subst hnil
      refine ⟨?_, ?_, ?_⟩
      · intro i hi
        have : i = 0 := by simpa using hi
        subst this
        simp only [Panel.stream_nil, Nat.add_zero, List.getElem_cons_zero]
        rw [hput, if_pos rfl]
      · intro a ha
        rw [Panel.stream_nil, hput, if_neg (by simpa using ha 0 (by simp))]
      · rw [Panel.stream_nil, Panel.put_cur, hc, Window.advance_last hx hy (by omega), if_pos]
        simpa using (show j + 1 = p.win.width * p.win.height by omega)

end

end Sys2Proof.Machine
end

