-- ==== Sys2Proof/Laws/Step.lean ====
section
/-! SUPPORT. What one step can do, said once: the inversion of `step`, of each agent's turn and of the shared
push phase. Every invariant proof cites these instead of unfolding the step. -/

namespace Sys2Proof.Machine

/-- The decoder's answer for a line's word. -/
theorem decode_of_isLine {w : Word} (h : isLine w = true) : decode w = .command (.lcdLine (dataOf w)) := by
  have h1 : tagOf w = 1#8 := by simpa [isLine] using h
  simp [decode, h1]

theorem decode_of_idleTag {w : Word} (h : tagOf w = 2#8) : decode w = .command (.idleSet (dataOf w)) := by
  simp [decode, h]

/-- A step with the parameters in order is the turn of the agent whose turn it is. -/
theorem step_eq_agentTurn {s : State} (hl : s.cfg.legal = true) (hd : s.cfg.debugSetPixel = false) :
    step s = agentTurn s.turn s.turnTaken := by simp [step, stepTurn, hl, hd]

/-- A step that answers a next state ran with legal parameters and was one agent's turn. -/
theorem step_next {s t : State} (h : step s = .next t) :
    s.cfg.legal = true ∧ s.cfg.debugSetPixel = false ∧ agentTurn s.turn s.turnTaken = .next t := by
  unfold step stepTurn at h
  split at h
  · cases h
  · rename_i hd
    split at h
    · exact ⟨‹_›, Bool.eq_false_iff.2 hd, h⟩
    · cases h

/-- With a turn on the schedule a step is that agent's turn on the state with the turn taken. -/
theorem step_of_turnIs {s : State} {t : Turn} {rest : List Turn} (h : s.TurnIs t rest) :
    step s = agentTurn t (s.withSched rest) := by
  rw [step_eq_agentTurn h.2.1 h.2.2, (s.turn_of_sched h.1).1, (s.turn_of_sched h.1).2]

theorem agentTurn_next {x : Turn} {s t : State} (h : agentTurn x s = .next t) :
    (x = .prod ∧ prodTurn s = .next t) ∨ (x = .cons ∧ consTurn s = .next t) ∨
      (x = .dma ∧ dmaTurn s = .next t) ∨ (x = .reset ∧ t = resetInput s) := by
  cases x
  · exact .inl ⟨rfl, h⟩
  · exact .inr (.inl ⟨rfl, h⟩)
  · exact .inr (.inr (.inl ⟨rfl, h⟩))
  · exact .inr (.inr (.inr ⟨rfl, by simpa [agentTurn] using h.symm⟩))

/-- Everything a producer turn can do when it answers a next state. -/
theorem prodTurn_next {s t : State} (h : prodTurn s = .next t) :
    (s.prod.pphase = .idle ∧ s.env.prog = [] ∧ t = s) ∨
    (∃ o rest, s.prod.pphase = .idle ∧ s.env.prog = .op o :: rest ∧ o.wellFormed s.cfg = true ∧
      t = portOp o (s.issued rest)) ∨
    (∃ rest, s.prod.pphase = .idle ∧ s.env.prog = .waitIdle :: rest ∧ t = pollOnce rest s) ∨
    (s.prod.pphase = .wait ∧ t = waitPhase s) ∨ (s.prod.pphase = .copy ∧ t = copyPhase s) ∨
    (s.prod.pphase = .mark ∧ t = markPhase s) ∨ (s.prod.pphase = .push ∧ t = pushWordPhase s) := by
  unfold prodTurn at h
  split at h
  case h_1 hp =>
    unfold issueNext at h
    split at h
    · rename_i hg; cases h; simp [hp, hg]
    · rename_i o rest hg
      split at h
      · rename_i hw; cases h; exact .inr (.inl ⟨o, rest, hp, hg, hw, rfl⟩)
      · cases h
    · rename_i rest hg; cases h; exact .inr (.inr (.inl ⟨rest, hp, hg, rfl⟩))
  all_goals (rename_i hp; cases h; simp [hp])

/-- Everything the push phase can do when it answers a next state (R131). -/
theorem pushPhase_next {n : Nat} {s t : State} (h : pushPhase n s = .next t) :
    (pushWaits s = true ∧ t = s) ∨
    (pushWaits s = false ∧ placementInside s = true ∧ t = (pushLine s).toPhase (afterPush s.cfg n)) := by
  unfold pushPhase at h
  split at h
  · rename_i hw; cases h; exact .inl ⟨hw, rfl⟩
  · rename_i hw
    split at h
    · rename_i hp; cases h; exact .inr ⟨by simpa using hw, hp, rfl⟩
    · cases h

/-- `noEffect` answers a next state from `C_DISPATCH` only. -/
theorem noEffect_next {s t : State} (h : noEffect s = .next t) : s.cons.cphase = .dispatch ∧ t = s.toPhase .pop := by
  unfold noEffect at h
  split at h
  · rename_i hp; cases h; exact ⟨hp, rfl⟩
  all_goals cases h

/-- Everything a consumer turn can do when it answers a next state, by phase and by the word in `CMD`. -/
theorem consTurn_next {s t : State} (h : consTurn s = .next t) :
    (s.cons.cphase = .pop ∧ t = popPhase s) ∨
    (s.cons.cphase = .dispatch ∧ isLine s.cons.cmd = false ∧ tagOf s.cons.cmd ≠ 2#8 ∧ t = s.toPhase .pop) ∨
    (s.cons.cphase = .dispatch ∧ tagOf s.cons.cmd = 2#8 ∧ t = s.toPhase .idle) ∨
    (s.cons.cphase = .dispatch ∧ isLine s.cons.cmd = true ∧ lineIndexOf s.cons.cmd < s.cfg.srcH ∧
      t = s.toPhase .resolve) ∨
    (s.cons.cphase = .dispatch ∧ isLine s.cons.cmd = true ∧ s.cfg.srcH ≤ lineIndexOf s.cons.cmd ∧
      t = s.toPhase .ack) ∨
    (s.cons.cphase = .resolve ∧ isLine s.cons.cmd = true ∧ t = resolvePhase s) ∨
    (s.cons.cphase = .layout ∧ isLine s.cons.cmd = true ∧ t = layoutPhase (lineIndexOf s.cons.cmd) s) ∨
    (s.cons.cphase = .push ∧ isLine s.cons.cmd = true ∧ pushPhase (lineIndexOf s.cons.cmd) s = .next t) ∨
    (s.cons.cphase = .frame ∧ isLine s.cons.cmd = true ∧ t = framePhase s) ∨
    (s.cons.cphase = .ack ∧ isLine s.cons.cmd = true ∧ t = ackPhase s) ∨
    (s.cons.cphase = .idle ∧ tagOf s.cons.cmd = 2#8 ∧ t = idlePhase (dataOf s.cons.cmd) s) := by
  unfold consTurn at h
  split at h
  · rename_i hp; cases h; exact .inl ⟨hp, rfl⟩
  · right
    unfold runCommand at h
    by_cases h0 : tagOf s.cons.cmd = 0#8
    · rw [show decode s.cons.cmd = .command (.nop (dataOf s.cons.cmd)) by simp [decode, h0]] at h
      obtain ⟨hp, rfl⟩ := noEffect_next h
      exact .inl ⟨hp, by simp [isLine, h0], by simp [h0], rfl⟩
    · by_cases h1 : tagOf s.cons.cmd = 1#8
      · have hl : isLine s.cons.cmd = true := by simp [isLine, h1]
        rw [decode_of_isLine hl] at h
        unfold exec execLcdLine at h
        dsimp only at h
        split at h <;> rename_i hp
        · cases h
          by_cases hn : (dataOf s.cons.cmd).toNat < s.cfg.srcH
          · rw [if_pos hn]; exact .inr (.inr (.inl ⟨hp, hl, hn, rfl⟩))
          · rw [if_neg hn]; exact .inr (.inr (.inr (.inl ⟨hp, hl, by simpa [lineIndexOf] using hn, rfl⟩)))
        · cases h; simp [hp, hl]
        · cases h; simp [hp, hl, lineIndexOf]
        · simp only [hp, hl, lineIndexOf]; simpa using h
        · cases h; simp [hp, hl]
        · cases h; simp [hp, hl]
        · cases h
        · cases h
      · by_cases h2 : tagOf s.cons.cmd = 2#8
        · rw [decode_of_idleTag h2] at h
          unfold exec execIdleSet at h
          dsimp only at h
          split at h <;> rename_i hp <;> cases h
          · exact .inr (.inl ⟨hp, h2, rfl⟩)
          · simp [hp, h2]
        · by_cases h3 : tagOf s.cons.cmd = 3#8
          · rw [show decode s.cons.cmd = .command (.setPixel (dataOf s.cons.cmd)) by
              simp [decode, h3]] at h
            unfold exec execSetPixel at h
            dsimp only at h
            split at h
            · cases h
            · obtain ⟨hp, rfl⟩ := noEffect_next h
              exact .inl ⟨hp, by simp [isLine, h3], by simp [h3], rfl⟩
          · rw [show decode s.cons.cmd = .reserved (tagOf s.cons.cmd) (dataOf s.cons.cmd) by
              simp [decode, h0, h1, h2, h3]] at h
            obtain ⟨hp, rfl⟩ := noEffect_next h
            exact .inl ⟨hp, by simp [isLine, h1], h2, rfl⟩

/-- Everything a DMA turn can do when it answers a next state (R134, R135). -/
theorem dmaTurn_next {s t : State} (h : dmaTurn s = .next t) :
    (s.dmaInFlight = false ∧ t = s) ∨
    (s.dmaInFlight = true ∧ s.drv.dma.pos < s.drv.dma.len ∧ beatInside s = true ∧ t = dmaBeat s) ∨
    (s.dmaInFlight = true ∧ s.drv.dma.len ≤ s.drv.dma.pos ∧ t = dmaComplete s) := by
  unfold dmaTurn at h
  split at h
  · rename_i hf
    split at h
    · rename_i hp
      split at h
      · rename_i hb; cases h; exact .inr (.inl ⟨hf, hp, hb, rfl⟩)
      · cases h
    · rename_i hp; cases h; exact .inr (.inr ⟨hf, by omega, rfl⟩)
  · rename_i hf; cases h; exact .inl ⟨by simpa using hf, rfl⟩

/-- A run is its first step and the rest (Host/Core.lean). -/
theorem run_succ {n : Nat} {s t : State} (h : step s = .next t) :
    Host.Core.run Sys2Proof.core (n + 1) s = Host.Core.run Sys2Proof.core n t := by
  simp only [Host.Core.run, show Sys2Proof.core.step s = .next t from h]

theorem run_zero (s : State) : Host.Core.run Sys2Proof.core 0 s = .next s := rfl

/-- The phases of a command are its first phase and the rest. -/
theorem execPhases_succ {i : Instr} {n : Nat} {s t : State} (h : exec i s = .next t) :
    execPhases i (n + 1) s = execPhases i n t := by simp only [execPhases, h]

theorem execPhases_zero (i : Instr) (s : State) : execPhases i 0 s = .next s := rfl

/-- The turns of the DMA engine are its first turn and the rest. -/
theorem dmaTurns_succ {n : Nat} {s t : State} (h : dmaTurn s = .next t) : dmaTurns (n + 1) s = dmaTurns n t := by
  simp only [dmaTurns, h]

theorem dmaTurns_zero (s : State) : dmaTurns 0 s = .next s := rfl

end Sys2Proof.Machine
end

