-- ==== Sys2Proof/Laws/Phases.lean ====
section
/-! SUPPORT. The frame of every phase and operation: one lemma per component that it leaves alone, and the phase it
moves to. -/

namespace Sys2Proof.Machine

section
variable (s : State)

/-! The producer port: every phase leaves the consumer and the driver alone (R10). -/

@[simp] theorem acceptEnqueue_cfg (tag data : Byte) (codes : List Byte) : (acceptEnqueue tag data codes s).cfg = s.cfg := rfl
@[simp] theorem acceptEnqueue_chan (tag data : Byte) (codes : List Byte) : (acceptEnqueue tag data codes s).chan = s.chan := rfl
@[simp] theorem acceptEnqueue_cons (tag data : Byte) (codes : List Byte) : (acceptEnqueue tag data codes s).cons = s.cons := rfl
@[simp] theorem acceptEnqueue_regs (tag data : Byte) (codes : List Byte) : (acceptEnqueue tag data codes s).regs = s.regs := rfl
@[simp] theorem acceptEnqueue_drv (tag data : Byte) (codes : List Byte) : (acceptEnqueue tag data codes s).drv = s.drv := rfl
@[simp] theorem acceptEnqueue_env (tag data : Byte) (codes : List Byte) : (acceptEnqueue tag data codes s).env = s.env := rfl
@[simp] theorem waitPhase_cfg : (waitPhase s).cfg = s.cfg := by
  unfold waitPhase; split <;> [skip; split] <;> rfl
@[simp] theorem waitPhase_chan : (waitPhase s).chan = s.chan := by
  unfold waitPhase; split <;> [skip; split] <;> rfl
@[simp] theorem waitPhase_cons : (waitPhase s).cons = s.cons := by
  unfold waitPhase; split <;> [skip; split] <;> rfl
@[simp] theorem waitPhase_regs : (waitPhase s).regs = s.regs := by
  unfold waitPhase; split <;> [skip; split] <;> rfl
@[simp] theorem waitPhase_drv : (waitPhase s).drv = s.drv := by
  unfold waitPhase; split <;> [skip; split] <;> rfl
@[simp] theorem waitPhase_env : (waitPhase s).env = s.env := by
  unfold waitPhase; split <;> [skip; split] <;> rfl
@[simp] theorem copyPhase_cfg : (copyPhase s).cfg = s.cfg := rfl
@[simp] theorem copyPhase_cons : (copyPhase s).cons = s.cons := rfl
@[simp] theorem copyPhase_regs : (copyPhase s).regs = s.regs := rfl
@[simp] theorem copyPhase_drv : (copyPhase s).drv = s.drv := rfl
@[simp] theorem copyPhase_env : (copyPhase s).env = s.env := rfl
@[simp] theorem copyPhase_chan_q : (copyPhase s).chan.q = s.chan.q := rfl
@[simp] theorem copyPhase_chan_busy : (copyPhase s).chan.busy = s.chan.busy := rfl
@[simp] theorem markPhase_cfg : (markPhase s).cfg = s.cfg := rfl
@[simp] theorem markPhase_cons : (markPhase s).cons = s.cons := rfl
@[simp] theorem markPhase_regs : (markPhase s).regs = s.regs := rfl
@[simp] theorem markPhase_drv : (markPhase s).drv = s.drv := rfl
@[simp] theorem markPhase_env : (markPhase s).env = s.env := rfl
@[simp] theorem markPhase_chan_q : (markPhase s).chan.q = s.chan.q := rfl
@[simp] theorem markPhase_chan_stg : (markPhase s).chan.stg = s.chan.stg := rfl
@[simp] theorem pushWordPhase_cfg : (pushWordPhase s).cfg = s.cfg := by
  unfold pushWordPhase; split <;> rfl
@[simp] theorem pushWordPhase_cons : (pushWordPhase s).cons = s.cons := by
  unfold pushWordPhase; split <;> rfl
@[simp] theorem pushWordPhase_regs : (pushWordPhase s).regs = s.regs := by
  unfold pushWordPhase; split <;> rfl
@[simp] theorem pushWordPhase_drv : (pushWordPhase s).drv = s.drv := by
  unfold pushWordPhase; split <;> rfl
@[simp] theorem pushWordPhase_env : (pushWordPhase s).env = s.env := by
  unfold pushWordPhase; split <;> rfl
@[simp] theorem pushWordPhase_chan_busy : (pushWordPhase s).chan.busy = s.chan.busy := by
  unfold pushWordPhase; split <;> rfl
@[simp] theorem pushWordPhase_chan_stg : (pushWordPhase s).chan.stg = s.chan.stg := by
  unfold pushWordPhase; split <;> rfl
@[simp] theorem cfgPal_cfg (sub : SubPalette) (k : BitVec 2) (c : Colour) : (cfgPal sub k c s).cfg = s.cfg := by
  simp [cfgPal]
@[simp] theorem cfgPal_chan (sub : SubPalette) (k : BitVec 2) (c : Colour) : (cfgPal sub k c s).chan = s.chan := by
  simp [cfgPal]
@[simp] theorem cfgPal_prod (sub : SubPalette) (k : BitVec 2) (c : Colour) : (cfgPal sub k c s).prod = s.prod := by
  simp [cfgPal]
@[simp] theorem cfgPal_cons (sub : SubPalette) (k : BitVec 2) (c : Colour) : (cfgPal sub k c s).cons = s.cons := by
  simp [cfgPal]
@[simp] theorem cfgPal_drv (sub : SubPalette) (k : BitVec 2) (c : Colour) : (cfgPal sub k c s).drv = s.drv := by
  simp [cfgPal]
@[simp] theorem cfgScale_cfg (m : BitVec 2) : (cfgScale m s).cfg = s.cfg := by
  unfold cfgScale; split <;> simp
@[simp] theorem cfgScale_chan (m : BitVec 2) : (cfgScale m s).chan = s.chan := by
  unfold cfgScale; split <;> simp
@[simp] theorem cfgScale_prod (m : BitVec 2) : (cfgScale m s).prod = s.prod := by
  unfold cfgScale; split <;> simp
@[simp] theorem cfgScale_cons (m : BitVec 2) : (cfgScale m s).cons = s.cons := by
  unfold cfgScale; split <;> simp
@[simp] theorem cfgScale_drv (m : BitVec 2) : (cfgScale m s).drv = s.drv := by
  unfold cfgScale; split <;> simp
@[simp] theorem cfgEcm_cfg (e : Bool) : (cfgEcm e s).cfg = s.cfg := by
  simp [cfgEcm]
@[simp] theorem cfgEcm_chan (e : Bool) : (cfgEcm e s).chan = s.chan := by
  simp [cfgEcm]
@[simp] theorem cfgEcm_prod (e : Bool) : (cfgEcm e s).prod = s.prod := by
  simp [cfgEcm]
@[simp] theorem cfgEcm_cons (e : Bool) : (cfgEcm e s).cons = s.cons := by
  simp [cfgEcm]
@[simp] theorem cfgEcm_drv (e : Bool) : (cfgEcm e s).drv = s.drv := by
  simp [cfgEcm]
@[simp] theorem cfgEcmTab_cfg (i : Nat) (c : Colour) : (cfgEcmTab i c s).cfg = s.cfg := by
  simp [cfgEcmTab]
@[simp] theorem cfgEcmTab_chan (i : Nat) (c : Colour) : (cfgEcmTab i c s).chan = s.chan := by
  simp [cfgEcmTab]
@[simp] theorem cfgEcmTab_prod (i : Nat) (c : Colour) : (cfgEcmTab i c s).prod = s.prod := by
  simp [cfgEcmTab]
@[simp] theorem cfgEcmTab_cons (i : Nat) (c : Colour) : (cfgEcmTab i c s).cons = s.cons := by
  simp [cfgEcmTab]
@[simp] theorem cfgEcmTab_drv (i : Nat) (c : Colour) : (cfgEcmTab i c s).drv = s.drv := by
  simp [cfgEcmTab]
@[simp] theorem statusRead_cfg : (statusRead s).cfg = s.cfg := rfl
@[simp] theorem statusRead_chan : (statusRead s).chan = s.chan := rfl
@[simp] theorem statusRead_prod : (statusRead s).prod = s.prod := rfl
@[simp] theorem statusRead_cons : (statusRead s).cons = s.cons := rfl
@[simp] theorem statusRead_regs : (statusRead s).regs = s.regs := rfl
@[simp] theorem statusRead_drv : (statusRead s).drv = s.drv := rfl
@[simp] theorem pollOnce_cfg (more : List ProgItem) : (pollOnce more s).cfg = s.cfg := by
  unfold pollOnce; split <;> rfl
@[simp] theorem pollOnce_chan (more : List ProgItem) : (pollOnce more s).chan = s.chan := by
  unfold pollOnce; split <;> rfl
@[simp] theorem pollOnce_prod (more : List ProgItem) : (pollOnce more s).prod = s.prod := by
  unfold pollOnce; split <;> rfl
@[simp] theorem pollOnce_cons (more : List ProgItem) : (pollOnce more s).cons = s.cons := by
  unfold pollOnce; split <;> rfl
@[simp] theorem pollOnce_regs (more : List ProgItem) : (pollOnce more s).regs = s.regs := by
  unfold pollOnce; split <;> rfl
@[simp] theorem pollOnce_drv (more : List ProgItem) : (pollOnce more s).drv = s.drv := by
  unfold pollOnce; split <;> rfl
@[simp] theorem portOp_cfg (o : PortOp) : (portOp o s).cfg = s.cfg := by
  cases o <;> simp [portOp]
@[simp] theorem portOp_chan (o : PortOp) : (portOp o s).chan = s.chan := by
  cases o <;> simp [portOp]
@[simp] theorem portOp_cons (o : PortOp) : (portOp o s).cons = s.cons := by
  cases o <;> simp [portOp]
@[simp] theorem portOp_drv (o : PortOp) : (portOp o s).drv = s.drv := by
  cases o <;> simp [portOp]

/-! The consumer: every phase leaves the producer, the configuration and `STG` alone (R10). -/

@[simp] theorem popPhase_cfg : (popPhase s).cfg = s.cfg := by
  unfold popPhase; split <;> rfl
@[simp] theorem popPhase_prod : (popPhase s).prod = s.prod := by
  unfold popPhase; split <;> rfl
@[simp] theorem popPhase_regs : (popPhase s).regs = s.regs := by
  unfold popPhase; split <;> rfl
@[simp] theorem popPhase_drv : (popPhase s).drv = s.drv := by
  unfold popPhase; split <;> rfl
@[simp] theorem popPhase_env : (popPhase s).env = s.env := by
  unfold popPhase; split <;> rfl
@[simp] theorem popPhase_chan_busy : (popPhase s).chan.busy = s.chan.busy := by
  unfold popPhase; split <;> rfl
@[simp] theorem popPhase_chan_stg : (popPhase s).chan.stg = s.chan.stg := by
  unfold popPhase; split <;> rfl
@[simp] theorem resolvePhase_cfg : (resolvePhase s).cfg = s.cfg := rfl
@[simp] theorem resolvePhase_chan : (resolvePhase s).chan = s.chan := rfl
@[simp] theorem resolvePhase_prod : (resolvePhase s).prod = s.prod := rfl
@[simp] theorem resolvePhase_regs : (resolvePhase s).regs = s.regs := rfl
@[simp] theorem resolvePhase_drv : (resolvePhase s).drv = s.drv := rfl
@[simp] theorem resolvePhase_cons_cmd : (resolvePhase s).cons.cmd = s.cons.cmd := rfl
@[simp] theorem resolvePhase_cons_outbuf : (resolvePhase s).cons.outbuf = s.cons.outbuf := rfl
@[simp] theorem resolvePhase_cons_place : (resolvePhase s).cons.place = s.cons.place := rfl
@[simp] theorem resolvePhase_env_prog : (resolvePhase s).env.prog = s.env.prog := rfl
@[simp] theorem resolvePhase_env_sched : (resolvePhase s).env.sched = s.env.sched := rfl
@[simp] theorem resolvePhase_env_races : (resolvePhase s).env.races = s.env.races := rfl
@[simp] theorem resolvePhase_env_statusRet : (resolvePhase s).env.statusRet = s.env.statusRet := rfl
@[simp] theorem layoutPhase_cfg (n : Nat) : (layoutPhase n s).cfg = s.cfg := rfl
@[simp] theorem layoutPhase_chan (n : Nat) : (layoutPhase n s).chan = s.chan := rfl
@[simp] theorem layoutPhase_prod (n : Nat) : (layoutPhase n s).prod = s.prod := rfl
@[simp] theorem layoutPhase_regs (n : Nat) : (layoutPhase n s).regs = s.regs := rfl
@[simp] theorem layoutPhase_drv (n : Nat) : (layoutPhase n s).drv = s.drv := rfl
@[simp] theorem layoutPhase_cons_cmd (n : Nat) : (layoutPhase n s).cons.cmd = s.cons.cmd := rfl
@[simp] theorem layoutPhase_cons_linebuf (n : Nat) : (layoutPhase n s).cons.linebuf = s.cons.linebuf := rfl
@[simp] theorem layoutPhase_env_prog (n : Nat) : (layoutPhase n s).env.prog = s.env.prog := rfl
@[simp] theorem layoutPhase_env_sched (n : Nat) : (layoutPhase n s).env.sched = s.env.sched := rfl
@[simp] theorem layoutPhase_env_races (n : Nat) : (layoutPhase n s).env.races = s.env.races := rfl
@[simp] theorem layoutPhase_env_statusRet (n : Nat) : (layoutPhase n s).env.statusRet = s.env.statusRet := rfl
@[simp] theorem pushDirect_cfg : (pushDirect s).cfg = s.cfg := rfl
@[simp] theorem pushDirect_chan : (pushDirect s).chan = s.chan := rfl
@[simp] theorem pushDirect_prod : (pushDirect s).prod = s.prod := rfl
@[simp] theorem pushDirect_cons : (pushDirect s).cons = s.cons := rfl
@[simp] theorem pushDirect_regs : (pushDirect s).regs = s.regs := rfl
@[simp] theorem pushDirect_env : (pushDirect s).env = s.env := rfl
@[simp] theorem pushDirectDma_cfg : (pushDirectDma s).cfg = s.cfg := rfl
@[simp] theorem pushDirectDma_chan : (pushDirectDma s).chan = s.chan := rfl
@[simp] theorem pushDirectDma_prod : (pushDirectDma s).prod = s.prod := rfl
@[simp] theorem pushDirectDma_cons : (pushDirectDma s).cons = s.cons := rfl
@[simp] theorem pushDirectDma_regs : (pushDirectDma s).regs = s.regs := rfl
@[simp] theorem pushDirectDma_env : (pushDirectDma s).env = s.env := rfl
@[simp] theorem pushFb_cfg : (pushFb s).cfg = s.cfg := rfl
@[simp] theorem pushFb_chan : (pushFb s).chan = s.chan := rfl
@[simp] theorem pushFb_prod : (pushFb s).prod = s.prod := rfl
@[simp] theorem pushFb_cons : (pushFb s).cons = s.cons := rfl
@[simp] theorem pushFb_regs : (pushFb s).regs = s.regs := rfl
@[simp] theorem pushFb_env : (pushFb s).env = s.env := rfl
@[simp] theorem pushLine_cfg : (pushLine s).cfg = s.cfg := by
  unfold pushLine; split <;> [split; skip] <;> simp [pushDirectDma, pushDirect, pushFb, Driver.dmaStart]
@[simp] theorem pushLine_chan : (pushLine s).chan = s.chan := by
  unfold pushLine; split <;> [split; skip] <;> simp [pushDirectDma, pushDirect, pushFb, Driver.dmaStart]
@[simp] theorem pushLine_prod : (pushLine s).prod = s.prod := by
  unfold pushLine; split <;> [split; skip] <;> simp [pushDirectDma, pushDirect, pushFb, Driver.dmaStart]
@[simp] theorem pushLine_cons : (pushLine s).cons = s.cons := by
  unfold pushLine; split <;> [split; skip] <;> simp [pushDirectDma, pushDirect, pushFb, Driver.dmaStart]
@[simp] theorem pushLine_regs : (pushLine s).regs = s.regs := by
  unfold pushLine; split <;> [split; skip] <;> simp [pushDirectDma, pushDirect, pushFb, Driver.dmaStart]
@[simp] theorem pushLine_env : (pushLine s).env = s.env := by
  unfold pushLine; split <;> [split; skip] <;> simp [pushDirectDma, pushDirect, pushFb, Driver.dmaStart]
@[simp] theorem pushLine_drv_idleMode : (pushLine s).drv.idleMode = s.drv.idleMode := by
  unfold pushLine; split <;> [split; skip] <;> simp [pushDirectDma, pushDirect, pushFb, Driver.dmaStart]
@[simp] theorem pushLine_drv_fbWr : (pushLine s).drv.fbWr = s.drv.fbWr := by
  unfold pushLine; split <;> [split; skip] <;> simp [pushDirectDma, pushDirect, pushFb, Driver.dmaStart]
@[simp] theorem framePhase_cfg : (framePhase s).cfg = s.cfg := by
  unfold framePhase framePushDma framePushBlocking; split <;> [split; skip] <;> simp [Driver.dmaStart]
@[simp] theorem framePhase_chan : (framePhase s).chan = s.chan := by
  unfold framePhase framePushDma framePushBlocking; split <;> [split; skip] <;> simp [Driver.dmaStart]
@[simp] theorem framePhase_prod : (framePhase s).prod = s.prod := by
  unfold framePhase framePushDma framePushBlocking; split <;> [split; skip] <;> simp [Driver.dmaStart]
@[simp] theorem framePhase_regs : (framePhase s).regs = s.regs := by
  unfold framePhase framePushDma framePushBlocking; split <;> [split; skip] <;> simp [Driver.dmaStart]
@[simp] theorem framePhase_env : (framePhase s).env = s.env := by
  unfold framePhase framePushDma framePushBlocking; split <;> [split; skip] <;> simp [Driver.dmaStart]
@[simp] theorem framePhase_drv_idleMode : (framePhase s).drv.idleMode = s.drv.idleMode := by
  unfold framePhase framePushDma framePushBlocking; split <;> [split; skip] <;> simp [Driver.dmaStart]
@[simp] theorem framePhase_drv_xbuf : (framePhase s).drv.xbuf = s.drv.xbuf := by
  unfold framePhase framePushDma framePushBlocking; split <;> [split; skip] <;> simp [Driver.dmaStart]
@[simp] theorem framePhase_cons_cmd : (framePhase s).cons.cmd = s.cons.cmd := by
  unfold framePhase framePushDma framePushBlocking; split <;> [split; skip] <;> simp [Driver.dmaStart]
@[simp] theorem framePhase_cons_linebuf : (framePhase s).cons.linebuf = s.cons.linebuf := by
  unfold framePhase framePushDma framePushBlocking; split <;> [split; skip] <;> simp [Driver.dmaStart]
@[simp] theorem framePhase_cons_outbuf : (framePhase s).cons.outbuf = s.cons.outbuf := by
  unfold framePhase framePushDma framePushBlocking; split <;> [split; skip] <;> simp [Driver.dmaStart]
@[simp] theorem framePhase_cons_place : (framePhase s).cons.place = s.cons.place := by
  unfold framePhase framePushDma framePushBlocking; split <;> [split; skip] <;> simp [Driver.dmaStart]
@[simp] theorem idlePhase_cfg (m : Byte) : (idlePhase m s).cfg = s.cfg := by
  unfold idlePhase; split <;> simp [Driver.displayClear]
@[simp] theorem idlePhase_chan (m : Byte) : (idlePhase m s).chan = s.chan := by
  unfold idlePhase; split <;> simp [Driver.displayClear]
@[simp] theorem idlePhase_prod (m : Byte) : (idlePhase m s).prod = s.prod := by
  unfold idlePhase; split <;> simp [Driver.displayClear]
@[simp] theorem idlePhase_regs (m : Byte) : (idlePhase m s).regs = s.regs := by
  unfold idlePhase; split <;> simp [Driver.displayClear]
@[simp] theorem idlePhase_env (m : Byte) : (idlePhase m s).env = s.env := by
  unfold idlePhase; split <;> simp [Driver.displayClear]
@[simp] theorem idlePhase_drv_xbuf (m : Byte) : (idlePhase m s).drv.xbuf = s.drv.xbuf := by
  unfold idlePhase; split <;> simp [Driver.displayClear]
@[simp] theorem idlePhase_drv_fbWr (m : Byte) : (idlePhase m s).drv.fbWr = s.drv.fbWr := by
  unfold idlePhase; split <;> simp [Driver.displayClear]
@[simp] theorem idlePhase_drv_dma (m : Byte) : (idlePhase m s).drv.dma = s.drv.dma := by
  unfold idlePhase; split <;> simp [Driver.displayClear]
@[simp] theorem idlePhase_cons_cmd (m : Byte) : (idlePhase m s).cons.cmd = s.cons.cmd := by
  unfold idlePhase; split <;> simp [Driver.displayClear]
@[simp] theorem idlePhase_cons_linebuf (m : Byte) : (idlePhase m s).cons.linebuf = s.cons.linebuf := by
  unfold idlePhase; split <;> simp [Driver.displayClear]
@[simp] theorem idlePhase_cons_outbuf (m : Byte) : (idlePhase m s).cons.outbuf = s.cons.outbuf := by
  unfold idlePhase; split <;> simp [Driver.displayClear]
@[simp] theorem idlePhase_cons_place (m : Byte) : (idlePhase m s).cons.place = s.cons.place := by
  unfold idlePhase; split <;> simp [Driver.displayClear]
@[simp] theorem ackPhase_cfg : (ackPhase s).cfg = s.cfg := rfl
@[simp] theorem ackPhase_prod : (ackPhase s).prod = s.prod := rfl
@[simp] theorem ackPhase_regs : (ackPhase s).regs = s.regs := rfl
@[simp] theorem ackPhase_drv : (ackPhase s).drv = s.drv := rfl
@[simp] theorem ackPhase_chan_q : (ackPhase s).chan.q = s.chan.q := rfl
@[simp] theorem ackPhase_chan_stg : (ackPhase s).chan.stg = s.chan.stg := rfl
@[simp] theorem ackPhase_cons_cmd : (ackPhase s).cons.cmd = s.cons.cmd := rfl
@[simp] theorem ackPhase_cons_linebuf : (ackPhase s).cons.linebuf = s.cons.linebuf := rfl
@[simp] theorem ackPhase_cons_outbuf : (ackPhase s).cons.outbuf = s.cons.outbuf := rfl
@[simp] theorem ackPhase_cons_place : (ackPhase s).cons.place = s.cons.place := rfl
@[simp] theorem ackPhase_env_prog : (ackPhase s).env.prog = s.env.prog := rfl
@[simp] theorem ackPhase_env_sched : (ackPhase s).env.sched = s.env.sched := rfl
@[simp] theorem ackPhase_env_draws : (ackPhase s).env.draws = s.env.draws := rfl
@[simp] theorem ackPhase_env_statusRet : (ackPhase s).env.statusRet = s.env.statusRet := rfl

/-! The DMA engine writes the DMA registers and the panel only (R10). -/

@[simp] theorem dmaBeat_cfg : (dmaBeat s).cfg = s.cfg := rfl
@[simp] theorem dmaBeat_chan : (dmaBeat s).chan = s.chan := rfl
@[simp] theorem dmaBeat_prod : (dmaBeat s).prod = s.prod := rfl
@[simp] theorem dmaBeat_cons : (dmaBeat s).cons = s.cons := rfl
@[simp] theorem dmaBeat_regs : (dmaBeat s).regs = s.regs := rfl
@[simp] theorem dmaBeat_env : (dmaBeat s).env = s.env := rfl
@[simp] theorem dmaBeat_drv_idleMode : (dmaBeat s).drv.idleMode = s.drv.idleMode := rfl
@[simp] theorem dmaBeat_drv_xbuf : (dmaBeat s).drv.xbuf = s.drv.xbuf := rfl
@[simp] theorem dmaBeat_drv_fb0 : (dmaBeat s).drv.fb0 = s.drv.fb0 := rfl
@[simp] theorem dmaBeat_drv_fb1 : (dmaBeat s).drv.fb1 = s.drv.fb1 := rfl
@[simp] theorem dmaBeat_drv_fbWr : (dmaBeat s).drv.fbWr = s.drv.fbWr := rfl
@[simp] theorem dmaBeat_drv_dma_busy : (dmaBeat s).drv.dma.busy = s.drv.dma.busy := rfl
@[simp] theorem dmaBeat_drv_dma_src : (dmaBeat s).drv.dma.src = s.drv.dma.src := rfl
@[simp] theorem dmaBeat_drv_dma_len : (dmaBeat s).drv.dma.len = s.drv.dma.len := rfl
@[simp] theorem dmaBeat_drv_panel_win : (dmaBeat s).drv.panel.win = s.drv.panel.win := rfl
@[simp] theorem dmaComplete_cfg : (dmaComplete s).cfg = s.cfg := rfl
@[simp] theorem dmaComplete_chan : (dmaComplete s).chan = s.chan := rfl
@[simp] theorem dmaComplete_prod : (dmaComplete s).prod = s.prod := rfl
@[simp] theorem dmaComplete_cons : (dmaComplete s).cons = s.cons := rfl
@[simp] theorem dmaComplete_regs : (dmaComplete s).regs = s.regs := rfl
@[simp] theorem dmaComplete_env : (dmaComplete s).env = s.env := rfl
@[simp] theorem dmaComplete_drv_idleMode : (dmaComplete s).drv.idleMode = s.drv.idleMode := rfl
@[simp] theorem dmaComplete_drv_xbuf : (dmaComplete s).drv.xbuf = s.drv.xbuf := rfl
@[simp] theorem dmaComplete_drv_fb0 : (dmaComplete s).drv.fb0 = s.drv.fb0 := rfl
@[simp] theorem dmaComplete_drv_fb1 : (dmaComplete s).drv.fb1 = s.drv.fb1 := rfl
@[simp] theorem dmaComplete_drv_fbWr : (dmaComplete s).drv.fbWr = s.drv.fbWr := rfl
@[simp] theorem dmaComplete_drv_panel : (dmaComplete s).drv.panel = s.drv.panel := rfl
@[simp] theorem dmaComplete_drv_dma_src : (dmaComplete s).drv.dma.src = s.drv.dma.src := rfl
@[simp] theorem dmaComplete_drv_dma_len : (dmaComplete s).drv.dma.len = s.drv.dma.len := rfl
@[simp] theorem dmaComplete_drv_dma_pos : (dmaComplete s).drv.dma.pos = s.drv.dma.pos := rfl

/-! The phases moved to. -/

@[simp] theorem resolvePhase_cphase : (resolvePhase s).cons.cphase = .layout := rfl
@[simp] theorem layoutPhase_cphase (n : Nat) : (layoutPhase n s).cons.cphase = .push := rfl
@[simp] theorem framePhase_cphase : (framePhase s).cons.cphase = .ack := rfl
@[simp] theorem ackPhase_cphase : (ackPhase s).cons.cphase = .pop := rfl
@[simp] theorem ackPhase_busy : (ackPhase s).chan.busy = false := rfl
@[simp] theorem markPhase_busy : (markPhase s).chan.busy = true := rfl
@[simp] theorem markPhase_pphase : (markPhase s).prod.pphase = .push := rfl
@[simp] theorem markPhase_pcmd : (markPhase s).prod.pcmd = s.prod.pcmd := rfl
@[simp] theorem copyPhase_pphase : (copyPhase s).prod.pphase = .mark := rfl
@[simp] theorem copyPhase_pcmd : (copyPhase s).prod.pcmd = s.prod.pcmd := rfl
@[simp] theorem idlePhase_cphase (m : Byte) (h : s.dmaInFlight = false) : (idlePhase m s).cons.cphase = .pop := by
  simp [idlePhase, h]

/-! The in-flight count by phase (R92). -/

@[simp] theorem portLines_idle (w : Word) : portLines .idle w = 0 := rfl
@[simp] theorem portLines_wait (w : Word) : portLines .wait w = 0 := rfl
@[simp] theorem portLines_copy (w : Word) : portLines .copy w = 0 := rfl
@[simp] theorem portLines_mark (w : Word) : portLines .mark w = 0 := rfl
theorem portLines_push (w : Word) : portLines .push w = if isLine w then 1 else 0 := by simp [portLines]
@[simp] theorem cmdLines_pop (w : Word) : cmdLines .pop w = 0 := rfl
@[simp] theorem cmdLines_idle (w : Word) : cmdLines .idle w = 0 := rfl
theorem cmdLines_dispatch (w : Word) : cmdLines .dispatch w = if isLine w then 1 else 0 := by simp [cmdLines]
theorem cmdLines_line {c : CPhase} {w : Word} (h : c.ofLine = true) (hw : isLine w = true) : cmdLines c w = 1 := by
  simp [cmdLines, h, hw]
theorem portLines_le_one (p : PPhase) (w : Word) : portLines p w ≤ 1 := by unfold portLines; split <;> omega
theorem cmdLines_le_one (c : CPhase) (w : Word) : cmdLines c w ≤ 1 := by unfold cmdLines; split <;> omega

/-- A port operation other than `ENQUEUE` leaves the producer port alone. -/
theorem portOp_prod (o : PortOp) : (portOp o s).prod = s.prod ∨
    ∃ tag data codes, o = .enqueue tag data codes ∧ (portOp o s).prod =
      ⟨.wait, encodeWord tag data, if tag = 1#8 then s.prod.pline.writeRow 0 codes else s.prod.pline⟩ := by
  cases o <;> simp [portOp, acceptEnqueue]

end

end Sys2Proof.Machine
end

