-- ==== Sys2Proof/Laws/Tables.lean ====
section
/-! SUPPORT. The laws of the repeat predicate and the offset tables (41_compositor.md R104 to R106). -/

namespace Sys2Proof.Machine

theorem rep_cases (i : Nat) : rep i = 0 ∨ rep i = 1 := by unfold rep; split <;> simp

theorem rep_le_one (i : Nat) : rep i ≤ 1 := by rcases rep_cases i with h | h <;> omega

/-- The predicate has period 6 (R104). -/
theorem rep_mod_six (i : Nat) : rep (i % 6) = rep i := by
  have h2 : i % 6 % 2 = i % 2 := by omega
  have h6 : i % 6 % 6 = i % 6 := by omega
  simp [rep, h2, h6]

@[simp] theorem repCount_zero : repCount 0 = 0 := rfl

/-- `repCount` counts the repeated indices below its argument (R4, R104). -/
theorem repCount_succ (n : Nat) : repCount (n + 1) = repCount n + rep n := by
  have hr : n % 6 < 6 := Nat.mod_lt _ (by omega)
  have hrep := rep_mod_six n
  rcases Nat.lt_or_ge (n % 6) 5 with h | h
  · have h1 : (n + 1) / 6 = n / 6 := by omega
    have h2 : (n + 1) % 6 = n % 6 + 1 := by omega
    simp only [repCount, h1, h2, List.range_succ, List.map_append, List.sum_append, List.map_cons,
      List.map_nil, List.sum_cons, List.sum_nil, hrep]
    omega
  · have h5 : n % 6 = 5 := by omega
    have h1 : (n + 1) / 6 = n / 6 + 1 := by omega
    have h2 : (n + 1) % 6 = 0 := by omega
    have h7 : ((List.range 5).map rep).sum = 3 := by decide
    have h8 : rep n = 1 := by rw [← hrep, h5]; decide
    simp only [repCount, h1, h2, h5, h7, h8]
    simp
    omega

/-- `XOFF` accumulates `1 + rep` (R105), so it is the index plus the repeats before it. -/
theorem xoff_eq (x : Nat) : xoff x = x + repCount x := by
  induction x with
  | zero => rfl
  | succ x ih => rw [xoff, ih, repCount_succ]; omega

@[simp] theorem vrep_normal (i : Nat) : vrep .normal i = 0 := rfl
@[simp] theorem vrep_stretch (i : Nat) : vrep .stretch i = rep i := rfl
@[simp] theorem vrep_keepAspect (i : Nat) : vrep .keepAspect i = rep i := rfl

theorem vrep_le_one (m : ScalingMode) (i : Nat) : vrep m i ≤ 1 := by
  cases m <;> simp [rep_le_one]

@[simp] theorem yoff_zero (P : Params) (m : ScalingMode) : yoff P m 0 = ybase P m := rfl
theorem yoff_succ (P : Params) (m : ScalingMode) (i : Nat) :
    yoff P m (i + 1) = yoff P m i + 1 + vrep m i := rfl

/-- What a legal parameter set satisfies (R4). -/
theorem legal_iff (P : Params) : P.legal = true ↔
    1 ≤ P.srcW ∧ (1 ≤ P.srcH ∧ P.srcH ≤ 256) ∧ 2 * P.srcW ≤ P.panelW ∧
      (outH P ≤ P.panelH ∧ P.srcH ≤ P.panelH) ∧ (P.fbCount = 1 ∨ P.fbCount = 2) ∧
      P.ecmN ∈ [1, 2, 4, 8, 16, 32, 64, 128, 256] ∧ 1 ≤ P.fifoDepth := by
  simp only [Params.legal, Params.widthOk, Params.heightOk, Params.panelWidthOk, Params.panelHeightOk,
    Params.fbCountOk, Params.ecmSizeOk, Params.fifoOk, Bool.and_eq_true, Bool.or_eq_true, decide_eq_true_eq,
    List.contains_iff_mem, and_assoc]

end Sys2Proof.Machine
end

