-- ==== Sys2Proof/Laws/Driver.lean ====
section
/-! SUPPORT. The laws of the Display Driver (42_display_driver.md): the units of a placed line, the rows written into a
framebuffer, a fill, and the windows the driver sets. -/

namespace Sys2Proof.Machine

section
variable (s : State) (P : Params)

/-- Row `r`, column `k` of the line's units is the row's unit `k` (R132, R137). -/
theorem getElem_flatten_replicate {α : Type} (us : List α) (n r k : Nat) (hk : k < us.length)
    (h : r * us.length + k < ((List.replicate n us).flatten).length) :
    ((List.replicate n us).flatten)[r * us.length + k] = us[k] := by
  induction n generalizing r with
  | zero => simp at h
  | succ n ih =>
    simp only [List.replicate_succ, List.flatten_cons] at h ⊢
    cases r with
    | zero => simp [List.getElem_append_left hk]
    | succ r =>
      have he : (r + 1) * us.length + k = us.length + (r * us.length + k) := by
        rw [Nat.add_mul, Nat.one_mul]; omega
      simp only [he] at h ⊢
      rw [List.getElem_append_right (by omega)]
      simp only [Nat.add_sub_cancel_left]
      exact ih r _

@[simp] theorem length_rowUnits : (rowUnits s).length = s.cons.place.outW := by simp [rowUnits]

theorem getElem_rowUnits (k : Nat) (h : k < (rowUnits s).length) :
    (rowUnits s)[k] = bs s.cfg (s.cons.outbuf.read k) := by simp [rowUnits]

@[simp] theorem length_lineUnits : (lineUnits s).length = s.cons.place.outRows * s.cons.place.outW := by
  simp [lineUnits]

theorem getElem_lineUnits {r k : Nat} (hk : k < s.cons.place.outW)
    (h : r * s.cons.place.outW + k < (lineUnits s).length) :
    (lineUnits s)[r * s.cons.place.outW + k] = bs s.cfg (s.cons.outbuf.read k) := by
  have h2 := getElem_flatten_replicate (rowUnits s) s.cons.place.outRows r k (by simpa using hk)
    (by simpa [lineUnits] using h)
  simp only [length_rowUnits] at h2
  rw [← getElem_rowUnits s k (by simpa using hk), ← h2]
  rfl

/-- Row by row, column by column is every unit index. -/
theorem mul_add_lt {r k R W : Nat} (hr : r < R) (hk : k < W) : r * W + k < R * W :=
  calc r * W + k < r * W + W := by omega
    _ = (r + 1) * W := by rw [Nat.add_mul, Nat.one_mul]
    _ ≤ R * W := Nat.mul_le_mul_right _ hr

/-! The rows written into the writable buffer (R136). -/

/-- The first `n` rows. -/
def rowsLoop (n : Nat) (m : Memory 16) : Memory 16 :=
  (List.range n).foldl
    (fun m r => m.writeRow (pixelAddr s.cfg (s.cons.place.outY + r) s.cons.place.outX) (rowUnits s)) m

theorem fbRows_eq (m : Memory 16) : fbRows s m = rowsLoop s s.cons.place.outRows m := rfl

theorem rowsLoop_succ (n : Nat) (m : Memory 16) : rowsLoop s (n + 1) m =
    (rowsLoop s n m).writeRow (pixelAddr s.cfg (s.cons.place.outY + n) s.cons.place.outX) (rowUnits s) := by
  simp [rowsLoop, List.range_succ]

variable {s} in
theorem wf_rowsLoop (n : Nat) {m : Memory 16} (h : m.wf = true) : (rowsLoop s n m).wf = true := by
  induction n with
  | zero => exact h
  | succ n ih => rw [rowsLoop_succ]; exact Memory.wf_writeRow _ _ ih

variable {s} in
theorem within_rowsLoop (n : Nat) {m : Memory 16} (hx : s.cons.place.outX + s.cons.place.outW ≤ s.cfg.panelW)
    (hy : s.cons.place.outY + n ≤ s.cfg.panelH) (h : m.within s.cfg.panelN = true) :
    (rowsLoop s n m).within s.cfg.panelN = true := by
  induction n with
  | zero => exact h
  | succ n ih =>
    rw [rowsLoop_succ]
    refine Memory.within_writeRow _ _ ?_ (ih (by omega))
    have h1 : pixelAddr s.cfg (s.cons.place.outY + n) 0 + s.cfg.panelW ≤ s.cfg.panelN := by
      unfold pixelAddr Params.panelN
      calc (s.cons.place.outY + n) * s.cfg.panelW + 0 + s.cfg.panelW
          = (s.cons.place.outY + n + 1) * s.cfg.panelW := by ring
        _ ≤ s.cfg.panelH * s.cfg.panelW := Nat.mul_le_mul_right _ (by omega)
        _ = s.cfg.panelW * s.cfg.panelH := Nat.mul_comm _ _
    unfold pixelAddr at h1 ⊢
    simp only [length_rowUnits]
    omega

variable {s} in
/-- Outside the placed line the rows change nothing. -/
theorem rowsLoop_outside (n : Nat) (m : Memory 16) {c : Cursor}
    (hx : s.cons.place.outX + s.cons.place.outW ≤ s.cfg.panelW) (hc : c.x < s.cfg.panelW)
    (hout : ¬ (s.cons.place.outX ≤ c.x ∧ c.x < s.cons.place.outX + s.cons.place.outW ∧
      s.cons.place.outY ≤ c.y ∧ c.y < s.cons.place.outY + n)) :
    (rowsLoop s n m).read (pixelAddr s.cfg c.y c.x) = m.read (pixelAddr s.cfg c.y c.x) := by
  induction n with
  | zero => rfl
  | succ n ih =>
    rw [rowsLoop_succ, Memory.read_writeRow_outside, ih (by omega)]
    simp only [length_rowUnits]
    by_contra hcon
    obtain ⟨j, hj⟩ : ∃ j, pixelAddr s.cfg c.y c.x
        = pixelAddr s.cfg (s.cons.place.outY + n) s.cons.place.outX + j :=
      ⟨_, (Nat.add_sub_cancel' (by omega : _ ≤ pixelAddr s.cfg c.y c.x)).symm⟩
    have hjlt : j < s.cons.place.outW := by omega
    have h2 : pixelAddr s.cfg c.y c.x
        = pixelAddr s.cfg (s.cons.place.outY + n) (s.cons.place.outX + j) := by
      rw [hj]; unfold pixelAddr; omega
    obtain ⟨hy, hx'⟩ := (pixelAddr_inj hc (by omega)).1 h2
    omega

variable {s} in
/-- Every row holds the row's units. -/
theorem rowsLoop_inside (n : Nat) {m : Memory 16} (h : m.wf = true) {r k : Nat}
    (hx : s.cons.place.outX + s.cons.place.outW ≤ s.cfg.panelW) (hr : r < n) (hk : k < s.cons.place.outW) :
    (rowsLoop s n m).read (pixelAddr s.cfg (s.cons.place.outY + r) (s.cons.place.outX + k))
      = bs s.cfg (s.cons.outbuf.read k) := by
  induction n with
  | zero => omega
  | succ n ih =>
    rcases Nat.lt_or_ge r n with hn | hn
    · rw [rowsLoop_succ, Memory.read_writeRow_outside, ih hn]
      simp only [length_rowUnits]
      left
      unfold pixelAddr
      have : (s.cons.place.outY + r + 1) * s.cfg.panelW ≤ (s.cons.place.outY + n) * s.cfg.panelW :=
        Nat.mul_le_mul_right _ (by omega)
      rw [Nat.add_mul, Nat.one_mul] at this
      omega
    · have hrn : r = n := by omega
      subst hrn
      have he : pixelAddr s.cfg (s.cons.place.outY + r) (s.cons.place.outX + k)
          = pixelAddr s.cfg (s.cons.place.outY + r) s.cons.place.outX + k := by unfold pixelAddr; omega
      rw [rowsLoop_succ, he, Memory.read_writeRow_inside _ _ k (by simpa using hk) (wf_rowsLoop r h),
        getElem_rowUnits]

/-! A fill (R145). -/

theorem wf_fillBuffer {m : Memory 16} (c : Colour) (h : m.wf = true) : (fillBuffer P m c).wf = true :=
  Memory.wf_writeRow _ _ h

theorem within_fillBuffer {m : Memory 16} (c : Colour) (h : m.within P.panelN = true) :
    (fillBuffer P m c).within P.panelN = true := Memory.within_writeRow _ _ (by simp) h

theorem read_fillBuffer {m : Memory 16} (c : Colour) (h : m.wf = true) {a : Nat} (ha : a < P.panelN) :
    (fillBuffer P m c).read a = c := by
  have := Memory.read_writeRow_inside (List.replicate P.panelN c) 0 a (by simpa using ha) h
  simpa [fillBuffer] using this

theorem clearBuffers_fb (d : Driver) : (d.clearBuffers P).fb0 =
      (if P.driverMode = .framebuffered then fillBuffer P d.fb0 (bs P P.clearColour) else d.fb0) ∧
    (d.clearBuffers P).fb1 = (if P.driverMode = .framebuffered ∧ P.fbCount = 2 then
      fillBuffer P d.fb1 (bs P P.clearColour) else d.fb1) := by
  unfold Driver.clearBuffers
  cases hm : P.driverMode <;> by_cases hf : P.fbCount = 2 <;> simp [hf]

/-! The windows. -/

/-- The window over the whole panel (R139, R140, R145). -/
theorem fullWindow_size (hW : 1 ≤ P.panelW) (hH : 1 ≤ P.panelH) (p : Panel) :
    (p.setFullWindow P).win.width = P.panelW ∧ (p.setFullWindow P).win.height = P.panelH ∧
      (p.setFullWindow P).win.width * (p.setFullWindow P).win.height = P.panelN := by
  have h1 : (p.setFullWindow P).win.width = P.panelW := by
    show P.panelW - 1 - 0 + 1 = P.panelW; omega
  have h2 : (p.setFullWindow P).win.height = P.panelH := by
    show P.panelH - 1 - 0 + 1 = P.panelH; omega
  exact ⟨h1, h2, by rw [h1, h2]; rfl⟩

/-- A stream of `PANEL_N` units through the whole window loads the panel element for element (R129). -/
theorem stream_fullWindow {P : Params} (hW : 1 ≤ P.panelW) (hH : 1 ≤ P.panelH) {p : Panel} (hp : p.pix.wf = true)
    (us : List Colour) (hu : us.length = P.panelN) :
    (∀ a (h : a < P.panelN), ((p.setFullWindow P).stream P us).pix.read a = us[a]) ∧
    ((p.setFullWindow P).stream P us).cur = ⟨0, 0⟩ := by
  obtain ⟨hw, hh, hn⟩ := fullWindow_size P hW hH p
  have hpos : 0 < P.panelN := Nat.mul_pos hW hH
  have hcur : (p.setFullWindow P).cur = (p.setFullWindow P).win.cell 0 := by rw [Window.cell_zero]; rfl
  have h := Panel.stream_spec (P := P) us (p := p.setFullWindow P) (j := 0) (Nat.zero_le _)
    (by show P.panelW - 1 < P.panelW; omega) (Nat.zero_le _) hp hcur (by omega) (by omega)
  refine ⟨fun a ha => ?_, ?_⟩
  · have h1 := h.1 a (by omega)
    rw [Nat.zero_add, Window.cell_x, Window.cell_y, hw] at h1
    have h2 : pixelAddr P ((p.setFullWindow P).win.y0 + a / P.panelW) ((p.setFullWindow P).win.x0 + a % P.panelW)
        = a := by
      have : pixelAddr P (0 + a / P.panelW) (0 + a % P.panelW) = a := by
        rw [Nat.zero_add, Nat.zero_add, pixelAddr_div_mod]
      exact this
    rwa [h2] at h1
  · rw [h.2.2, Nat.zero_add, hu, hn, if_pos rfl, Window.cell_zero]
    rfl

/-- The line's window has the line's size (R132, R137). -/
theorem lineWindow_size (p : Panel) (hw : 1 ≤ s.cons.place.outW) (hr : 1 ≤ s.cons.place.outRows) :
    (lineWindow s p).win.width = s.cons.place.outW ∧ (lineWindow s p).win.height = s.cons.place.outRows := by
  constructor
  · show s.cons.place.outX + s.cons.place.outW - 1 - s.cons.place.outX + 1 = _; omega
  · show s.cons.place.outY + s.cons.place.outRows - 1 - s.cons.place.outY + 1 = _; omega

theorem placementInside_iff : placementInside s = true ↔
    1 ≤ s.cons.place.outW ∧ s.cons.place.outW ≤ 2 * s.cfg.srcW ∧ 1 ≤ s.cons.place.outRows ∧
    s.cons.place.outRows ≤ 2 ∧ s.cons.place.outX + s.cons.place.outW ≤ s.cfg.panelW ∧
    s.cons.place.outY + s.cons.place.outRows ≤ s.cfg.panelH := by
  simp [placementInside, and_assoc]

/-- What streaming the line through its window leaves (R129, R132). -/
theorem stream_line {s : State} (hin : placementInside s = true) {p : Panel} (hp : p.pix.wf = true) :
    (∀ r < s.cons.place.outRows, ∀ k < s.cons.place.outW,
      ((lineWindow s p).stream s.cfg (lineUnits s)).pix.read
        (pixelAddr s.cfg (s.cons.place.outY + r) (s.cons.place.outX + k)) = bs s.cfg (s.cons.outbuf.read k)) ∧
    (∀ c : Cursor, c.InPanel s.cfg → ¬ s.cons.place.Covers c →
      ((lineWindow s p).stream s.cfg (lineUnits s)).pix.read (pixelAddr s.cfg c.y c.x)
        = p.pix.read (pixelAddr s.cfg c.y c.x)) ∧
    ((lineWindow s p).stream s.cfg (lineUnits s)).cur = ⟨s.cons.place.outX, s.cons.place.outY⟩ := by
  obtain ⟨h1, h2, h3, h4, h5, h6⟩ := (placementInside_iff s).1 hin
  obtain ⟨hw, hh⟩ := lineWindow_size s p h1 h3
  have hcur : (lineWindow s p).cur = (lineWindow s p).win.cell 0 := by rw [Window.cell_zero]; rfl
  have hpos : 0 < (lineWindow s p).win.width * (lineWindow s p).win.height := by
    rw [hw, hh]; exact Nat.mul_pos (by omega) (by omega)
  have hlen : (lineUnits s).length = (lineWindow s p).win.width * (lineWindow s p).win.height := by
    rw [hw, hh, length_lineUnits, Nat.mul_comm]
  have hx01 : (lineWindow s p).win.x0 ≤ (lineWindow s p).win.x1 := by
    show s.cons.place.outX ≤ s.cons.place.outX + s.cons.place.outW - 1; omega
  have hy01 : (lineWindow s p).win.y0 ≤ (lineWindow s p).win.y1 := by
    show s.cons.place.outY ≤ s.cons.place.outY + s.cons.place.outRows - 1; omega
  have hx1 : (lineWindow s p).win.x1 < s.cfg.panelW := by
    show s.cons.place.outX + s.cons.place.outW - 1 < _; omega
  have h := Panel.stream_spec (P := s.cfg) (lineUnits s) (p := lineWindow s p) (j := 0) hx01 hx1 hy01 hp hcur
    hpos (by omega)
  have hcell : ∀ r k, k < s.cons.place.outW → (lineWindow s p).win.cell (r * s.cons.place.outW + k)
      = ⟨s.cons.place.outX + k, s.cons.place.outY + r⟩ := by
    intro r k hk
    have := Window.cell_row_col (w := (lineWindow s p).win) r (k := k) (by rw [hw]; exact hk)
    rw [hw] at this
    exact this
  refine ⟨fun r hr k hk => ?_, fun c hc hcov => ?_, ?_⟩
  · have hi : r * s.cons.place.outW + k < (lineUnits s).length := by
      rw [length_lineUnits]; exact mul_add_lt hr hk
    have h1 := h.1 _ hi
    rw [Nat.zero_add, hcell r k hk, getElem_lineUnits s hk hi] at h1
    exact h1
  · refine h.2.1 _ fun i hi heq => hcov ?_
    have hin := Window.cell_inside hx01 hy01 (j := 0 + i) (by omega)
    obtain ⟨hy, hx⟩ := (pixelAddr_inj hc.1 (by omega)).1 heq
    have e1 : (lineWindow s p).win.x0 = s.cons.place.outX := rfl
    have e2 : (lineWindow s p).win.x1 = s.cons.place.outX + s.cons.place.outW - 1 := rfl
    have e3 : (lineWindow s p).win.y0 = s.cons.place.outY := rfl
    have e4 : (lineWindow s p).win.y1 = s.cons.place.outY + s.cons.place.outRows - 1 := rfl
    refine ⟨by omega, by omega, by omega, by omega⟩
  · rw [h.2.2, Nat.zero_add, hlen, if_pos rfl, Window.cell_zero]
    rfl

end

end Sys2Proof.Machine
end

