-- ==== Sys2Proof/Laws/Dma.lean ====
section
/-! SUPPORT. The laws of the DMA engine (42_display_driver.md R133 to R135): the cursor stays in the window, and what
several beats one after another leave. -/

namespace Sys2Proof.Machine

section

/-- A write keeps the cursor inside the window (R27, R128). -/
theorem Window.advance_inside {w : Window} {c : Cursor} (hx : w.x0 ≤ c.x ∧ c.x ≤ w.x1) (hy : w.y0 ≤ c.y ∧ c.y ≤ w.y1) :
    (w.x0 ≤ (w.advance c).x ∧ (w.advance c).x ≤ w.x1) ∧ (w.y0 ≤ (w.advance c).y ∧ (w.advance c).y ≤ w.y1) := by
  unfold Window.advance
  by_cases h1 : c.x < w.x1
  · rw [if_pos h1]; exact ⟨⟨by simp only; omega, by simp only; omega⟩, hy⟩
  · rw [if_neg h1]
    by_cases h2 : c.y < w.y1
    · rw [if_pos h2]; refine ⟨⟨by simp only; omega, by simp only; omega⟩, by simp only; omega, by simp only; omega⟩
    · rw [if_neg h2]; refine ⟨⟨by simp only; omega, by simp only; omega⟩, by simp only; omega, by simp only; omega⟩

theorem dmaTurns_add (a b : Nat) {s t : State} (h : dmaTurns a s = .next t) : dmaTurns (a + b) s = dmaTurns b t := by
  induction a generalizing s with
  | zero => rw [dmaTurns_zero] at h; cases h; rw [Nat.zero_add]
  | succ a ih =>
    rw [show a + 1 + b = (a + b) + 1 by omega]
    cases hs : dmaTurn s with
    | next u => rw [dmaTurns_succ hs] at h ⊢; exact ih h
    | fault r => simp [dmaTurns, hs] at h
    | refused r => simp [dmaTurns, hs] at h

variable {s : State}

/-- In a window inside the panel the beat's element exists (R27, R44). -/
theorem cursor_inPanel (h : s.WindowInside) : s.drv.panel.cur.x < s.cfg.panelW ∧ s.drv.panel.cur.y < s.cfg.panelH := by
  obtain ⟨h1, h2, h3, h4, h5, h6, h7, h8⟩ := h
  omega

theorem dmaTurn_beat (hf : s.dmaInFlight = true) (hp : s.drv.dma.pos < s.drv.dma.len)
    (hs : s.drv.dma.len ≤ sourceSize s.cfg s.drv.dma.src) (hw : s.WindowInside) : dmaTurn s = .next (dmaBeat s) := by
  have hb : beatInside s = true := by
    have := cursor_inPanel hw
    simp [beatInside]; omega
  simp [dmaTurn, hf, hp, hb]

theorem dmaTurn_complete (hf : s.dmaInFlight = true) (hp : s.drv.dma.len ≤ s.drv.dma.pos) :
    dmaTurn s = .next (dmaComplete s) := by
  simp [dmaTurn, hf, show ¬ s.drv.dma.pos < s.drv.dma.len by omega]

theorem windowInside_dmaBeat (hw : s.WindowInside) : (dmaBeat s).WindowInside := by
  obtain ⟨h1, h2, h3, h4, h5, h6, h7, h8⟩ := hw
  obtain ⟨⟨a, b⟩, c, d⟩ := Window.advance_inside (w := s.drv.panel.win) (c := s.drv.panel.cur) ⟨h5, h6⟩ ⟨h7, h8⟩
  exact ⟨h1, h2, h3, h4, a, b, c, d⟩

/-- The state after `k` beats: the units streamed to the panel, and counted. -/
def afterBeats (s : State) (k : Nat) : State :=
  { s with drv := { s.drv with
      panel := s.drv.panel.stream s.cfg ((List.range k).map fun i => s.sourceUnit (s.drv.dma.pos + i))
      dma := { s.drv.dma with pos := s.drv.dma.pos + k } } }

theorem afterBeats_zero : afterBeats s 0 = s := rfl

/-- The units of a transfer do not change as it moves them. -/
theorem sourceUnit_dmaBeat (j : Nat) : (dmaBeat s).sourceUnit j = s.sourceUnit j := by
  have h : ∀ src, Driver.source (dmaBeat s).drv src = Driver.source s.drv src := by
    intro src; rcases src with _ | b
    · rfl
    · cases b <;> rfl
  simp only [State.sourceUnit, dmaBeat_drv_dma_src, dmaBeat_cfg, h]

theorem afterBeats_succ (k : Nat) : afterBeats (dmaBeat s) k = afterBeats s (k + 1) := by
  have hs : ∀ i, (dmaBeat s).sourceUnit ((dmaBeat s).drv.dma.pos + i) = s.sourceUnit (s.drv.dma.pos + (i + 1)) := by
    intro i
    rw [sourceUnit_dmaBeat]
    exact congrArg s.sourceUnit (show s.drv.dma.pos + 1 + i = _ by omega)
  unfold afterBeats
  simp only [hs, List.range_succ_eq_map, List.map_cons, List.map_map, Panel.stream_cons, Function.comp_def,
    Nat.succ_eq_add_one, Nat.add_zero]
  have hpos : (dmaBeat s).drv.dma.pos + k = s.drv.dma.pos + (k + 1) := by
    show s.drv.dma.pos + 1 + k = _; omega
  rw [hpos]
  rfl

/-- `k` beats of a transfer that has that many units left (R134). -/
theorem dmaTurns_beats (k : Nat) {s : State} (hf : s.dmaInFlight = true) (hk : s.drv.dma.pos + k ≤ s.drv.dma.len)
    (hs : s.drv.dma.len ≤ sourceSize s.cfg s.drv.dma.src) (hw : s.WindowInside) :
    dmaTurns k s = .next (afterBeats s k) := by
  induction k generalizing s with
  | zero => rfl
  | succ k ih =>
    rw [dmaTurns_succ (dmaTurn_beat hf (by omega) hs hw), ih (s := dmaBeat s), afterBeats_succ]
    · exact hf
    · show s.drv.dma.pos + 1 + k ≤ s.drv.dma.len; omega
    · exact hs
    · exact windowInside_dmaBeat hw

/-- A transfer runs to its end: the beats that are left and one completion step (R134, R135). -/
theorem dmaTurns_all (hf : s.dmaInFlight = true) (hk : s.drv.dma.pos ≤ s.drv.dma.len)
    (hs : s.drv.dma.len ≤ sourceSize s.cfg s.drv.dma.src) (hw : s.WindowInside) :
    dmaTurns (s.drv.dma.len - s.drv.dma.pos + 1) s
      = .next (dmaComplete (afterBeats s (s.drv.dma.len - s.drv.dma.pos))) := by
  rw [dmaTurns_add _ _ (dmaTurns_beats _ hf (by omega) hs hw), dmaTurns_succ (dmaTurn_complete _ _), dmaTurns_zero]
  · exact hf
  · show s.drv.dma.len ≤ s.drv.dma.pos + (s.drv.dma.len - s.drv.dma.pos); omega

end

end Sys2Proof.Machine
end

