-- ==== Sys2Proof/Laws/Bounds.lean ====
section
/-! SUPPORT. Bounds: what `reset` leaves unspecified stays within the spec's limits (10_state.md R31), and windows,
cursors and streams stay inside the panel (R27, 20_memory.md R44); two facts about the framebuffers' names. -/

namespace Sys2Proof.Machine

/-- A framebuffer put back unchanged. -/
theorem Driver.setFb_fb (d : Driver) (b : BufId) : d.setFb b (d.fb b) = d := by cases b <;> rfl

/-- The swap changes `FB_WR` only (R141). -/
theorem Driver.swap_eq (P : Params) (d : Driver) :
    d.swap P = { d with fbWr := if P.fbCount = 2 then d.fbWr.other else d.fbWr } := by
  unfold Driver.swap; split <;> rfl

/-- Either framebuffer of a canonical state is in canonical form. -/
theorem State.Canonical.fb_wf {s : State} (h : s.Canonical) (b : BufId) : (s.drv.fb b).wf = true := by
  cases b
  · exact h.2.2.2.2.2.2.1
  · exact h.2.2.2.2.2.2.2.1

/-- A memory that `reset` leaves unspecified is in canonical form. -/
theorem freeMemory_wf (w d r n : Nat) : (freeMemory w d r n).wf = true := Memory.wf_writeRow _ _ rfl

/-- A memory that `reset` leaves unspecified lies in its space. -/
theorem freeMemory_within (w d r n : Nat) : (freeMemory w d r n).within n = true := Memory.within_writeRow _ _ (by simp) rfl

/-- A natural that `reset` leaves unspecified lies within its limits. -/
theorem freeBetween_bounds (d r e : Nat) {lo hi : Nat} (h : lo ≤ hi) :
    lo ≤ freeBetween d r e lo hi ∧ freeBetween d r e lo hi ≤ hi := by
  unfold freeBetween
  have := Nat.mod_lt (Config.freeReset d r e) (show 0 < hi - lo + 1 by omega)
  omega

/-- A stream into a window inside the panel keeps every listed address inside it (R44). -/
theorem Panel.stream_within {P : Params} (us : List Colour) :
    ∀ {p : Panel}, p.win.x1 < P.panelW → p.win.y1 < P.panelH →
    p.win.x0 ≤ p.cur.x → p.cur.x ≤ p.win.x1 → p.win.y0 ≤ p.cur.y → p.cur.y ≤ p.win.y1 → p.pix.within P.panelN = true →
    (p.stream P us).pix.within P.panelN = true := by
  induction us with
  | nil => intros; assumption
  | cons u us ih =>
    intro p h1 h2 h3 h4 h5 h6 h
    obtain ⟨⟨a, b⟩, c, d⟩ := Window.advance_inside (w := p.win) (c := p.cur) ⟨h3, h4⟩ ⟨h5, h6⟩
    exact ih (p := p.put P u) h1 h2 a b c d (Memory.within_write u (pixelAddr_lt (by omega) (by omega)) h)

/-- A stream leaves the cursor inside the window (R27, R128). -/
theorem Panel.stream_cursor_inside {P : Params} (us : List Colour) : ∀ {p : Panel},
    p.win.x0 ≤ p.cur.x ∧ p.cur.x ≤ p.win.x1 ∧ p.win.y0 ≤ p.cur.y ∧ p.cur.y ≤ p.win.y1 →
    p.win.x0 ≤ (p.stream P us).cur.x ∧ (p.stream P us).cur.x ≤ p.win.x1 ∧
      p.win.y0 ≤ (p.stream P us).cur.y ∧ (p.stream P us).cur.y ≤ p.win.y1 := by
  induction us with
  | nil => intros; assumption
  | cons u us ih =>
    rintro p ⟨h3, h4, h5, h6⟩
    obtain ⟨⟨a, b⟩, c, d⟩ := Window.advance_inside (w := p.win) (c := p.cur) ⟨h3, h4⟩ ⟨h5, h6⟩
    exact ih (p := p.put P u) ⟨a, b, c, d⟩

/-- The window of a placed line meets the limits of R27. -/
theorem lineWindow_inside {s : State} (hin : placementInside s = true) (p : Panel) :
    let q := lineWindow s p
    q.win.x0 ≤ q.win.x1 ∧ q.win.x1 < s.cfg.panelW ∧ q.win.y0 ≤ q.win.y1 ∧ q.win.y1 < s.cfg.panelH ∧
      q.win.x0 ≤ q.cur.x ∧ q.cur.x ≤ q.win.x1 ∧ q.win.y0 ≤ q.cur.y ∧ q.cur.y ≤ q.win.y1 := by
  obtain ⟨h1, h2, h3, h4, h5, h6⟩ := (placementInside_iff s).1 hin
  refine ⟨?_, ?_, ?_, ?_, ?_, ?_, ?_, ?_⟩ <;> simp only [lineWindow, Panel.setWindow] <;> omega

/-- The window over the whole panel meets the limits of R27. -/
theorem Panel.setFullWindow_inside {P : Params} (hl : P.legal = true) (p : Panel) :
    let q := p.setFullWindow P
    q.win.x0 ≤ q.win.x1 ∧ q.win.x1 < P.panelW ∧ q.win.y0 ≤ q.win.y1 ∧ q.win.y1 < P.panelH ∧
      q.win.x0 ≤ q.cur.x ∧ q.cur.x ≤ q.win.x1 ∧ q.win.y0 ≤ q.cur.y ∧ q.cur.y ≤ q.win.y1 := by
  have h := (legal_iff P).1 hl
  refine ⟨?_, ?_, ?_, ?_, ?_, ?_, ?_, ?_⟩ <;> simp only [Panel.setFullWindow, Panel.setWindow] <;> omega

end Sys2Proof.Machine
end

