-- ==== Sys2Proof/Laws/Compositor.lean ====
section
/-! SUPPORT. The laws of colour resolution and layout (41_compositor.md): reads without a race, and the three layout
loops as one loop that writes each source pixel's copies one after another. -/

namespace Sys2Proof.Machine

@[simp] theorem racingRead_nil {α : Type} (now : α) (choice : Nat) : racingRead now [] choice = now := rfl

/-- A racing read returns the value held or one of those replaced (R59). -/
theorem racingRead_mem {α : Type} (now : α) (olds : List α) (choice : Nat) :
    racingRead now olds choice = now ∨ racingRead now olds choice ∈ olds := by
  cases olds with
  | nil => exact .inl rfl
  | cons old rest =>
    have h : choice % (rest.length + 2) < (now :: old :: rest).length := by
      simpa using Nat.mod_lt choice (Nat.succ_pos (rest.length + 1))
    have hm : racingRead now (old :: rest) choice ∈ now :: old :: rest := by
      simp only [racingRead, List.getD_eq_getElem _ _ h, List.getElem_mem]
    simpa using hm

section
variable {s : State}

theorem readPal_of_raceFree (h : s.RaceFree) (sub : SubPalette) (k : BitVec 2) (r : Nat) :
    s.readPal sub k r = s.regs.pal.get sub k := by simp [State.readPal, show s.env.races = [] from h]

theorem readScale_of_raceFree (h : s.RaceFree) (r : Nat) : s.readScale r = s.regs.scale := by
  simp [State.readScale, show s.env.races = [] from h]

theorem readEcmEn_of_raceFree (h : s.RaceFree) (r : Nat) :
    s.readEcmEn r = (s.cfg.ecmSupport && s.regs.ecmEn) := by simp [State.readEcmEn, show s.env.races = [] from h]

theorem readEcmTab_of_raceFree (h : s.RaceFree) (i r : Nat) : s.readEcmTab i r = s.regs.ecmTab.read i := by
  simp [State.readEcmTab, show s.env.races = [] from h]

/-- With no race a pixel is resolved as R103 says. -/
theorem resolvePixel_of_raceFree (h : s.RaceFree) (x : Nat) :
    resolvePixel s x = if s.cfg.ecmSupport = true ∧ s.regs.ecmEn = true then
      s.regs.ecmTab.read ((s.chan.stg.read x).toNat % s.cfg.ecmN) else lut s x (s.chan.stg.read x) := by
  simp [resolvePixel, ecmLookup, readEcmEn_of_raceFree h, readEcmTab_of_raceFree h]

end

@[simp] theorem Shades.get_set (p : Shades) (k k' : BitVec 2) (c : Colour) :
    (p.set k c).get k' = if k' = k then c else p.get k' := by
  have h : ∀ j : BitVec 2, j = 0#2 ∨ j = 1#2 ∨ j = 2#2 ∨ j = 3#2 := by decide
  rcases h k with rfl | rfl | rfl | rfl <;> rcases h k' with rfl | rfl | rfl | rfl <;> rfl

/-- Read after write in the Palette (R161). -/
theorem Palette.get_set (p : Palette) (s s' : SubPalette) (k k' : BitVec 2) (c : Colour) :
    (p.set s k c).get s' k' = if s' = s ∧ k' = k then c else p.get s' k' := by
  cases s <;> cases s' <;> simp [Palette.set, Palette.get]

@[simp] theorem length_resolvedLine (s : State) : (resolvedLine s).length = s.cfg.srcW := by simp [resolvedLine]

theorem getElem_resolvedLine (s : State) (x : Nat) (h : x < (resolvedLine s).length) :
    (resolvedLine s)[x] = resolvePixel s x := by simp [resolvedLine]

/-! The layout loops. -/

/-- Where the copies of source column `x` begin in `OUTBUF` (R108 to R110). -/
def copyBase : ScalingMode → Nat → Nat
  | .normal, x => x
  | .stretch, x => 2 * x
  | .keepAspect, x => xoff x

/-- How many copies source column `x` has (R108 to R110). -/
def copyCount : ScalingMode → Nat → Nat
  | .normal, _ => 1
  | .stretch, _ => 2
  | .keepAspect, x => 1 + rep x

theorem copyBase_zero (m : ScalingMode) : copyBase m 0 = 0 := by cases m <;> rfl

theorem copyBase_succ (m : ScalingMode) (x : Nat) : copyBase m (x + 1) = copyBase m x + copyCount m x := by
  cases m <;> simp [copyBase, copyCount, xoff] <;> omega

theorem copyCount_bounds (m : ScalingMode) (x : Nat) : 1 ≤ copyCount m x ∧ copyCount m x ≤ 2 := by
  have := rep_le_one x
  cases m <;> simp [copyCount] <;> omega

theorem outWidth_eq (P : Params) (m : ScalingMode) : outWidth P m = copyBase m P.srcW := by cases m <;> rfl

theorem mem_copiesOf (m : ScalingMode) (x k : Nat) :
    k ∈ copiesOf m x ↔ copyBase m x ≤ k ∧ k < copyBase m x + copyCount m x := by
  cases m
  · simp [copiesOf, copyBase, copyCount]; omega
  · simp [copiesOf, copyBase, copyCount]; omega
  · rcases rep_cases x with h | h <;> simp [copiesOf, copyBase, copyCount, h] <;> omega

theorem copyBase_mono (m : ScalingMode) {x y : Nat} (h : x ≤ y) : copyBase m x ≤ copyBase m y := by
  induction h with
  | refl => exact Nat.le_refl _
  | step _ ih => rw [Nat.succ_eq_add_one, copyBase_succ]; omega

theorem copyBase_bounds (m : ScalingMode) (x : Nat) : x ≤ copyBase m x ∧ copyBase m x ≤ 2 * x := by
  induction x with
  | zero => simp [copyBase_zero]
  | succ x ih => have := copyCount_bounds m x; rw [copyBase_succ]; omega

/-- The loop that every layout is: for each source column in order, its copies. -/
def copyLoop (m : ScalingMode) (linebuf : Memory 16) (n : Nat) (out : Memory 16) : Memory 16 :=
  (List.range n).foldl
    (fun out x => out.writeRow (copyBase m x) (List.replicate (copyCount m x) (linebuf.read x))) out

theorem layoutLine_eq (P : Params) (m : ScalingMode) (linebuf out : Memory 16) :
    layoutLine P m linebuf out = copyLoop m linebuf P.srcW out := by
  cases m
  · rfl
  · rfl
  · show layoutKeepAspect P linebuf out = _
    unfold layoutKeepAspect copyLoop
    congr 1
    funext out x
    rcases rep_cases x with h | h <;> simp [h, copyBase, copyCount, Memory.writeRow, List.replicate]

theorem copyLoop_succ (m : ScalingMode) (linebuf : Memory 16) (n : Nat) (out : Memory 16) :
    copyLoop m linebuf (n + 1) out = (copyLoop m linebuf n out).writeRow (copyBase m n)
      (List.replicate (copyCount m n) (linebuf.read n)) := by
  simp [copyLoop, List.range_succ]

theorem wf_copyLoop (m : ScalingMode) (linebuf : Memory 16) (n : Nat) {out : Memory 16} (h : out.wf = true) :
    (copyLoop m linebuf n out).wf = true := by
  induction n with
  | zero => exact h
  | succ n ih => rw [copyLoop_succ]; exact Memory.wf_writeRow _ _ ih

theorem within_copyLoop (m : ScalingMode) (linebuf : Memory 16) (n : Nat) {out : Memory 16} {N : Nat}
    (hN : copyBase m n ≤ N) (h : out.within N = true) : (copyLoop m linebuf n out).within N = true := by
  induction n with
  | zero => exact h
  | succ n ih =>
    rw [copyBase_succ] at hN
    rw [copyLoop_succ]
    exact Memory.within_writeRow _ _ (by simpa using hN) (ih (by omega))

/-- Outside the copies the loop changes nothing. -/
theorem copyLoop_outside (m : ScalingMode) (linebuf : Memory 16) (n : Nat) (out : Memory 16) {a : Nat}
    (ha : copyBase m n ≤ a) : (copyLoop m linebuf n out).read a = out.read a := by
  induction n with
  | zero => rfl
  | succ n ih =>
    rw [copyBase_succ] at ha
    rw [copyLoop_succ, Memory.read_writeRow_outside _ _ _ _ (by simp; omega), ih (by omega)]

/-- Every copy of a source pixel holds that pixel. -/
theorem copyLoop_copies (m : ScalingMode) (linebuf : Memory 16) (n : Nat) {out : Memory 16} (h : out.wf = true)
    {x k : Nat} (hx : x < n) (hk : k ∈ copiesOf m x) : (copyLoop m linebuf n out).read k = linebuf.read x := by
  rw [mem_copiesOf] at hk
  induction n with
  | zero => omega
  | succ n ih =>
    rw [copyLoop_succ]
    rcases Nat.lt_or_ge x n with hn | hn
    · have := copyBase_mono m (show x + 1 ≤ n from hn)
      rw [copyBase_succ] at this
      rw [Memory.read_writeRow_outside _ _ _ _ (by simp; omega), ih hn]
    · have hxn : x = n := by omega
      subst hxn
      obtain ⟨j, rfl⟩ := Nat.exists_eq_add_of_le hk.1
      rw [Memory.read_writeRow_inside _ _ j (by simp; omega) (wf_copyLoop m linebuf x h)]
      simp

/-- Every output column is a copy of a source column (R111). -/
theorem exists_copy (m : ScalingMode) (n : Nat) {k : Nat} (hk : k < copyBase m n) : ∃ x < n, k ∈ copiesOf m x := by
  induction n with
  | zero => simp [copyBase_zero] at hk
  | succ n ih =>
    rcases Nat.lt_or_ge k (copyBase m n) with h | h
    · obtain ⟨x, hx, hm⟩ := ih h
      exact ⟨x, by omega, hm⟩
    · rw [copyBase_succ] at hk
      exact ⟨n, by omega, (mem_copiesOf m n k).2 ⟨h, hk⟩⟩

/-- The top of line `i` and the rows of the lines before it (R106). -/
theorem yoff_eq (P : Params) (m : ScalingMode) (i : Nat) :
    yoff P m i = ybase P m + i + (match m with | .normal => 0 | .stretch => repCount i | .keepAspect => repCount i) := by
  induction i with
  | zero => cases m <;> simp
  | succ i ih => rw [yoff_succ, ih]; cases m <;> simp [repCount_succ] <;> omega

/-- The rows of a whole frame (R106). -/
theorem yoff_srcH (P : Params) (m : ScalingMode) : yoff P m P.srcH = ybase P m + hgt P m := by
  rw [yoff_eq]; cases m <;> simp [hgt, outH] <;> omega

theorem yoff_mono (P : Params) (m : ScalingMode) {i j : Nat} (h : i ≤ j) : yoff P m i ≤ yoff P m j := by
  induction h with
  | refl => exact Nat.le_refl _
  | step _ ih => rw [Nat.succ_eq_add_one, yoff_succ]; omega

end Sys2Proof.Machine
end

