-- ==== Sys2Proof/Laws/Decode.lean ====
section
/-! SUPPORT. The laws of the command word's fields, its encoder and its bytes (30_encoding.md R61 to R63,
20_memory.md R41). -/

namespace Sys2Proof

/-- The word as a number (R62). -/
theorem encodeWord_toNat (t d : Byte) : (encodeWord t d).toNat = d.toNat * 2 ^ 24 + t.toNat := by
  have ht := t.isLt
  have hd := d.isLt
  simp only [encodeWord, BitVec.toNat_or, BitVec.toNat_shiftLeft, BitVec.toNat_setWidth]
  rw [Nat.mod_eq_of_lt (a := d.toNat) (by omega), Nat.mod_eq_of_lt (a := t.toNat) (by omega),
    Nat.mod_eq_of_lt (by rw [Nat.shiftLeft_eq]; omega), ← Nat.shiftLeft_add_eq_or_of_lt (by omega), Nat.shiftLeft_eq]

/-- The tag is the word modulo 256 (R61). -/
theorem tagOf_toNat (w : Word) : (tagOf w).toNat = w.toNat % 256 := by simp [tagOf]
/-- The payload is the word divided by 2^24 (R61, R64). -/
theorem dataOf_toNat (w : Word) : (dataOf w).toNat = w.toNat / 2 ^ 24 := by
  have := w.isLt
  simp [dataOf, Nat.shiftRight_eq_div_pow]; omega

/-- The tag of an encoded word is the tag it was made of. -/
theorem tagOf_encodeWord (t d : Byte) : tagOf (encodeWord t d) = t := by
  apply BitVec.eq_of_toNat_eq
  have := t.isLt
  rw [tagOf_toNat, encodeWord_toNat]; omega

/-- The payload of an encoded word is the payload it was made of. -/
theorem dataOf_encodeWord (t d : Byte) : dataOf (encodeWord t d) = d := by
  apply BitVec.eq_of_toNat_eq
  have := t.isLt
  rw [dataOf_toNat, encodeWord_toNat]; omega

/-- An `or` of a shifted number and one below the shift is their sum. -/
theorem shl_or {a b i : Nat} (h : b < 2 ^ i) : a * 2 ^ i ||| b = a * 2 ^ i + b := by
  have := Nat.shiftLeft_add_eq_or_of_lt h a
  rw [Nat.shiftLeft_eq] at this
  exact this.symm

/-- The word of four bytes as a number: byte `n` weighs 2^(8n) (R41). -/
theorem wordOfBytes_toNat (b0 b1 b2 b3 : Byte) :
    (wordOfBytes b0 b1 b2 b3).toNat = b3.toNat * 2 ^ 24 + b2.toNat * 2 ^ 16 + b1.toNat * 2 ^ 8 + b0.toNat := by
  have h0 := b0.isLt
  have h1 := b1.isLt
  have h2 := b2.isLt
  have h3 := b3.isLt
  have e : ∀ b : Byte, b.toNat % 2 ^ 32 = b.toNat := fun b => Nat.mod_eq_of_lt (by have := b.isLt; omega)
  simp only [wordOfBytes, BitVec.toNat_or, BitVec.toNat_shiftLeft, BitVec.toNat_setWidth, e, Nat.shiftLeft_eq]
  generalize b3.toNat = x3 at *
  generalize b2.toNat = x2 at *
  generalize b1.toNat = x1 at *
  generalize b0.toNat = x0 at *
  have k3 := shl_or (a := x3) (b := x2 * 2 ^ 16) (i := 24) (by omega)
  have k2 := shl_or (a := x3 * 2 ^ 8 + x2) (b := x1 * 2 ^ 8) (i := 16) (by omega)
  have k1 := shl_or (a := (x3 * 2 ^ 8 + x2) * 2 ^ 8 + x1) (b := x0) (i := 8) (by omega)
  have m3 : x3 * 2 ^ 24 % 2 ^ 32 = x3 * 2 ^ 24 := Nat.mod_eq_of_lt (by omega)
  have m2 : x2 * 2 ^ 16 % 2 ^ 32 = x2 * 2 ^ 16 := Nat.mod_eq_of_lt (by omega)
  have m1 : x1 * 2 ^ 8 % 2 ^ 32 = x1 * 2 ^ 8 := Nat.mod_eq_of_lt (by omega)
  have e3 : x3 * 2 ^ 24 + x2 * 2 ^ 16 = (x3 * 2 ^ 8 + x2) * 2 ^ 16 := by ring
  have e2 : (x3 * 2 ^ 8 + x2) * 2 ^ 16 + x1 * 2 ^ 8 = ((x3 * 2 ^ 8 + x2) * 2 ^ 8 + x1) * 2 ^ 8 := by ring
  rw [m3, m2, m1, k3, e3, k2, e2, k1]

/-- The word of the bytes of a word is that word (R41). -/
theorem wordOfBytes_of_word (w : Word) :
    wordOfBytes (w.extractLsb' 0 8) (w.extractLsb' 8 8) (w.extractLsb' 16 8) (w.extractLsb' 24 8) = w := by
  apply BitVec.eq_of_toNat_eq
  have := w.isLt
  rw [wordOfBytes_toNat]
  simp [Nat.shiftRight_eq_div_pow]
  omega

/-- The mask `0x000000FF` of R63 keeps the tag. -/
theorem land_mask (w : Word) : (w &&& 0x000000FF#32).toNat = (tagOf w).toNat := by
  rw [tagOf_toNat, BitVec.toNat_and]
  exact Nat.and_two_pow_sub_one_eq_mod _ 8

/-- The word made of a word's tag and payload is the word with its reserved bytes zero (R61, R62). -/
theorem encodeWord_fields (w : Word) : encodeWord (tagOf w) (dataOf w) = w &&& 0xFF0000FF#32 := by
  apply BitVec.eq_of_toNat_eq
  rw [encodeWord_toNat, tagOf_toNat, dataOf_toNat]
  have hw := w.isLt
  have hsplit : w &&& 0xFF0000FF#32 = ((w >>> 24) <<< 24) ||| (w &&& 0xFF#32) := by
    apply BitVec.eq_of_getLsbD_eq
    intro i hi
    simp only [BitVec.getLsbD_and, BitVec.getLsbD_or, BitVec.getLsbD_shiftLeft, BitVec.getLsbD_ushiftRight]
    interval_cases i <;> simp
  rw [hsplit, BitVec.toNat_or, BitVec.toNat_shiftLeft, BitVec.toNat_ushiftRight, show (w &&& 0xFF#32).toNat = w.toNat % 256 from land_mask w ▸ tagOf_toNat w]
  rw [Nat.shiftRight_eq_div_pow, Nat.shiftLeft_eq]
  have m1 : w.toNat / 2 ^ 24 * 2 ^ 24 % 2 ^ 32 = w.toNat / 2 ^ 24 * 2 ^ 24 := Nat.mod_eq_of_lt (by omega)
  rw [m1, shl_or (by omega)]

end Sys2Proof
end

