-- ==== Sys2Proof/Laws/PerInstr.lean ====
section
/-! SUPPORT. The per-instruction family `EncodeFields`: where each command's tag and payload stand in its word
(30_encoding.md R61, R62, R64, R65), one lemma per constructor. -/

namespace Sys2Proof.Laws

/-- The reserved bytes of an encoded word are zero (R62). -/
theorem reservedOf_encodeWord (t d : Byte) : reservedOf (encodeWord t d) = 0#16 := by
  apply BitVec.eq_of_toNat_eq
  have ht := t.isLt
  have h : (reservedOf (encodeWord t d)).toNat = (encodeWord t d).toNat / 2 ^ 8 % 2 ^ 16 := by
    simp [reservedOf, Nat.shiftRight_eq_div_pow]
  rw [h, encodeWord_toNat]
  simp only [BitVec.toNat_ofNat]
  omega

/-- The word of the command holds its tag in byte 0, zero in bytes 1 and 2, and its payload in byte 3. -/
def EncodeFields.Statement (i : Instr) : Prop :=
  tagOf (encode i) = i.tag ∧ reservedOf (encode i) = 0#16 ∧ dataOf (encode i) = i.data

theorem EncodeFields.of_word (i : Instr) : EncodeFields.Statement i :=
  ⟨tagOf_encodeWord _ _, reservedOf_encodeWord _ _, dataOf_encodeWord _ _⟩

theorem EncodeFields.nop (d : Byte) : EncodeFields.Statement (.nop d) := EncodeFields.of_word _

theorem EncodeFields.lcdLine (n : Byte) : EncodeFields.Statement (.lcdLine n) := EncodeFields.of_word _

theorem EncodeFields.idleSet (m : Byte) : EncodeFields.Statement (.idleSet m) := EncodeFields.of_word _

theorem EncodeFields.setPixel (d : Byte) : EncodeFields.Statement (.setPixel d) := EncodeFields.of_word _

end Sys2Proof.Laws
end

