-- ==== Sys2Proof/Laws/Progress.lean ====
section
/-! SUPPORT. Enabled steps and the work that is left: a turn of an agent that has no enabled step changes nothing
(20_memory.md R56), and a turn of one that has makes the work left smaller, except a poll of
`wait_idle` that finds `BUSY = 1` (30_encoding.md R72). What 70_reset_and_hazards.md R207 and R208 need. -/

namespace Sys2Proof.Machine

/-- A turn of an agent that has no enabled step changes nothing. -/
theorem agentTurn_of_not_enabled {a : Turn} {s t : State} (he : s.enabled a = false) (h : agentTurn a s = .next t) :
    t = s := by
  rcases agentTurn_next h with ⟨rfl, h⟩ | ⟨rfl, h⟩ | ⟨rfl, h⟩ | ⟨rfl, h⟩
  · rcases prodTurn_next h with ⟨hp, hg, rfl⟩ | ⟨o, rest, hp, hg, -, rfl⟩ | ⟨rest, hp, hg, rfl⟩ | ⟨hp, rfl⟩ |
      ⟨hp, rfl⟩ | ⟨hp, rfl⟩ | ⟨hp, rfl⟩ <;> simp_all [State.enabled, waitPhase, pushWordPhase]
  · rcases consTurn_next h with ⟨hp, rfl⟩ | ⟨hp, -, -, rfl⟩ | ⟨hp, -, rfl⟩ | ⟨hp, -, -, rfl⟩ | ⟨hp, -, -, rfl⟩ |
      ⟨hp, -, rfl⟩ | ⟨hp, -, rfl⟩ | ⟨hp, -, h⟩ | ⟨hp, -, rfl⟩ | ⟨hp, -, rfl⟩ | ⟨hp, -, rfl⟩ <;>
      simp_all [State.enabled, popPhase, idlePhase, pushPhase]
  · rcases dmaTurn_next h with ⟨-, rfl⟩ | ⟨hf, -⟩ | ⟨hf, -⟩ <;> simp_all [State.enabled]
  · simp [State.enabled] at he

/-- Steps the producer may still take in the phase `p`, its word's included. -/
def PPhase.work (N : Nat) : PPhase → Nat
  | .idle => 0
  | .push => N + 9
  | .mark => N + 10
  | .copy => N + 11
  | .wait => N + 12

/-- Steps the consumer may still take with the command in `CMD`, those of the transfer it may start included. -/
def CPhase.work (N : Nat) : CPhase → Nat
  | .pop => 0
  | .idle => 1
  | .ack => 1
  | .frame => N + 3
  | .push => N + 4
  | .layout => N + 5
  | .resolve => N + 6
  | .dispatch => N + 7

/-- Steps of the transfer in flight that are left, its completion included. -/
def Dma.work (useDma : Bool) (d : Dma) : Nat := if useDma && d.busy then d.len - d.pos + 1 else 0

def State.dmaWork (s : State) : Nat := Dma.work s.cfg.useDma s.drv.dma

/-- An upper bound on the steps the machine may still take without a new operation. -/
def State.workLeft (s : State) : Nat :=
  s.env.prog.length * (s.cfg.panelN + 13) + s.prod.pphase.work s.cfg.panelN
    + s.chan.q.length * (s.cfg.panelN + 8) + s.cons.cphase.work s.cfg.panelN + s.dmaWork

/-- The phase after a push has less work left, a transfer of at most `N` units started by the push included. -/
theorem afterPush_work (P : Params) (n N : Nat) :
    ((afterPush P n).work N = 1 ∨ ((afterPush P n).work N = N + 3 ∧ P.driverMode = .framebuffered)) := by
  unfold afterPush
  cases P.driverMode
  · exact .inl rfl
  · dsimp only; split
    · exact .inr ⟨rfl, rfl⟩
    · exact .inl rfl

/-- The units of a placed line are no more than the panel's (R113). -/
theorem placed_units_le {s : State} (h : placementInside s = true) :
    s.cons.place.outRows * s.cons.place.outW ≤ s.cfg.panelN := by
  obtain ⟨-, -, -, -, h5, h6⟩ := (placementInside_iff s).1 h
  rw [Params.panelN, Nat.mul_comm s.cfg.panelW]
  exact Nat.mul_le_mul (by omega) (by omega)

/-- What the push does to the DMA registers: nothing, or in direct mode the start of the placed line's transfer. -/
theorem pushLine_dma (s : State) : (pushLine s).drv.dma = s.drv.dma ∨ (s.cfg.driverMode = .direct ∧
    (pushLine s).drv.dma =
      { busy := true, src := .xbuf, len := s.cons.place.outRows * s.cons.place.outW, pos := 0 }) := by
  unfold pushLine
  cases s.cfg.driverMode
  · dsimp only; split
    · exact .inr ⟨rfl, rfl⟩
    · exact .inl rfl
  · left; cases hb : s.drv.fbWr <;> simp [pushFb, Driver.setFb, hb]

/-- What the end of a frame does to the DMA registers: nothing, or the start of the frame's transfer. -/
theorem framePhase_dma (s : State) : (framePhase s).drv.dma = s.drv.dma ∨
    (framePhase s).drv.dma = { busy := true, src := .fb s.drv.fbWr, len := s.cfg.panelN, pos := 0 } := by
  have hs : ∀ d : Driver, (d.swap s.cfg).dma = d.dma := fun d => by unfold Driver.swap; split <;> rfl
  unfold framePhase
  split
  · unfold framePushDma
    split
    · exact .inl rfl
    · exact .inr (hs _)
  · exact .inl (hs _)

/-- A transfer's steps are bounded by its units. -/
theorem dmaWork_le {s t : State} {N : Nat} (hc : t.cfg = s.cfg)
    (h : t.drv.dma = s.drv.dma ∨ (t.drv.dma.len ≤ N ∧ t.drv.dma.pos = 0)) : t.dmaWork ≤ s.dmaWork + (N + 1) := by
  unfold State.dmaWork Dma.work
  rw [hc]
  rcases h with h | ⟨h1, h2⟩
  · rw [h]; omega
  · rw [h2]; split <;> omega

/-- A turn of an agent of the block makes the work left smaller, when the agent has an enabled step, but for one
case: a poll of `wait_idle` that finds `BUSY = 1`. -/
theorem workLeft_lt {a : Turn} {s t : State} (ha : a ≠ .reset) (he : s.enabled a = true)
    (h : agentTurn a s = .next t) :
    t.workLeft < s.workLeft ∨
      (a = .prod ∧ s.prod.pphase = .idle ∧ s.chan.busy = true ∧ t = statusRead s) := by
  rcases agentTurn_next h with ⟨rfl, h⟩ | ⟨rfl, h⟩ | ⟨rfl, h⟩ | ⟨rfl, h⟩
  · rcases prodTurn_next h with ⟨hp, hg, rfl⟩ | ⟨o, rest, hp, hg, -, rfl⟩ | ⟨rest, hp, hg, rfl⟩ | ⟨hp, rfl⟩ |
      ⟨hp, rfl⟩ | ⟨hp, rfl⟩ | ⟨hp, rfl⟩
    · simp [State.enabled, hp, hg] at he
    · left
      have hprog : (portOp o (s.issued rest)).env.prog = rest := by
        cases o <;> simp [portOp, cfgPal, cfgScale, cfgEcm, cfgEcmTab, statusRead]
        split <;> simp
      have hw : (portOp o (s.issued rest)).prod.pphase.work s.cfg.panelN ≤ s.cfg.panelN + 12 := by
        rcases portOp_prod (s := s.issued rest) o with h | ⟨_, _, _, _, h⟩ <;> rw [h] <;> simp [hp, PPhase.work]
      simp only [State.workLeft, State.dmaWork, portOp_cfg, portOp_chan, portOp_cons, portOp_drv,
        State.issued_cfg, State.issued_chan, State.issued_cons, State.issued_drv, hprog, hg, hp, List.length_cons,
        Nat.succ_mul]
      simp only [show PPhase.work s.cfg.panelN .idle = 0 from rfl]
      omega
    · by_cases hb : s.chan.busy = true
      · right; exact ⟨rfl, hp, hb, by simp [pollOnce, State.loadBusy, hb]⟩
      · left
        have : pollOnce rest s = (statusRead s).issued rest := by simp [pollOnce, State.loadBusy, hb]
        rw [this]
        simp only [State.workLeft, State.dmaWork, State.issued_cfg, State.issued_chan,
          State.issued_cons, State.issued_drv, State.issued_prod, State.issued_prog, statusRead_cfg, statusRead_chan,
          statusRead_cons, statusRead_drv, statusRead_prod, hg, List.length_cons, Nat.succ_mul]
        omega
    · left
      have hb : s.chan.busy = false := by simpa [State.enabled, hp, State.loadBusy] using he
      have hw : (waitPhase s).prod.pphase.work s.cfg.panelN < s.prod.pphase.work s.cfg.panelN := by
        simp only [waitPhase, State.loadBusy, hb, Bool.false_eq_true, if_false]
        split <;> simp [hp, PPhase.work]
      simp only [State.workLeft, State.dmaWork, waitPhase_cfg, waitPhase_chan, waitPhase_cons,
        waitPhase_drv, waitPhase_env]
      omega
    · left
      simp only [State.workLeft, State.dmaWork, copyPhase_cfg, copyPhase_chan_q, copyPhase_cons,
        copyPhase_drv, copyPhase_env, copyPhase_pphase, hp, PPhase.work]
      omega
    · left
      simp only [State.workLeft, State.dmaWork, markPhase_cfg, markPhase_chan_q, markPhase_cons,
        markPhase_drv, markPhase_env, markPhase_pphase, hp, PPhase.work]
      omega
    · left
      have hf : s.queueFull = false := by simpa [State.enabled, hp] using he
      have e : pushWordPhase s = ({ s with chan := { s.chan with q := s.chan.q ++ [s.prod.pcmd] } }).toPPhase .idle := by
        rw [pushWordPhase, hf]; rfl
      rw [e]
      simp only [State.workLeft, State.dmaWork, State.toPPhase_cfg, State.toPPhase_chan,
        State.toPPhase_cons, State.toPPhase_drv, State.toPPhase_env, State.toPPhase_pphase, hp, PPhase.work,
        List.length_append, List.length_singleton, Nat.succ_mul]
      omega
  · left
    rcases consTurn_next h with ⟨hp, rfl⟩ | ⟨hp, -, -, rfl⟩ | ⟨hp, -, rfl⟩ | ⟨hp, -, -, rfl⟩ | ⟨hp, -, -, rfl⟩ |
      ⟨hp, -, rfl⟩ | ⟨hp, -, rfl⟩ | ⟨hp, -, h⟩ | ⟨hp, -, rfl⟩ | ⟨hp, -, rfl⟩ | ⟨hp, -, rfl⟩
    · cases hq : s.chan.q with
      | nil => simp [State.enabled, hp, hq] at he
      | cons w ws =>
        simp only [popPhase, hq, State.workLeft, State.dmaWork, hp, CPhase.work, List.length_cons,
          Nat.succ_mul]
        omega
    · simp only [State.workLeft, State.dmaWork, State.toPhase_cfg, State.toPhase_chan,
        State.toPhase_prod, State.toPhase_drv, State.toPhase_env, State.toPhase_cphase, hp, CPhase.work]
      omega
    · simp only [State.workLeft, State.dmaWork, State.toPhase_cfg, State.toPhase_chan,
        State.toPhase_prod, State.toPhase_drv, State.toPhase_env, State.toPhase_cphase, hp, CPhase.work]
      omega
    · simp only [State.workLeft, State.dmaWork, State.toPhase_cfg, State.toPhase_chan,
        State.toPhase_prod, State.toPhase_drv, State.toPhase_env, State.toPhase_cphase, hp, CPhase.work]
      omega
    · simp only [State.workLeft, State.dmaWork, State.toPhase_cfg, State.toPhase_chan,
        State.toPhase_prod, State.toPhase_drv, State.toPhase_env, State.toPhase_cphase, hp, CPhase.work]
      omega
    · simp only [State.workLeft, State.dmaWork, resolvePhase_cfg, resolvePhase_chan,
        resolvePhase_prod, resolvePhase_drv, resolvePhase_env_prog, resolvePhase_cphase, hp, CPhase.work]
      omega
    · simp only [State.workLeft, State.dmaWork, layoutPhase_cfg, layoutPhase_chan,
        layoutPhase_prod, layoutPhase_drv, layoutPhase_env_prog, layoutPhase_cphase, hp, CPhase.work]
      omega
    · rcases pushPhase_next h with ⟨hw, rfl⟩ | ⟨-, hin, rfl⟩
      · simp [State.enabled, hp, hw] at he
      · have hd : ((pushLine s).toPhase (afterPush s.cfg (lineIndexOf s.cons.cmd))).dmaWork = (pushLine s).dmaWork := rfl
        have hlt : (afterPush s.cfg (lineIndexOf s.cons.cmd)).work s.cfg.panelN + (pushLine s).dmaWork <
            CPhase.work s.cfg.panelN .push + s.dmaWork := by
          rcases pushLine_dma s with e | ⟨hm, e⟩
          · have : (pushLine s).dmaWork = s.dmaWork := by simp [State.dmaWork, e]
            rcases afterPush_work s.cfg (lineIndexOf s.cons.cmd) s.cfg.panelN with h | ⟨h, -⟩ <;>
              rw [h, this] <;> simp only [CPhase.work] <;> omega
          · have := dmaWork_le (s := s) (t := pushLine s) (N := s.cfg.panelN) (pushLine_cfg s)
              (.inr ⟨by rw [e]; exact placed_units_le hin, by rw [e]⟩)
            rcases afterPush_work s.cfg (lineIndexOf s.cons.cmd) s.cfg.panelN with h | ⟨-, h⟩
            · rw [h]; simp only [CPhase.work]; omega
            · rw [hm] at h; cases h
        simp only [State.workLeft, State.toPhase_cfg, State.toPhase_chan, State.toPhase_prod, State.toPhase_env,
          State.toPhase_cphase, pushLine_cfg, pushLine_chan, pushLine_prod, pushLine_env, hd, hp]
        omega
    · have := dmaWork_le (s := s) (t := framePhase s) (N := s.cfg.panelN) (framePhase_cfg s)
        ((framePhase_dma s).imp id fun e => by rw [e]; exact ⟨le_rfl, rfl⟩)
      simp only [State.workLeft, framePhase_cfg, framePhase_chan, framePhase_prod, framePhase_env, framePhase_cphase,
        hp, CPhase.work]
      omega
    · simp only [State.workLeft, State.dmaWork, ackPhase_cfg, ackPhase_chan_q, ackPhase_prod,
        ackPhase_drv, ackPhase_env_prog, ackPhase_cphase, hp, CPhase.work]
      omega
    · have hf : s.dmaInFlight = false := by simpa [State.enabled, hp] using he
      simp only [State.workLeft, State.dmaWork, idlePhase_cfg, idlePhase_chan, idlePhase_prod,
        idlePhase_drv_dma, idlePhase_env, idlePhase_cphase s _ hf, hp, CPhase.work]
      omega
  · left
    rcases dmaTurn_next h with ⟨hf, rfl⟩ | ⟨hf, hp, -, rfl⟩ | ⟨hf, hp, rfl⟩
    · simp [State.enabled, hf] at he
    · have h1 : (dmaBeat s).dmaInFlight = true := hf
      have h2 : (dmaBeat s).drv.dma.pos = s.drv.dma.pos + 1 := rfl
      have hw : (dmaBeat s).dmaWork < s.dmaWork := by
        show (if (dmaBeat s).dmaInFlight then _ else _) < if s.dmaInFlight then _ else _
        simp only [h1, h2, hf, if_true, dmaBeat_drv_dma_len]; omega
      simp only [State.workLeft, dmaBeat_cfg, dmaBeat_chan, dmaBeat_prod, dmaBeat_cons, dmaBeat_env]
      omega
    · have h1 : (dmaComplete s).dmaInFlight = false := by simp [State.dmaInFlight, dmaComplete]
      have hw : (dmaComplete s).dmaWork < s.dmaWork := by
        show (if (dmaComplete s).dmaInFlight then _ else _) < if s.dmaInFlight then _ else _
        simp only [h1, hf, if_true, Bool.false_eq_true, if_false]; omega
      simp only [State.workLeft, dmaComplete_cfg, dmaComplete_chan, dmaComplete_prod, dmaComplete_cons, dmaComplete_env]
      omega
  · exact absurd rfl ha

end Sys2Proof.Machine
end

