-- ==== Sys2Proof/Laws/Runs.lean ====
section
/-! SUPPORT. Phases of one LCD_LINE after each other, and runs: the schedule takes no part in a meaning, and a run
of `a + b` steps is a run of `b` after a run of `a`. -/

namespace Sys2Proof.Machine

/-- An outcome with `f` applied to its next state. -/
def mapNext (f : State → State) : Host.Outcome State Fault Refusal → Host.Outcome State Fault Refusal
  | .next t => .next (f t)
  | .fault r => .fault r
  | .refused r => .refused r

/-- The schedule takes no part in the meaning of an LCD_LINE. -/
theorem execLcdLine_withSched (n : Byte) (s : State) (ts : List Turn) :
    exec (.lcdLine n) (s.withSched ts) = mapNext (fun t => t.withSched ts) (exec (.lcdLine n) s) := by
  unfold exec execLcdLine
  show (match s.cons.cphase with
    | .dispatch => _ | .resolve => _ | .layout => _ | .push => _
    | .frame => _ | .ack => _ | .pop => _ | .idle => _) = _
  cases s.cons.cphase <;> try rfl
  · dsimp only
    unfold pushPhase
    show (if pushWaits s then _ else if placementInside s then _ else _) = _
    by_cases h1 : pushWaits s = true <;> by_cases h2 : placementInside s = true <;>
      simp only [h1, h2, if_true, if_false, Bool.false_eq_true] <;>
      first | rfl | skip
    unfold pushLine
    show (Host.Outcome.next (State.toPhase
      (match s.cfg.driverMode with | .direct => if s.cfg.useDma then _ else _ | .framebuffered => _) _)) = _
    cases s.cfg.driverMode
    · cases s.cfg.useDma <;> rfl
    · rfl
  · dsimp only
    have hf : (s.withSched ts).dmaInFlight = s.dmaInFlight := rfl
    by_cases h1 : s.cfg.useDma = true <;> by_cases h2 : s.dmaInFlight = true <;>
      simp only [framePhase, framePushDma, framePushBlocking, State.withSched_cfg, hf, h1, h2, if_true, if_false,
        Bool.false_eq_true] <;> rfl

/-- What every phase of an LCD_LINE leaves alone. -/
theorem execLcdLine_next {n : Byte} {s t : State} (h : exec (.lcdLine n) s = .next t) :
    s.cons.cphase ≠ .pop ∧ t.cons.cmd = s.cons.cmd ∧ t.cfg = s.cfg ∧ t.env.sched = s.env.sched := by
  unfold exec execLcdLine at h
  cases hp : s.cons.cphase <;> simp only [hp] at h
  · cases h
  · cases h; split <;> simp
  · cases h; simp
  · cases h; simp
  · rcases pushPhase_next h with ⟨_, rfl⟩ | ⟨_, _, rfl⟩ <;> simp
  · cases h; simp
  · cases h; simp
  · cases h

/-- The schedule takes no part in the phases of an LCD_LINE. -/
theorem execPhases_withSched (n : Byte) (ts : List Turn) (k : Nat) :
    ∀ s t : State, execPhases (.lcdLine n) k s = .next t →
      execPhases (.lcdLine n) k (s.withSched ts) = .next (t.withSched ts) := by
  induction k with
  | zero => intro s t h; cases h; rfl
  | succ k ih =>
    intro s t h
    cases he : exec (.lcdLine n) s with
    | next u =>
      rw [execPhases_succ he] at h
      have : exec (.lcdLine n) (s.withSched ts) = .next (u.withSched ts) := by rw [execLcdLine_withSched, he]; rfl
      rw [execPhases_succ this]; exact ih u t h
    | fault r => simp [execPhases, he] at h
    | refused r => simp [execPhases, he] at h

/-- A run of `a + b` steps is a run of `b` after a run of `a`. -/
theorem run_add (a b : Nat) :
    ∀ s t : State, Host.Core.run Sys2Proof.core a s = .next t →
      Host.Core.run Sys2Proof.core (a + b) s = Host.Core.run Sys2Proof.core b t := by
  induction a with
  | zero => intro s t h; cases h; rw [Nat.zero_add]
  | succ a ih =>
    intro s t h
    cases he : step s with
    | next u =>
      rw [run_succ he] at h
      rw [show a + 1 + b = (a + b) + 1 by omega, run_succ he]; exact ih u t h
    | fault r => simp [Host.Core.run, show Sys2Proof.core.step s = .fault r from he] at h
    | refused r => simp [Host.Core.run, show Sys2Proof.core.step s = .refused r from he] at h

end Sys2Proof.Machine
end

