-- ==== Sys2Proof/Tests/Slice0.lean ====
section
/-! SUPPORT. The model's own tests: ill-formed terms each check refuses; every command's decoding from a word written
out from 30_encoding.md R61 and R65; one step of each command and operation against 95_test_vectors.md; and for
every obligation with hypotheses a state and operands that meet them all, clause by clause. -/

namespace Sys2Proof.Tests

open Sys2Proof Sys2Proof.Machine

/-! ### Helpers -/

/-- The outcome is a next state that passes the check. -/
def nextIs (o : Host.Outcome State Fault Refusal) (p : State → Bool) : Bool :=
  match o with
  | .next t => p t
  | .fault _ => false
  | .refused _ => false

/-- The outcome is that refusal. -/
def refusedWith (o : Host.Outcome State Fault Refusal) (r : Refusal) : Bool :=
  match o with
  | .next _ => false
  | .fault _ => false
  | .refused r' => r' = r

/-- The toy machine after reset (R5). -/
abbrev toy : State := State.resetWith Params.toy

/-- The toy parameters, direct with DMA. -/
abbrev toyDma : Params := { Params.toy with useDma := true }

/-- The toy parameters, framebuffered. -/
abbrev toyFb (n : Nat) (dma : Bool) : Params :=
  { Params.toy with driverMode := .framebuffered, fbCount := n, useDma := dma }

/-- The palette `PALX` of 95_test_vectors.md. -/
abbrev palx : Palette :=
  ⟨⟨0x0000#16, 0x0010#16, 0x0018#16, 0x001F#16⟩, .all 0xF800#16, ⟨0xFFFF#16, 0xAD55#16, 0x52AA#16, 0x0000#16⟩⟩

/-- The PixelLine `LA` of 95_test_vectors.md. -/
abbrev lineA : List Byte := [0x20#8, 0x21#8, 0x22#8, 0x23#8, 0x00#8, 0x03#8, 0x10#8, 0x13#8]

/-- What `LA` resolves to. -/
abbrev resolvedA : List Colour :=
  [0xFFFF#16, 0xAD55#16, 0x52AA#16, 0x0000#16, 0x0000#16, 0x001F#16, 0xF800#16, 0xF800#16]

/-- `LA` stretched (V-CO-5). -/
abbrev stretchedA : List Colour :=
  [0xFFFF#16, 0xFFFF#16, 0xAD55#16, 0xAD55#16, 0x52AA#16, 0x52AA#16, 0x0000#16, 0x0000#16, 0x0000#16, 0x0000#16,
   0x001F#16, 0x001F#16, 0xF800#16, 0xF800#16, 0xF800#16, 0xF800#16]

/-- The machine after reset with parameters `P`, the word `w` in `CMD` and the consumer in phase `c`. -/
abbrev inPhase (P : Params) (c : CPhase) (w : Word) : State :=
  let r := State.resetWith P
  { r with cons := { r.cons with cphase := c, cmd := w } }

/-- The machine after reset with the producer port in phase `p` and the word `w` in `PCMD`. -/
abbrev inPort (P : Params) (p : PPhase) (w : Word) : State :=
  let r := State.resetWith P
  { r with prod := { r.prod with pphase := p, pcmd := w } }

/-- `s` with the flag `BUSY`. -/
abbrev busyIs (s : State) (b : Bool) : State := { s with chan := { s.chan with busy := b } }

/-- `s` with the queue `q`. -/
abbrev queueIs (s : State) (q : List Word) : State := { s with chan := { s.chan with q := q } }

/-- `s` with the DMA registers `d`, and the window `w` with the cursor at `c`. -/
abbrev transferIs (s : State) (d : Dma) (w : Window) (c : Cursor) : State :=
  { s with drv := { s.drv with dma := d, panel := { s.drv.panel with win := w, cur := c } } }

/-! ### What is not well formed is refused -/

theorem test_toy_parameters_legal : Params.toy.legal = true ∧ Params.default.legal = true := by decide
theorem test_zero_width_illegal : { Params.toy with srcW := 0 }.legal = false := by decide
theorem test_height_above_256_illegal :
    { Params.toy with srcH := 257, panelH := 1000 }.legal = false ∧
    { Params.toy with srcH := 0 }.legal = false := by decide
theorem test_narrow_panel_illegal : { Params.toy with panelW := 15 }.legal = false := by decide
theorem test_low_panel_illegal : { Params.toy with panelH := 9 }.legal = false := by decide
theorem test_three_framebuffers_illegal :
    { Params.toy with fbCount := 3 }.legal = false ∧ { Params.toy with fbCount := 0 }.legal = false := by decide
theorem test_ecm_size_not_a_power_illegal :
    { Params.toy with ecmN := 48 }.legal = false ∧ { Params.toy with ecmN := 512 }.legal = false := by decide
theorem test_no_queue_illegal : { Params.toy with fifoDepth := 0 }.legal = false := by decide
theorem test_short_pixel_line_ill_formed : (PortOp.enqueue 1#8 0#8 [0x20#8]).wellFormed Params.toy = false := by
  decide
theorem test_ecm_operations_absent :
    (PortOp.cfgEcm true).wellFormed Params.toy = false ∧
    (PortOp.cfgEcmTab 0 0#16).wellFormed Params.toy = false := by decide
theorem test_ecm_index_out_of_range :
    (PortOp.cfgEcmTab 64 0#16).wellFormed { Params.toy with ecmSupport := true } = false ∧
    (PortOp.cfgEcmTab 63 0#16).wellFormed { Params.toy with ecmSupport := true } = true := by decide
theorem test_line_index_out_of_range :
    (Instr.lcdLine 6#8).wellFormed Params.toy = false ∧ (Instr.lcdLine 5#8).wellFormed Params.toy = true := by decide
theorem test_set_pixel_ill_formed : (Instr.setPixel 0#8).wellFormed Params.toy = false := by decide
theorem test_illegal_parameters_refused :
    refusedWith (step (State.resetWith { Params.toy with fifoDepth := 0 })) .illegalParameters = true := by decide

/-! ### Decoding, from words written out bit by bit: data, rsv2, rsv1, tag (R61, R65) -/

theorem test_decode_nop :
    decode 0b01111111_00000000_00000000_00000000#32 = .command (.nop 0b01111111#8) := by decide
theorem test_decode_lcdLine :
    decode 0b00000101_10101011_11001101_00000001#32 = .command (.lcdLine 0b00000101#8) := by decide
theorem test_decode_idleSet :
    decode 0b00000010_00000000_00000000_00000010#32 = .command (.idleSet 0b00000010#8) := by decide
theorem test_decode_setPixel :
    decode 0b00000000_00000000_00000000_00000011#32 = .command (.setPixel 0b00000000#8) := by decide
theorem test_decode_reserved :
    decode 0b00000000_00000000_00000001_00000100#32 = .reserved 4#8 0#8 := by decide
theorem test_decode_bytes_little_endian :
    (match decodeBytes [0x01#8, 0x00#8, 0x00#8, 0x05#8, 0xAA#8] with
      | .ok r => decide (r = (.lcdLine 5#8, [0xAA#8]))
      | .error _ => false) = true := by decide
theorem test_decode_bytes_rejects :
    (match decodeBytes [0x01#8, 0x00#8, 0x00#8] with | .ok _ => false | .error e => decide (e = .truncated)) = true ∧
    (match decodeBytes [0x07#8, 0x00#8, 0x00#8, 0x09#8] with
      | .ok _ => false
      | .error e => decide (e = .reservedTag 7#8 9#8)) = true := by decide
theorem test_table_words :
    [0, 1, 2, 3].map (decodeTableWord 32) =
      [some (.nop 0), some (.lcdLine 0), some (.idleSet 0), some (.setPixel 0)] := by decide

/-! ### One step of each command (95_test_vectors.md) -/

/-- V-CH-3. -/
theorem test_nop_only_returns :
    nextIs (step (toy.withFetchWord 32 0x7F000000)) (fun t =>
      t.cons.cphase = .pop ∧ t.chan.busy = false ∧ t.drv = toy.drv ∧ t.regs = toy.regs) = true := by decide

/-- P1: `C_RESOLVE` of `LA` with `PALX`. -/
theorem test_lcdLine_resolves_LA :
    nextIs (exec (.lcdLine 2#8) { inPhase Params.toy .resolve 0x02000001#32 with
        chan := { q := [], busy := true, stg := Memory.writeRow [] 0 lineA }
        regs := { toy.regs with pal := palx } })
      (fun t => t.cons.cphase = .layout ∧ t.cons.linebuf.elements 8 = resolvedA) = true := by decide

/-- V-DD-1: `C_PUSH` of line 3, stretched, on a cleared panel. -/
theorem test_lcdLine_pushes_two_rows :
    nextIs (exec (.lcdLine 3#8) { inPhase Params.toy .push 0x03000001#32 with
        cons := { cphase := .push, cmd := 0x03000001#32, linebuf := [], outbuf := Memory.writeRow [] 0 stretchedA,
                  place := { outW := 16, outX := 0, outY := 5, outRows := 2 } } })
      (fun t => t.cons.cphase = .ack ∧ t.drv.panel.win = ⟨0, 5, 15, 6⟩ ∧ t.drv.panel.cur = ⟨0, 5⟩ ∧
        (t.drv.panel.pix.elements 160).drop 80 = stretchedA ++ stretchedA ++ List.replicate 48 0x0000#16) = true := by
  decide +kernel

/-- V-CH-6: `C_IDLE` of `IDLE_SET 1`. -/
theorem test_idleSet_clears :
    nextIs (exec (.idleSet 1#8) { inPhase Params.toy .idle 0x01000002#32 with
        drv := { toy.drv with panel := { toy.drv.panel with pix := [(3, 0x1234#16), (159, 0xFFFF#16)] } } })
      (fun t => t.drv.idleMode = 1#8 ∧ t.drv.panel.pix = [] ∧ t.drv.panel.win = ⟨0, 0, 15, 9⟩ ∧
        t.drv.panel.cur = ⟨0, 0⟩ ∧ t.cons.cphase = .pop) = true := by decide +kernel

/-- R68, R93: without `DEBUG_SET_PIXEL` a discard; with it the configuration is refused. -/
theorem test_setPixel_discarded_or_refused :
    nextIs (step (toy.withFetchWord 32 3)) (fun t => t.cons.cphase = .pop ∧ t.drv = toy.drv) = true ∧
    refusedWith (exec (.setPixel 0#8) (State.resetWith { Params.toy with debugSetPixel := true }))
      .debugSetPixelUnspecified = true := by decide

/-- P6, V-CH-8: a reserved tag is discarded. -/
theorem test_reserved_tag_discarded :
    nextIs (step (toy.withFetchWord 32 7)) (fun t => t.cons.cphase = .pop ∧ t.drv = toy.drv) = true := by decide

/-! ### The operations (95_test_vectors.md) -/

/-- V-CO-1. -/
theorem test_repeat_predicate :
    ([0, 1, 2, 3, 4, 5, 6, 7, 8, 9, 10, 11, 12, 143, 159].map rep) = [1, 1, 0, 1, 0, 1, 1, 1, 0, 1, 0, 1, 1, 1, 1] := by
  decide

/-- V-CO-2: the vertical placements, toy and (line 143) default. -/
theorem test_vertical_placement :
    ([0, 1, 2, 3, 4, 5].map (yoff Params.toy .stretch)) = [0, 2, 4, 5, 7, 8] ∧
    ([0, 5].map (yoff Params.toy .normal)) = [2, 7] ∧ yoff Params.default .stretch 143 = 238 := by decide +kernel

/-- V-CO-5: the KEEP_ASPECT layout of the resolved `LA`. -/
theorem test_layout_keepAspect :
    (layoutLine Params.toy .keepAspect (Memory.writeRow [] 0 resolvedA) []).elements 14 =
      [0xFFFF#16, 0xFFFF#16, 0xAD55#16, 0xAD55#16, 0x52AA#16, 0x0000#16, 0x0000#16, 0x0000#16, 0x001F#16, 0x001F#16,
       0xF800#16, 0xF800#16, 0xF800#16, 0xF800#16] ∧
    placementOf Params.toy .keepAspect 2 = ⟨14, 1, 4, 1⟩ := by decide

/-- V-CO-6. -/
theorem test_ecm_lookup :
    let s : State := { State.resetWith { Params.toy with ecmSupport := true } with
      regs := { toy.regs with ecmEn := true, ecmTab := [(5, 0x1234#16), (63, 0x4321#16)] } }
    ([0x05#8, 0x45#8, 0x85#8, 0xC5#8, 0x3F#8, 0xFF#8].map (ecmLookup s 0)) =
      [0x1234#16, 0x1234#16, 0x1234#16, 0x1234#16, 0x4321#16, 0x4321#16] := by decide

/-- V-DD-3: a stream into a window of two by two. -/
theorem test_panel_stream :
    let p := (toy.drv.panel.setWindow 0 5 1 6).stream Params.toy [0x000A#16, 0x000B#16, 0x000C#16, 0x000D#16]
    p.pix = [(80, 0x000A#16), (81, 0x000B#16), (96, 0x000C#16), (97, 0x000D#16)] ∧ p.cur = ⟨0, 5⟩ := by decide

/-- V-DD-4. -/
theorem test_byte_swap :
    ([0xAD55#16, 0x001F#16, 0xF800#16, 0xFFFF#16, 0x0000#16].map (bs { Params.toy with swapBytes := true })) =
      [0x55AD#16, 0x1F00#16, 0x00F8#16, 0xFFFF#16, 0x0000#16] := by decide

/-- V-DD-9, V-DD-10: the end of a frame with a transfer in flight, and without. -/
theorem test_frame_push_skips_or_starts :
    let s : State := { inPhase (toyFb 2 true) .frame 0x05000001#32 with drv := { toy.drv with fbWr := .one } }
    let busy : State := { s with drv := { s.drv with dma := { s.drv.dma with busy := true } } }
    nextIs (exec (.lcdLine 5#8) busy) (fun t => t.drv = busy.drv ∧ t.cons.cphase = .ack) = true ∧
    nextIs (exec (.lcdLine 5#8) s) (fun t => t.drv.panel.win = ⟨0, 0, 15, 9⟩ ∧
      t.drv.dma = ⟨true, .fb .one, 160, 0⟩ ∧ t.drv.fbWr = .zero) = true := by decide

/-- V-CF-1, V-CF-3. -/
theorem test_configuration_writes :
    (cfgPal .background 0#2 0xFFFF#16 toy).regs.pal = ⟨.all 0#16, .all 0#16, ⟨0xFFFF#16, 0#16, 0#16, 0#16⟩⟩ ∧
    cfgScale 3#2 { toy with regs := { toy.regs with scale := .keepAspect } } =
      { toy with regs := { toy.regs with scale := .keepAspect } } := by decide

/-- R59, V-CF-6: a racing `CFG_SCALE` while a line is in flight leaves the old mode readable for that line. -/
theorem test_racing_write_recorded :
    (cfgScale 1#2 (busyIs toy true)).env.races = [.scale .normal] ∧
    (cfgScale 1#2 (busyIs toy true)).regs.scale = .stretch := by decide

/-- V-RS-1: reset in the middle of everything. -/
theorem test_reset_input :
    let s := queueIs (busyIs (inPort toyDma .wait 0x06000001#32) true) [0x05000001#32]
    let t := resetInput { s with drv := { s.drv with fbWr := .one, dma := { s.drv.dma with busy := true } } }
    t.chan.q = [] ∧ t.chan.busy = false ∧ t.prod.pphase = .idle ∧ t.cons.cphase = .pop ∧ t.drv.dma.busy = false ∧
      t.drv.fbWr = .zero := by decide

/-- R208: in a quiescent state no agent of the block has an enabled step; R77, R80, R82: who waits. -/
theorem test_enabled_steps :
    [Turn.prod, .cons, .dma].map toy.enabled = [false, false, false] ∧
    (busyIs (inPort Params.toy .wait 0x05000001#32) true).enabled .prod = false ∧
    (queueIs (inPort Params.toy .push 0x00000000#32) [0x00000000#32]).enabled .prod = false ∧
    (queueIs toy [0x00000000#32]).enabled .cons = true := by decide

/-! ### Witnesses: for every obligation with hypotheses, states and operands that meet them, clause by clause -/

theorem witness_EncodeOfDecodeZeroesOnlyReservedBytes :
    decode 0x05ABCD01#32 = .command (.lcdLine 5#8) ∧ decode 0xFF1234FF#32 = .reserved 255#8 255#8 := by decide

theorem witness_DecodeFollowsTheTagAndIgnoresReservedBytes :
    0x7FABCD00#32 &&& 0x000000FF#32 = 0x00000000#32 ∧ 0x05ABCD01#32 &&& 0x000000FF#32 = 0x00000001#32 ∧
    0x05ABCD02#32 &&& 0x000000FF#32 = 0x00000002#32 ∧ 0x05ABCD03#32 &&& 0x000000FF#32 = 0x00000003#32 ∧
    4 ≤ (0x00000104#32 &&& 0x000000FF#32).toNat ∧ 4 ≤ (0xFF0000FF#32 &&& 0x000000FF#32).toNat ∧
    0x05ABCD01#32 &&& 0xFF0000FF#32 = 0x05000001#32 &&& 0xFF0000FF#32 := by decide

theorem witness_EnqueueLatchesWordAndLine :
    let s := (toy.withSched [.prod]).withProg [enqLine 5#8 lineA]
    let u := (toy.withSched [.prod]).withProg [.op (.enqueue 255#8 255#8 [])]
    (s.TurnIs .prod [] ∧ s.Canonical ∧ s.prod.pphase = .idle ∧
      s.env.prog = .op (.enqueue 1#8 5#8 lineA) :: [] ∧ lineA.length = s.cfg.srcW) ∧
    (u.TurnIs .prod [] ∧ u.Canonical ∧ u.prod.pphase = .idle ∧
      u.env.prog = .op (.enqueue 255#8 255#8 []) :: [] ∧ 255#8 ≠ 1#8) := by decide

theorem witness_CopyPhaseFillsTheStagingBuffer :
    let s := (inPort Params.toy .copy 0x05000001#32).withSched [.prod]
    s.TurnIs .prod [] ∧ s.Canonical ∧ s.prod.pphase = .copy ∧ 7 < s.cfg.srcW ∧ s.cfg.srcW ≤ 8 := by decide

theorem witness_WaitMarkAndPushPhases :
    let line := (inPort Params.toy .wait 0x05000001#32).withSched [.prod]
    let idle := (inPort Params.toy .wait 0x01000002#32).withSched [.prod]
    let m := (inPort Params.toy .mark 0x05000001#32).withSched [.prod]
    let p := (inPort Params.toy .push 0x01000002#32).withSched [.prod]
    let f := queueIs p [0x00000000#32]
    (line.TurnIs .prod [] ∧ line.prod.pphase = .wait ∧ line.chan.busy = false ∧ tagOf line.prod.pcmd = 1#8) ∧
    (idle.TurnIs .prod [] ∧ idle.prod.pphase = .wait ∧ idle.chan.busy = false ∧ tagOf idle.prod.pcmd ≠ 1#8) ∧
    ((busyIs line true).TurnIs .prod [] ∧ (busyIs line true).prod.pphase = .wait ∧
      (busyIs line true).chan.busy = true) ∧
    (m.TurnIs .prod [] ∧ m.prod.pphase = .mark) ∧
    (p.TurnIs .prod [] ∧ p.prod.pphase = .push ∧ p.chan.q.length < p.cfg.fifoDepth) ∧
    (f.TurnIs .prod [] ∧ f.prod.pphase = .push ∧ f.cfg.fifoDepth ≤ f.chan.q.length) := by decide

theorem witness_FullQueueAtPushHoldsNoLine :
    let s := queueIs (inPort Params.toy .push 0x00000000#32) [0x00000002#32]
    s.ChannelInv ∧ s.prod.pphase = .push ∧ s.chan.q = [0x00000002#32] := by decide

theorem witness_EnqueueOfALineEndToEnd :
    let s := (toy.withSched (List.replicate 5 .prod)).withProg [enqLine 5#8 lineA]
    s.TurnIs .prod [.prod, .prod, .prod, .prod] ∧ s.Canonical ∧ s.prod.pphase = .idle ∧ s.chan.busy = false ∧
      s.chan.q.length < s.cfg.fifoDepth ∧ s.env.prog = enqLine 5#8 lineA :: [] ∧ lineA.length = s.cfg.srcW := by decide

theorem witness_BackpressureProtectsTheLineInFlight :
    let s := (queueIs (busyIs (inPort Params.toy .wait 0x06000001#32) true) [0x05000001#32]).withSched [.prod]
    let u := (busyIs (inPhase Params.toy .ack 0x05000001#32) true).withSched [.cons]
    (s.ChannelInv ∧ s.chan.busy = true ∧ s.turn ≠ .reset ∧ s.prod.pphase = .wait ∧
      nextIs (step s) (fun _ => true) = true) ∧
    (u.ChannelInv ∧ u.chan.busy = true ∧ u.turn ≠ .reset ∧
      nextIs (step u) (fun t => t.chan.busy = false) = true) := by decide

theorem witness_PopTakesTheOldestWord :
    let e := toy.withSched [.cons]
    let s := queueIs e [0x00000002#32]
    (s.TurnIs .cons [] ∧ s.cons.cphase = .pop ∧ s.chan.q = 0x00000002#32 :: []) ∧
    (e.TurnIs .cons [] ∧ e.cons.cphase = .pop ∧ e.chan.q = []) := by decide

/-- Every case of the dispatch, the line index at both sides of `SRC_H = 6`. -/
theorem witness_DispatchFollowsTheTag :
    let ok (w : Word) (r : Decoded) : Prop :=
      let s := (inPhase Params.toy .dispatch w).withSched [.cons]
      s.TurnIs .cons [] ∧ s.cons.cphase = .dispatch ∧ decode s.cons.cmd = r
    ok 0x7F000000#32 (.command (.nop 0x7F#8)) ∧ ok 0x05000001#32 (.command (.lcdLine 5#8)) ∧
    ok 0x06000001#32 (.command (.lcdLine 6#8)) ∧ ok 0x01000002#32 (.command (.idleSet 1#8)) ∧
    ok 0x00000003#32 (.command (.setPixel 0#8)) ∧ ok 0x00000004#32 (.reserved 4#8 0#8) ∧
    (5#8).toNat < Params.toy.srcH ∧ Params.toy.srcH ≤ (6#8).toNat := by decide

theorem witness_StepRunsTheCommandInCmd :
    let s := (inPhase Params.toy .dispatch 0x05000001#32).withSched [.cons]
    let r := (inPhase Params.toy .dispatch 0x00000007#32).withSched [.cons]
    (s.TurnIs .cons [] ∧ s.cons.cphase ≠ .pop ∧ decode s.cons.cmd = .command (.lcdLine 5#8)) ∧
    (r.TurnIs .cons [] ∧ r.cons.cphase ≠ .pop ∧ decode r.cons.cmd = .reserved 7#8 0#8) := by decide

theorem witness_ConsumerPhaseMovesOnlyAlongTheGraph :
    nextIs (step ((queueIs toy [0x00000000#32]).withSched [.cons])) (fun t => t.cons.cphase = .dispatch) = true ∧
    nextIs (step ((inPhase Params.toy .dispatch 0x05000001#32).withSched [.cons]))
      (fun t => t.cons.cphase = .resolve) = true ∧
    nextIs (step ((inPhase Params.toy .frame 0x05000001#32).withSched [.reset])) (fun t => t.cons.cphase = .pop) =
      true := by decide

theorem witness_NopHasNoEffect :
    let s := (queueIs toy [0x7F000000#32]).withSched [.cons, .cons]
    (inPhase Params.toy .dispatch 0x00000000#32).cons.cphase = .dispatch ∧
    (s.TurnIs .cons (.cons :: []) ∧ s.cons.cphase = .pop ∧ s.chan.q = 0x7F000000#32 :: [] ∧
      tagOf 0x7F000000#32 = 0#8) := by decide

theorem witness_SetPixelAndReservedTagsAreDiscarded :
    let s := inPhase Params.toy .dispatch 0x00000003#32
    let three := (queueIs toy [0x00000003#32]).withSched [.cons, .cons]
    let last := (queueIs toy [0x000000FF#32]).withSched [.cons, .cons]
    (s.cons.cphase = .dispatch ∧ s.cfg.debugSetPixel = false) ∧
    (State.resetWith { Params.toy with debugSetPixel := true }).cfg.debugSetPixel = true ∧
    (three.TurnIs .cons (.cons :: []) ∧ three.cons.cphase = .pop ∧ three.chan.q = 0x00000003#32 :: [] ∧
      3 ≤ (tagOf 0x00000003#32).toNat) ∧
    (last.TurnIs .cons (.cons :: []) ∧ last.cons.cphase = .pop ∧ last.chan.q = 0x000000FF#32 :: [] ∧
      3 ≤ (tagOf 0x000000FF#32).toNat) := by decide

theorem witness_LineOutsideTheFrameIsOnlyAcknowledged :
    let s := inPhase Params.toy .dispatch 0x06000001#32
    s.cons.cphase = .dispatch ∧ s.cfg.srcH ≤ (6#8).toNat ∧ s.cfg.srcH ≤ (255#8).toNat := by decide

theorem witness_AckClearsBusy : (inPhase Params.toy .ack 0x05000001#32).cons.cphase = .ack := by decide

theorem witness_IdleSetLatchesTheModeAndClearsTheDisplay :
    let ok (P : Params) : Prop :=
      let s := inPhase P .idle 0x01000002#32
      s.cfg.legal = true ∧ s.Canonical ∧ s.cons.cphase = .idle ∧ s.dmaInFlight = false
    let busy := transferIs (inPhase toyDma .idle 0x01000002#32) ⟨true, .xbuf, 16, 3⟩ ⟨0, 4, 15, 4⟩ ⟨3, 4⟩
    (inPhase Params.toy .dispatch 0x01000002#32).cons.cphase = .dispatch ∧
    ok Params.toy ∧ ok toyDma ∧ ok (toyFb 1 false) ∧ ok (toyFb 2 true) ∧
    (busy.cons.cphase = .idle ∧ busy.dmaInFlight = true) ∧ Cursor.InPanel ⟨15, 9⟩ Params.toy := by decide

theorem witness_DirectLineIsDrawnAndAcknowledged :
    let s := inPhase Params.toy .dispatch 0x05000001#32
    s.cfg.legal = true ∧ s.cfg.driverMode = .direct ∧ s.cfg.useDma = false ∧ s.Canonical ∧ s.RaceFree ∧
      s.cons.cphase = .dispatch ∧ (0#8).toNat < s.cfg.srcH ∧ (5#8).toNat < s.cfg.srcH ∧
      0 < 1 + vrep s.regs.scale 5 ∧ 7 < s.cfg.srcW ∧ 7 ∈ copiesOf s.regs.scale 7 ∧
      ¬ (placementOf s.cfg s.regs.scale 5).Covers ⟨0, 0⟩ := by decide

theorem witness_FramebufferedLineIsComposedAndAcknowledged :
    let ok (n : Nat) : Prop :=
      let s := inPhase (toyFb n false) .dispatch 0x05000001#32
      s.cfg.legal = true ∧ s.cfg.driverMode = .framebuffered ∧ s.cfg.useDma = false ∧ s.Canonical ∧ s.RaceFree ∧
        s.cons.cphase = .dispatch ∧ (4#8).toNat < s.cfg.srcH ∧ (4#8).toNat + 1 ≠ s.cfg.srcH ∧
        (5#8).toNat < s.cfg.srcH ∧ (5#8).toNat + 1 = s.cfg.srcH
    ok 1 ∧ ok 2 := by decide

theorem witness_StepKeepsTheInFlightInvariant :
    let s := (busyIs (inPhase Params.toy .ack 0x05000001#32) true).withSched [.cons]
    let m := (inPort Params.toy .mark 0x05000001#32).withSched [.prod]
    (s.ChannelInv ∧ nextIs (step s) (fun t => t.chan.busy = false) = true) ∧
    (m.ChannelInv ∧ nextIs (step m) (fun t => t.chan.busy = true) = true) := by decide

theorem witness_AtMostOneLineInFlight :
    let s := inPort Params.toy .copy 0x05000001#32
    let u := queueIs (busyIs toy true) [0x05000001#32]
    (s.ChannelInv ∧ s.prod.pphase = .copy) ∧ (u.ChannelInv ∧ u.chan.busy = true) := by decide

theorem witness_LutReadsThePaletteBySelectorAndShade :
    toy.RaceFree ∧ (0x03#8).toNat / 16 % 4 = 0 ∧ (0x13#8).toNat / 16 % 4 = 1 ∧ (0xEF#8).toNat / 16 % 4 = 2 ∧
      0xEF#8 &&& 0x33#8 = 0x23#8 &&& 0x33#8 := by decide

theorem witness_ResolvePhaseFillsTheLineBuffer :
    let ok (P : Params) : Prop :=
      let s := inPhase P .resolve 0x05000001#32
      s.Canonical ∧ s.RaceFree ∧ s.cons.cphase = .resolve ∧ 7 < s.cfg.srcW ∧ s.cfg.srcW ≤ 8
    ok Params.toy ∧ ok { Params.toy with ecmSupport := true } := by decide

theorem witness_VerticalTableStaysInsideThePanel : Params.toy.legal = true ∧ Params.default.legal = true := by decide

theorem witness_LayoutPhasePlacesEveryPixel :
    let ok (m : ScalingMode) : Prop :=
      let r := inPhase Params.toy .layout 0x05000001#32
      let s : State := { r with regs := { r.regs with scale := m } }
      s.Canonical ∧ s.RaceFree ∧ s.cons.cphase = .layout ∧ s.regs.scale = m
    ok .normal ∧ ok .stretch ∧ ok .keepAspect ∧ 14 ∉ copiesOf .keepAspect 7 ∧ 13 ∈ copiesOf .keepAspect 7 := by decide

theorem witness_LayoutIsAnOrderedIntegerZoom :
    7 < Params.toy.srcW ∧ 12 ∈ copiesOf .keepAspect 7 ∧ 13 ∈ copiesOf .keepAspect 7 ∧ 12 ≤ 13 := by decide

theorem witness_PlacedLineLiesInsideThePanel :
    (Params.toy.legal = true ∧ 5 < Params.toy.srcH) ∧ (Params.default.legal = true ∧ 143 < Params.default.srcH) := by
  decide

/-- The three places of the cursor: within a row, at its end, at the end of the window. -/
theorem witness_PanelWindowAndWrite :
    let p (c : Cursor) : Panel := { win := ⟨4, 4, 11, 5⟩, cur := c, pix := [] }
    ((p ⟨10, 4⟩).pix.wf = true ∧ (p ⟨10, 4⟩).cur.x < (p ⟨10, 4⟩).win.x1) ∧
    ((p ⟨11, 4⟩).win.x1 ≤ (p ⟨11, 4⟩).cur.x ∧ (p ⟨11, 4⟩).cur.y < (p ⟨11, 4⟩).win.y1) ∧
    ((p ⟨11, 5⟩).win.x1 ≤ (p ⟨11, 5⟩).cur.x ∧ (p ⟨11, 5⟩).win.y1 ≤ (p ⟨11, 5⟩).cur.y) := by decide

theorem witness_StreamFillsTheWindow :
    0 ≤ 1 ∧ 1 < Params.toy.panelW ∧ 5 ≤ 6 ∧ 6 < Params.toy.panelH ∧ toy.drv.panel.pix.wf = true ∧
      [0x000A#16, 0x000B#16, 0x000C#16, 0x000D#16].length = (1 - 0 + 1) * (6 - 5 + 1) ∧
      1 * (1 - 0 + 1) + 1 < 4 ∧ 1 < 1 - 0 + 1 ∧
      Cursor.InPanel ⟨2, 5⟩ Params.toy ∧ ¬ (0 ≤ 2 ∧ 2 ≤ 1 ∧ 5 ≤ 5 ∧ 5 ≤ 6) := by decide

theorem witness_ByteOrderFunctionIsAnInvolution :
    { Params.toy with swapBytes := true }.swapBytes = true ∧ Params.toy.swapBytes = false := by decide

theorem witness_DirectPushPaintsExactlyThePlacedLine :
    let s := inPhase Params.toy .push 0x05000001#32
    s.cfg.driverMode = .direct ∧ s.cfg.useDma = false ∧ s.Canonical ∧ s.cons.cphase = .push ∧
      placementInside s = true ∧ 0 < s.cons.place.outRows ∧ 7 < s.cons.place.outW ∧
      Cursor.InPanel ⟨8, 0⟩ s.cfg ∧ ¬ s.cons.place.Covers ⟨8, 0⟩ := by decide

theorem witness_DmaPushCopiesAndStartsTheTransfer :
    let s := inPhase toyDma .push 0x05000001#32
    let b := transferIs s ⟨true, .xbuf, 16, 3⟩ ⟨0, 4, 15, 4⟩ ⟨3, 4⟩
    (s.cfg.driverMode = .direct ∧ s.cfg.useDma = true ∧ s.cons.cphase = .push ∧ s.drv.dma.busy = false ∧
      s.Canonical ∧ placementInside s = true) ∧
    (b.cfg.driverMode = .direct ∧ b.cfg.useDma = true ∧ b.cons.cphase = .push ∧ b.drv.dma.busy = true) := by decide

theorem witness_CompletedDmaPushEqualsDirectPush :
    let s := inPhase toyDma .push 0x05000001#32
    s.cfg.driverMode = .direct ∧ s.cfg.useDma = true ∧ s.drv.dma.busy = false ∧ s.Canonical ∧
      s.cons.cphase = .push ∧ placementInside s = true := by decide

/-- One buffer with a transfer in flight. -/
theorem witness_FramebufferPushWritesTheWritableBuffer_waits :
    let s := transferIs (inPhase (toyFb 1 true) .push 0x05000001#32) ⟨true, .fb .zero, 160, 3⟩ ⟨0, 0, 15, 9⟩ ⟨3, 0⟩
    s.cfg.driverMode = .framebuffered ∧ s.cons.cphase = .push ∧ s.cfg.fbCount = 1 ∧ s.dmaInFlight = true := by decide

/-- One buffer without a transfer in flight, the line before the last. -/
theorem witness_FramebufferPushWritesTheWritableBuffer_one :
    let s := inPhase (toyFb 1 true) .push 0x04000001#32
    s.cfg.driverMode = .framebuffered ∧ s.cons.cphase = .push ∧ ¬ (s.cfg.fbCount = 1 ∧ s.dmaInFlight = true) ∧
      s.Canonical ∧ s.Gated ∧ placementInside s = true := by decide

/-- Two buffers with a transfer in flight from the other one, the last line. -/
theorem witness_FramebufferPushWritesTheWritableBuffer_two :
    let s := transferIs (inPhase (toyFb 2 true) .push 0x05000001#32) ⟨true, .fb .one, 160, 3⟩ ⟨0, 0, 15, 9⟩ ⟨3, 0⟩
    s.cfg.driverMode = .framebuffered ∧ s.cons.cphase = .push ∧ ¬ (s.cfg.fbCount = 1 ∧ s.dmaInFlight = true) ∧
      s.Canonical ∧ s.Gated ∧ placementInside s = true ∧ s.dmaInFlight = true ∧ s.cfg.fbCount = 2 := by decide

theorem witness_BlockingFramePushLoadsTheWholeBuffer :
    let ok (n : Nat) : Prop :=
      let s := inPhase (toyFb n false) .frame 0x05000001#32
      s.cfg.useDma = false ∧ s.cfg.legal = true ∧ s.Canonical ∧ s.cons.cphase = .frame
    ok 1 ∧ ok 2 := by decide

theorem witness_DmaFramePushStartsOrSkips :
    let s := inPhase (toyFb 2 true) .frame 0x05000001#32
    let b := transferIs s ⟨true, .fb .one, 160, 3⟩ ⟨0, 0, 15, 9⟩ ⟨3, 0⟩
    (s.cfg.useDma = true ∧ s.cons.cphase = .frame ∧ s.drv.dma.busy = false) ∧
    (b.cfg.useDma = true ∧ b.cons.cphase = .frame ∧ b.drv.dma.busy = true) := by decide

theorem witness_OneFramebufferNeverSkipsAFrame :
    let s := (inPhase (toyFb 1 true) .push 0x05000001#32).withSched [.cons]
    s.OneBufferFrameFree ∧ nextIs (step s) (fun t => t.cons.cphase = .frame) = true := by decide

/-- The transfer of a stretched line 2, three units in. -/
abbrev inTransfer (c : CPhase) (w : Word) : State :=
  transferIs (inPhase toyDma c w) ⟨true, .xbuf, 16, 3⟩ ⟨0, 4, 15, 4⟩ ⟨3, 4⟩

theorem inTransfer_sound : (inTransfer .pop 0x00000000#32).Sound := by
  refine ⟨by decide, by decide, by decide, by decide, trivial, by decide, by decide⟩

theorem inTransfer_delivered (c : CPhase) (w : Word) : (inTransfer c w).TransferDelivered := by
  intro _ j _; rfl

theorem witness_DmaBeatAndCompletion :
    let s := (inTransfer .pop 0x00000000#32).withSched [.dma]
    let done := { s with drv := { s.drv with dma := { s.drv.dma with pos := 16 } } }
    let none := (State.resetWith toyDma).withSched [.dma]
    (s.TurnIs .dma [] ∧ s.dmaInFlight = true ∧ s.drv.dma.pos < s.drv.dma.len) ∧
    (done.TurnIs .dma [] ∧ done.dmaInFlight = true ∧ done.drv.dma.len ≤ done.drv.dma.pos) ∧
    (none.TurnIs .dma [] ∧ none.dmaInFlight = false) := by decide

theorem witness_DmaBeatAndCompletion_sound : ((inTransfer .pop 0x00000000#32).withSched [.dma]).Sound :=
  inTransfer_sound

theorem witness_TransferCompletesAndDeliversItsSource :
    let s := inTransfer .pop 0x00000000#32
    s.Sound ∧ s.Canonical ∧ s.TransferDelivered ∧ s.dmaInFlight = true :=
  ⟨inTransfer_sound, by decide, inTransfer_delivered _ _, by decide⟩

theorem witness_TransferInFlightGatesTheConsumer :
    let s := (inTransfer .push 0x03000001#32).withSched [.cons]
    s.Gated ∧ nextIs (step s) (fun _ => true) = true ∧ s.dmaInFlight = true ∧ s.turn = .cons := by decide

theorem witness_StepKeepsTheDeliveredPrefix :
    let s := (inTransfer .pop 0x00000000#32).withSched [.dma]
    s.Sound ∧ s.Canonical ∧ s.Gated ∧ s.TransferDelivered ∧
      nextIs (step s) (fun t => t.drv.dma.pos = 4) = true :=
  ⟨inTransfer_sound, by decide, by decide, inTransfer_delivered _ _, by decide⟩

theorem witness_ConfigurationWritesChangeOneElement :
    let ok (o : PortOp) : Prop :=
      let s := ((State.resetWith { Params.toy with ecmSupport := true }).withSched [.prod]).withProg [.op o]
      s.TurnIs .prod [] ∧ s.prod.pphase = .idle ∧ s.chan.busy = false ∧ s.cfg.ecmSupport = true ∧
        63 < s.cfg.ecmN ∧ s.regs.ecmTab.wf = true ∧ s.env.prog = .op o :: []
    ok (.cfgPal .background 3#2 0xFFFF#16) ∧ ok (.cfgScale 2#2) ∧ ok (.cfgScale 3#2) ∧ ok (.cfgEcm true) ∧
      ok (.cfgEcmTab 63 0x1234#16) := by decide

theorem witness_StatusReturnsBusy :
    let s := (toy.withSched [.prod]).withProg [.op .status]
    let w := (toy.withSched [.prod]).withProg [.waitIdle]
    (s.TurnIs .prod [] ∧ s.prod.pphase = .idle ∧ s.env.prog = .op .status :: []) ∧
    (w.TurnIs .prod [] ∧ w.prod.pphase = .idle ∧ w.env.prog = .waitIdle :: [] ∧ w.chan.busy = false) ∧
    ((busyIs w true).TurnIs .prod [] ∧ (busyIs w true).env.prog = .waitIdle :: [] ∧
      (busyIs w true).chan.busy = true) := by decide

theorem witness_RacingReadReturnsOldOrNew :
    ∀ o ∈ [PortOp.cfgScale 2#2, .cfgScale 3#2, .cfgPal .object0 0#2 0x1234#16, .cfgPal .background 3#2 0x1234#16,
        .cfgEcm true, .cfgEcmTab 0 0x1234#16, .cfgEcmTab 63 0x1234#16],
      let r := State.resetWith { Params.toy with ecmSupport := true }
      let s := ((busyIs r true).withSched [.prod]).withProg [.op o]
      s.TurnIs .prod [] ∧ s.prod.pphase = .idle ∧ s.chan.busy = true ∧ s.cfg.ecmSupport = true ∧ 63 < s.cfg.ecmN ∧
        s.regs.ecmTab.wf = true ∧ s.env.prog = .op o :: [] := by decide

theorem witness_RacingReadReturnsOldOrNew_modes :
    scaleOf 2#2 = some .keepAspect ∧ scaleOf 3#2 = none ∧ toy.cfg.ecmSupport = false := by decide

/-- A record stays while the line is resolved. -/
theorem witness_RacingReadReturnsOldOrNew_stays :
    let r := (busyIs (inPhase Params.toy .dispatch 0x05000001#32) true).withSched [.cons]
    let s : State := { r with env := { r.env with races := [.scale .stretch] } }
    nextIs (step s) (fun t => t.env.races = [.scale .stretch]) = true ∧ s.turn ≠ .reset ∧
      ¬ (s.turn = .cons ∧ s.cons.cphase = .ack) := by decide

theorem witness_EachAgentWritesOnlyItsOwnState :
    let p := (toy.withSched [.prod]).withProg [enqLine 5#8 lineA]
    let c := (queueIs toy [0x00000000#32]).withSched [.cons]
    let d := (inTransfer .pop 0x00000000#32).withSched [.dma]
    (nextIs (step p) (fun _ => true) = true ∧ p.turn = .prod) ∧
    (nextIs (step c) (fun _ => true) = true ∧ c.turn = .cons) ∧
    (nextIs (step d) (fun _ => true) = true ∧ d.turn = .dma) := by decide

theorem witness_NoStepOfASoundStateFaults :
    (inTransfer .pop 0x00000000#32).Sound ∧ nextIs (step ((inTransfer .pop 0x00000000#32).withSched [.prod]))
      (fun _ => true) = true := ⟨inTransfer_sound, by decide⟩

/-- The other case: an operation that does not exist in this configuration. -/
theorem witness_NoStepOfASoundStateFaults_refused :
    let s := ((inTransfer .pop 0x00000000#32).withSched [.prod]).withProg [.op (.cfgEcm true)]
    s.Sound ∧ refusedWith (step s) .malformedPortOp = true ∧ s.turn = .prod ∧ s.prod.pphase = .idle ∧
      s.env.prog = .op (.cfgEcm true) :: [] ∧ (PortOp.cfgEcm true).wellFormed s.cfg = false :=
  ⟨inTransfer_sound, by decide, by decide, by decide, by decide, by decide⟩

theorem witness_StepKeepsTheStateSound :
    let s := (inTransfer .pop 0x00000000#32).withSched [.dma]
    s.Sound ∧ nextIs (step s) (fun t => t.drv.panel.cur = ⟨4, 4⟩) = true := ⟨inTransfer_sound, by decide⟩

theorem witness_StepKeepsMemoriesCanonical :
    let s := (inPort Params.toy .copy 0x05000001#32).withSched [.prod]
    s.Canonical ∧ nextIs (step s) (fun _ => true) = true := by decide

theorem witness_ResetStateMeetsTheInvariants :
    (Params.default.legal = true ∧ Params.default.debugSetPixel = false) ∧
    (Params.toy.legal = true ∧ Params.toy.debugSetPixel = false) ∧
    ((toyFb 2 true).legal = true ∧ (toyFb 2 true).debugSetPixel = false) := by decide

theorem witness_ResetInputGivesTheResetState :
    ((inTransfer .push 0x03000001#32).withSched [.reset]).TurnIs .reset [] := by decide

theorem witness_QuiescentStateMovesOnlyByANewOperation :
    let s := toy.withSched [.cons]
    s.TurnIs .cons [] ∧ Turn.cons ≠ .reset ∧ s.Quiescent ∧ s.env.prog = [] := by decide

theorem witness_IllegalParametersAreRefused :
    (State.resetWith { Params.toy with debugSetPixel := true }).cfg.debugSetPixel = true ∧
    ((State.resetWith { Params.toy with panelW := 15 }).cfg.debugSetPixel = false ∧
      (State.resetWith { Params.toy with panelW := 15 }).cfg.legal = false) ∧
    (toy.cfg.debugSetPixel = false ∧ toy.cfg.legal = true) := by decide

theorem witness_ProducerAndDmaStepsCommute :
    let s := (inTransfer .push 0x03000001#32).withProg [enqLine 5#8 lineA]
    nextIs (prodTurn s) (fun a => a.prod.pphase = .wait) = true ∧
    nextIs (dmaTurn s) (fun b => b.drv.dma.pos = 4) = true := by decide

/-- The schedule that gives each agent of the block a turn in three. -/
def roundRobin (n : Nat) : Turn :=
  match n % 3 with
  | 0 => .prod
  | 1 => .cons
  | _ => .dma

/-- The states from `s` under the schedule `σ`; a step with no next state would stay where it is. -/
def runOf (σ : Nat → Turn) (s : State) : Nat → State
  | 0 => s
  | n + 1 =>
    match step ((runOf σ s n).withSched [σ n]) with
    | .next t => t
    | .fault _ => runOf σ s n
    | .refused _ => runOf σ s n

theorem runOf_succ {σ : Nat → Turn} {s t : State} {n : Nat} (h : step ((runOf σ s n).withSched [σ n]) = .next t) :
    runOf σ s (n + 1) = t := by simp only [runOf, h]

/-- A step that answers a next state leads there. -/
theorem step_runOf {σ : Nat → Turn} {s : State} {n : Nat} {p : State → Bool}
    (h : nextIs (step ((runOf σ s n).withSched [σ n])) p = true) :
    step ((runOf σ s n).withSched [σ n]) = .next (runOf σ s (n + 1)) ∧ p (runOf σ s (n + 1)) = true := by
  cases he : step ((runOf σ s n).withSched [σ n]) with
  | next t => rw [runOf_succ he]; rw [he] at h; exact ⟨rfl, h⟩
  | fault r => rw [he] at h; cases h
  | refused r => rw [he] at h; cases h

/-- The states stay at `q` once every scheduled step from `q` leads back to it. -/
theorem runOf_stays {σ : Nat → Turn} {s q : State} {N : Nat} (hN : runOf σ s N = q)
    (hq : ∀ n, nextIs (step (q.withSched [σ n])) (fun t => t = q) = true) : ∀ j, runOf σ s (N + j) = q
  | 0 => hN
  | j + 1 => by
    have h := hq (N + j)
    rw [← runOf_stays hN hq j] at h
    rw [← Nat.add_assoc]; exact (of_decide_eq_true (step_runOf h).2).trans (runOf_stays hN hq j)

/-- So from `s` there is a run that ends at `q`. -/
theorem isRun_runOf {σ : Nat → Turn} {s q : State} {N : Nat} (hN : runOf σ s N = q)
    (hq : ∀ n, nextIs (step (q.withSched [σ n])) (fun t => t = q) = true)
    (hfirst : ∀ n < N, nextIs (step ((runOf σ s n).withSched [σ n])) (fun _ => true) = true) :
    IsRun σ (runOf σ s) := by
  intro n
  by_cases h : n < N
  · exact (step_runOf (hfirst n h)).1
  · obtain ⟨j, rfl⟩ := Nat.exists_eq_add_of_le (Nat.le_of_not_lt h)
    have hj := hq (N + j)
    rw [← runOf_stays hN hq j] at hj
    exact (step_runOf hj).1

theorem roundRobin_fair (r : Nat → State) : WeaklyFair roundRobin r := by
  intro a ha n
  cases a
  · exact ⟨3 * n, by omega, .inl (by simp [roundRobin])⟩
  · exact ⟨3 * n + 1, by omega, .inl (by simp [roundRobin])⟩
  · exact ⟨3 * n + 2, by omega, .inl (by simp [roundRobin])⟩
  · exact absurd rfl ha

theorem roundRobin_cases (n : Nat) : roundRobin n = .prod ∨ roundRobin n = .cons ∨ roundRobin n = .dma := by
  unfold roundRobin; split <;> simp

/-- A line in `C_ACK`, a NOP in `Q`, a NOP waiting in `P_WAIT` and one beat of a transfer left. -/
abbrev everythingBusy : State :=
  let r := queueIs (busyIs (inPhase toyDma .ack 0x05000001#32) true) [0x00000000#32]
  transferIs { r with prod := { r.prod with pphase := .wait, pcmd := 0x7F000000#32 } } ⟨true, .xbuf, 16, 15⟩
    ⟨0, 4, 15, 4⟩ ⟨15, 4⟩

/-- A producer in `P_WAIT` behind a line whose `C_PUSH` waits for a transfer. -/
abbrev wedged : State :=
  let r := inTransfer .push 0x03000001#32
  { busyIs r true with prod := { r.prod with pphase := .wait, pcmd := 0x04000001#32 } }

theorem witness_WeaklyFairRunsMakeProgress_fair :
    ∃ σ r, IsRun σ r ∧ WeaklyFair σ r ∧ (∀ n, σ n ≠ .reset) ∧ (r 0).ChannelInv ∧ (r 0).dmaInFlight = true ∧
      (r 0).chan.q = [] ++ 0x00000000#32 :: [] ∧ (r 0).chan.busy = true ∧ (r 0).prod.pphase ≠ .idle := by
  have hq : ∀ a ∈ [Turn.prod, .cons, .dma], nextIs (step ((runOf roundRobin everythingBusy 15).withSched [a]))
      (fun t => t = runOf roundRobin everythingBusy 15) = true := by decide +kernel
  refine ⟨roundRobin, runOf roundRobin everythingBusy, isRun_runOf (N := 15) rfl (fun n => hq _ ?_) (by decide +kernel),
    roundRobin_fair _, fun n => ?_, by decide, by decide, by decide, by decide, by decide⟩
  · simpa using roundRobin_cases n
  · rcases roundRobin_cases n with h | h | h <;> simp [h]

/-- A consumer, and a DMA engine, that never moves. -/
theorem witness_WeaklyFairRunsMakeProgress_wedged :
    let s := wedged.withSched []
    let stuck (a : Turn) : Prop := ∃ σ r, IsRun σ r ∧ (r 0).prod.pphase = .wait ∧ (r 0).chan.busy = true ∧
      (r 0).cons.cphase = .push ∧ pushWaits (r 0) = true ∧ ∀ n, σ n = a
    s.ChannelInv ∧ stuck .prod ∧ stuck .cons := by
  refine ⟨by decide, ⟨fun _ => .prod, runOf (fun _ => .prod) (wedged.withSched []),
      isRun_runOf (N := 0) rfl (fun _ => by decide +kernel) (by simp), ?_⟩,
    ⟨fun _ => .cons, runOf (fun _ => .cons) (wedged.withSched []),
      isRun_runOf (N := 0) rfl (fun _ => by decide +kernel) (by simp), ?_⟩⟩
  all_goals exact ⟨by decide, by decide, by decide, by decide, fun _ => rfl⟩

theorem witness_EnqueuedLineReachesThePanel :
    let s := (toy.withSched (List.replicate 5 .prod ++ List.replicate 6 .cons)).withProg [enqLine 5#8 lineA]
    s.TurnIs .prod (List.replicate 4 .prod ++ List.replicate 6 .cons ++ []) ∧ s.Quiescent ∧ s.Canonical ∧
      s.RaceFree ∧ s.cfg.driverMode = .direct ∧ s.cfg.useDma = false ∧
      s.env.prog = enqLine 5#8 lineA :: [] ∧ lineA.length = s.cfg.srcW ∧ (5#8).toNat < s.cfg.srcH := by decide

end Sys2Proof.Tests
end

section
/-! The consumer's pop (R82): one equation per form of `Q`, and the consumer turn at `C_POP`. -/

namespace Sys2Proof.Machine

theorem popPhase_of_nil {s : State} (hq : s.chan.q = []) : popPhase s = s := by
  simp [popPhase, hq]

theorem popPhase_of_cons {s : State} {w : Word} {ws : List Word} (hq : s.chan.q = w :: ws) :
    popPhase s = { s with chan := { s.chan with q := ws }, cons := { s.cons with cmd := w, cphase := .dispatch } } := by
  simp [popPhase, hq]

theorem consTurn_of_pop {s : State} (hp : s.cons.cphase = .pop) : consTurn s = .next (popPhase s) :=
  if_pos hp

/-- A scheduled consumer step at `C_POP` is the pop with the turn taken (R82, R84). -/
theorem step_eq_popPhase {s : State} {rest : List Turn} (ht : s.TurnIs .cons rest) (hp : s.cons.cphase = .pop) :
    step s = .next (popPhase (s.withSched rest)) :=
  (step_of_turnIs ht).trans (consTurn_of_pop (s := s.withSched rest) hp)

/-- Settles O11: the step is `popPhase` with the turn taken, whose two equations are the two clauses. -/
theorem popTakesTheOldestWord : Obligations.PopTakesTheOldestWord := by
  intro s rest ht hp
  rw [step_eq_popPhase ht hp]
  constructor
  · intro w ws hq
    rw [popPhase_of_cons (s := s.withSched rest) hq]
    rfl
  · intro hq
    rw [popPhase_of_nil (s := s.withSched rest) hq]

end Sys2Proof.Machine
end

section
/-! The repeat predicate and the height of a stretched frame (R104). -/

namespace Sys2Proof.Machine

theorem rep_eq_one_iff (i : Nat) : rep i = 1 ↔ i % 2 = 1 ∨ i % 6 = 0 := by
  unfold rep
  split
  case isTrue h => exact iff_of_true rfl h
  case isFalse h => exact iff_of_false Nat.zero_ne_one h

theorem rep_add_six (i : Nat) : rep (i + 6) = rep i := by
  rw [← rep_mod_six (i + 6), Nat.add_mod_right, rep_mod_six]

/-- `repCount` is the number of repeated indices below its argument, the form R104 writes it in. -/
theorem repCount_eq_length_filter (n : Nat) :
    repCount n = ((List.range n).filter fun i => rep i = 1).length := by
  induction n with
  | zero => rfl
  | succ n ih =>
    rw [repCount_succ, List.range_succ, List.filter_append, List.length_append, ← ih]
    rcases rep_cases n with h | h <;> simp [h]

/-- Settles O26: the values by the definition, the period by reduction modulo six, the height by counting
the repeated lines one by one. -/
theorem repeatPredicateAndStretchedHeight : Obligations.RepeatPredicateAndStretchedHeight := by
  refine ⟨fun i => ⟨rep_eq_one_iff i, rep_cases i, rep_add_six i⟩, by decide, fun P => ?_⟩
  rw [outH, repCount_eq_length_filter]

end Sys2Proof.Machine
end

section
/-! Decoding and encoding (30_encoding.md R60 to R70): what an answer of the decoder says of the word's fields, and
the round trips. -/

namespace Sys2Proof

theorem decode_encode (i : Instr) : decode (encode i) = .command i := by
  cases i <;> simp [decode, encode, tagOf_encodeWord, dataOf_encodeWord, Instr.tag, Instr.data]

theorem decodeBytes_of_decode {w : Word} {i : Instr} (h : decode w = .command i) (rest : List Byte) :
    decodeBytes (bytesOfWord w ++ rest) = .ok (i, rest) := by
  simp [bytesOfWord, decodeBytes, wordOfBytes_of_word, h]

/-- Settles O1: the fields of an encoded word are the command's, and the bytes of a word make that word again. -/
theorem decodeOfEncodeGivesTheCommand : Obligations.DecodeOfEncodeGivesTheCommand :=
  fun i => ⟨decode_encode i, decodeBytes_of_decode (decode_encode i)⟩

/-- A tag other than the four commands' is at least 4 (R65, R67). -/
theorem four_le_of_tag_ne {t : Byte} (h0 : t ≠ 0#8) (h1 : t ≠ 1#8) (h2 : t ≠ 2#8) (h3 : t ≠ 3#8) : 4 ≤ t.toNat := by
  bv_omega

theorem decode_command {w : Word} {i : Instr} (h : decode w = .command i) : tagOf w = i.tag ∧ dataOf w = i.data := by
  unfold decode at h
  split_ifs at h with h0 h1 h2 h3 <;> cases h
  · exact ⟨h0, rfl⟩
  · exact ⟨h1, rfl⟩
  · exact ⟨h2, rfl⟩
  · exact ⟨h3, rfl⟩

theorem decode_reserved {w : Word} {t d : Byte} (h : decode w = .reserved t d) :
    tagOf w = t ∧ dataOf w = d ∧ 4 ≤ t.toNat := by
  unfold decode at h
  split_ifs at h with h0 h1 h2 h3
  cases h
  exact ⟨rfl, rfl, four_le_of_tag_ne h0 h1 h2 h3⟩

theorem decode_of_four_le_tag {w : Word} (h : 4 ≤ (tagOf w).toNat) : decode w = .reserved (tagOf w) (dataOf w) := by
  have hne : ∀ k : Byte, k.toNat < 4 → tagOf w ≠ k := by
    rintro k hk rfl
    omega
  simp [decode, hne]

/-- The decoder looks at the tag and the payload only (R63, R66). -/
theorem decode_congr {w w' : Word} (ht : tagOf w = tagOf w') (hd : dataOf w = dataOf w') : decode w = decode w' := by
  simp only [decode, ht, hd]

/-- Settles O2: a decoded word's tag and payload are those it is encoded from, and these two make the masked word. -/
theorem encodeOfDecodeZeroesOnlyReservedBytes : Obligations.EncodeOfDecodeZeroesOnlyReservedBytes := by
  intro w
  constructor
  · intro i h
    obtain ⟨ht, hd⟩ := decode_command h
    rw [encode, ← ht, ← hd, encodeWord_fields]
  · intro t d h
    obtain ⟨rfl, rfl, h4⟩ := decode_reserved h
    exact ⟨encodeWord_fields w, h4⟩

/-- A match of the mask `0x000000FF` is a match of the tag (R63). -/
theorem tagOf_of_mask {w : Word} {k : Byte} {m : Word} (h : w &&& 0x000000FF#32 = m) (hm : m.toNat = k.toNat) :
    tagOf w = k := by
  apply BitVec.eq_of_toNat_eq
  rw [← land_mask, h, hm]

/-- Words equal outside bits 23..8 have the same tag and the same payload (R61, R66). -/
theorem fields_of_masked_eq {w w' : Word} (h : w &&& 0xFF0000FF#32 = w' &&& 0xFF0000FF#32) :
    tagOf w = tagOf w' ∧ dataOf w = dataOf w' := by
  rw [← encodeWord_fields, ← encodeWord_fields] at h
  constructor
  · simpa only [tagOf_encodeWord] using congrArg tagOf h
  · simpa only [dataOf_encodeWord] using congrArg dataOf h

/-- Settles O3: each row of the decoder by the tag that the mask leaves. -/
theorem decodeFollowsTheTagAndIgnoresReservedBytes : Obligations.DecodeFollowsTheTagAndIgnoresReservedBytes := by
  intro w
  refine ⟨fun h => ?_, fun h => ?_, fun h => ?_, fun h => ?_, fun h => ?_, tagOf_toNat w, dataOf_toNat w,
    fun w' h => ?_⟩
  · simp [decode, tagOf_of_mask (k := 0#8) h rfl]
  · simp [decode, tagOf_of_mask (k := 1#8) h rfl]
  · simp [decode, tagOf_of_mask (k := 2#8) h rfl]
  · simp [decode, tagOf_of_mask (k := 3#8) h rfl]
  · exact decode_of_four_le_tag (by rwa [← land_mask])
  · obtain ⟨ht, hd⟩ := fields_of_masked_eq h
    exact decode_congr ht hd

/-- Settles O4: fixed words, by evaluation. -/
theorem workedEncodingsAndDecodings : Obligations.WorkedEncodingsAndDecodings := by
  unfold Obligations.WorkedEncodingsAndDecodings
  decide

end Sys2Proof
end

section
/-! What every step may do to the machine's shared records, and the memories of a canonical state by name. -/

namespace Sys2Proof.Machine

section
variable {s : State} (h : s.Canonical)
include h

theorem State.Canonical.stg_wf : s.chan.stg.wf = true := h.1
theorem State.Canonical.pline_wf : s.prod.pline.wf = true := h.2.1
theorem State.Canonical.linebuf_wf : s.cons.linebuf.wf = true := h.2.2.1
theorem State.Canonical.outbuf_wf : s.cons.outbuf.wf = true := h.2.2.2.1
theorem State.Canonical.ecmTab_wf : s.regs.ecmTab.wf = true := h.2.2.2.2.1
theorem State.Canonical.xbuf_wf : s.drv.xbuf.wf = true := h.2.2.2.2.2.1
theorem State.Canonical.pix_wf : s.drv.panel.pix.wf = true := h.2.2.2.2.2.2.2.2

end

/-- A row written from address 0 on holds its values at their own positions. -/
theorem Memory.read_writeRow_zero {w : Nat} {m : Memory w} (hm : m.wf = true) (vs : List (BitVec w)) {j : Nat}
    (hj : j < vs.length) : (m.writeRow 0 vs).read j = vs[j] := by
  have h := Memory.read_writeRow_inside vs 0 j hj hm
  rwa [Nat.zero_add] at h

/-- The race a configuration write opens, as one record update (R59). -/
theorem State.race_eq (s : State) (r : Race) : s.race r =
    { s with env := { s.env with races := if s.chan.busy then r :: s.env.races else s.env.races } } := by
  unfold State.race State.loadBusy
  split <;> rfl

end Sys2Proof.Machine
end

section
/-! The producer port (40_channel.md R76 to R81, 43_config_port.md R160 to R166): one equation per phase and per
operation of a producer turn. -/

namespace Sys2Proof.Machine

section
variable {s : State}

theorem prodTurn_of_wait (hp : s.prod.pphase = .wait) : prodTurn s = .next (waitPhase s) := by simp [prodTurn, hp]
theorem prodTurn_of_copy (hp : s.prod.pphase = .copy) : prodTurn s = .next (copyPhase s) := by simp [prodTurn, hp]
theorem prodTurn_of_mark (hp : s.prod.pphase = .mark) : prodTurn s = .next (markPhase s) := by simp [prodTurn, hp]
theorem prodTurn_of_push (hp : s.prod.pphase = .push) : prodTurn s = .next (pushWordPhase s) := by
  simp [prodTurn, hp]

theorem prodTurn_of_nil (hp : s.prod.pphase = .idle) (hg : s.env.prog = []) : prodTurn s = .next s := by
  simp [prodTurn, hp, issueNext, hg]

theorem prodTurn_of_op {o : PortOp} {more : List ProgItem} (hp : s.prod.pphase = .idle)
    (hg : s.env.prog = .op o :: more) (hw : o.wellFormed s.cfg = true) :
    prodTurn s = .next (portOp o (s.issued more)) := by simp [prodTurn, hp, issueNext, hg, hw]

theorem prodTurn_of_malformed {o : PortOp} {more : List ProgItem} (hp : s.prod.pphase = .idle)
    (hg : s.env.prog = .op o :: more) (hw : o.wellFormed s.cfg = false) :
    prodTurn s = .refused .malformedPortOp := by simp [prodTurn, hp, issueNext, hg, hw]

theorem prodTurn_of_waitIdle {more : List ProgItem} (hp : s.prod.pphase = .idle)
    (hg : s.env.prog = .waitIdle :: more) : prodTurn s = .next (pollOnce more s) := by
  simp [prodTurn, hp, issueNext, hg]

theorem waitPhase_of_busy (hb : s.chan.busy = true) : waitPhase s = s := by simp [waitPhase, hb]
theorem waitPhase_of_line (hb : s.chan.busy = false) (ht : tagOf s.prod.pcmd = 1#8) :
    waitPhase s = s.toPPhase .copy := by simp [waitPhase, hb, ht]
theorem waitPhase_of_other (hb : s.chan.busy = false) (ht : tagOf s.prod.pcmd ≠ 1#8) :
    waitPhase s = s.toPPhase .push := by simp [waitPhase, hb, ht]

theorem pushWordPhase_of_full (h : s.cfg.fifoDepth ≤ s.chan.q.length) : pushWordPhase s = s := by
  simp [pushWordPhase, h]
theorem pushWordPhase_of_room (h : s.chan.q.length < s.cfg.fifoDepth) : pushWordPhase s =
    ({ s with chan := { s.chan with q := s.chan.q ++ [s.prod.pcmd] } }).toPPhase .idle := by
  simp [pushWordPhase, Nat.not_le.2 h]

variable {rest : List Turn}

/-- A scheduled producer step is the producer's turn on the state with the turn taken (R52). -/
theorem step_prod (ht : s.TurnIs .prod rest) : step s = prodTurn (s.withSched rest) := step_of_turnIs ht

/-- A well-formed operation is issued in one step (R76, R160). -/
theorem step_portOp {o : PortOp} {more : List ProgItem} (ht : s.TurnIs .prod rest) (hp : s.prod.pphase = .idle)
    (hg : s.env.prog = .op o :: more) (hw : o.wellFormed s.cfg = true) :
    step s = .next (portOp o ((s.withSched rest).issued more)) :=
  (step_prod ht).trans (prodTurn_of_op (s := s.withSched rest) hp hg hw)

theorem step_wait_of_busy (ht : s.TurnIs .prod rest) (hp : s.prod.pphase = .wait) (hb : s.chan.busy = true) :
    step s = .next (s.withSched rest) := by
  rw [step_prod ht, prodTurn_of_wait (s := s.withSched rest) hp, waitPhase_of_busy (s := s.withSched rest) hb]

theorem step_wait_of_line (ht : s.TurnIs .prod rest) (hp : s.prod.pphase = .wait) (hb : s.chan.busy = false)
    (htag : tagOf s.prod.pcmd = 1#8) : step s = .next ((s.withSched rest).toPPhase .copy) := by
  rw [step_prod ht, prodTurn_of_wait (s := s.withSched rest) hp, waitPhase_of_line (s := s.withSched rest) hb htag]

theorem step_wait_of_other (ht : s.TurnIs .prod rest) (hp : s.prod.pphase = .wait) (hb : s.chan.busy = false)
    (htag : tagOf s.prod.pcmd ≠ 1#8) : step s = .next ((s.withSched rest).toPPhase .push) := by
  rw [step_prod ht, prodTurn_of_wait (s := s.withSched rest) hp, waitPhase_of_other (s := s.withSched rest) hb htag]

theorem step_copy (ht : s.TurnIs .prod rest) (hp : s.prod.pphase = .copy) :
    step s = .next (copyPhase (s.withSched rest)) := by
  rw [step_prod ht, prodTurn_of_copy (s := s.withSched rest) hp]

theorem step_mark (ht : s.TurnIs .prod rest) (hp : s.prod.pphase = .mark) :
    step s = .next (markPhase (s.withSched rest)) := by
  rw [step_prod ht, prodTurn_of_mark (s := s.withSched rest) hp]

theorem step_push_of_room (ht : s.TurnIs .prod rest) (hp : s.prod.pphase = .push)
    (hq : s.chan.q.length < s.cfg.fifoDepth) : step s = .next { s with
      chan := { s.chan with q := s.chan.q ++ [s.prod.pcmd] }
      prod := { s.prod with pphase := .idle }
      env := { s.env with sched := rest } } := by
  rw [step_prod ht, prodTurn_of_push (s := s.withSched rest) hp, pushWordPhase_of_room (s := s.withSched rest) hq]
  rfl

theorem step_push_of_full (ht : s.TurnIs .prod rest) (hp : s.prod.pphase = .push)
    (hq : s.cfg.fifoDepth ≤ s.chan.q.length) : step s = .next (s.withSched rest) := by
  rw [step_prod ht, prodTurn_of_push (s := s.withSched rest) hp, pushWordPhase_of_full (s := s.withSched rest) hq]

end

theorem enqueue_wellFormed {P : Params} {tag data : Byte} {codes : List Byte}
    (h : tag = 1#8 → codes.length = P.srcW) : (PortOp.enqueue tag data codes).wellFormed P = true := by
  by_cases ht : tag = 1#8 <;> simp [PortOp.wellFormed, ht, h]

/-- Settles O5: the accepted operation is `acceptEnqueue`, and the latched row holds the codes. -/
theorem enqueueLatchesWordAndLine : Obligations.EnqueueLatchesWordAndLine := by
  intro s rest tag data codes more ht hc hp hg hlen
  refine ⟨_, step_portOp ht hp hg (enqueue_wellFormed hlen), rfl, encodeWord_toNat tag data, fun x hx htag => ?_,
    fun htag => if_neg htag, rfl, rfl, rfl, rfl, rfl, rfl⟩
  have hline : (acceptEnqueue tag data codes ((s.withSched rest).issued more)).prod.pline =
      s.prod.pline.writeRow 0 codes := if_pos htag
  exact (congrArg (Memory.read · x) hline).trans (Memory.read_writeRow_zero hc.pline_wf codes hx)

/-- What `P_COPY` leaves in `STG` (R78). -/
theorem copyPhase_stg {s : State} (hc : s.Canonical) :
    (∀ x < s.cfg.srcW, (copyPhase s).chan.stg.read x = s.prod.pline.read x) ∧
    (∀ a, s.cfg.srcW ≤ a → (copyPhase s).chan.stg.read a = s.chan.stg.read a) := by
  constructor
  · intro x hx
    have h := Memory.read_writeRow_zero hc.stg_wf (s.prod.pline.elements s.cfg.srcW) (j := x) (by simpa using hx)
    rwa [Memory.getElem_elements] at h
  · intro a ha
    exact Memory.read_writeRow_outside _ _ _ _ (.inr (by simpa using ha))

/-- Settles O6: the step is `copyPhase`, whose row of writes is `PLINE`'s elements. -/
theorem copyPhaseFillsTheStagingBuffer : Obligations.CopyPhaseFillsTheStagingBuffer := by
  intro s rest ht hc hp
  obtain ⟨hin, hout⟩ := copyPhase_stg (s := s.withSched rest) hc
  exact ⟨_, step_copy ht hp, hin, hout, rfl⟩

/-- Settles O7: one equation of the step per phase and condition. -/
theorem waitMarkAndPushPhases : Obligations.WaitMarkAndPushPhases := fun _ _ ht =>
  ⟨fun hp => ⟨step_wait_of_busy ht hp, step_wait_of_line ht hp, step_wait_of_other ht hp⟩, step_mark ht,
    step_push_of_room ht, step_push_of_full ht⟩

/-- The state after the ENQUEUE of a line has been accepted, with the turns `ts` left (R76). -/
def acceptedLine (s : State) (n : Byte) (codes : List Byte) (more : List ProgItem) (ts : List Turn) : State :=
  acceptEnqueue 1#8 n codes ((s.withSched ts).issued more)

/-- The state five producer steps after an ENQUEUE of a line was next in the program, nothing being in flight. -/
def enqueuedLine (s : State) (n : Byte) (codes : List Byte) (more : List ProgItem) (rest : List Turn) : State :=
  { s with
    chan := { q := s.chan.q ++ [encodeWord 1#8 n], busy := true,
              stg := s.chan.stg.writeRow 0 ((s.prod.pline.writeRow 0 codes).elements s.cfg.srcW) }
    prod := { pphase := .idle, pcmd := encodeWord 1#8 n, pline := s.prod.pline.writeRow 0 codes }
    env := { s.env with sched := rest, prog := more } }

/-- The five phases of the ENQUEUE one after another: accepted, waited, copied, marked, pushed (R81). -/
theorem run_enqueueLine {s : State} {rest : List Turn} {n : Byte} {codes : List Byte} {more : List ProgItem}
    (ht : s.TurnIs .prod (.prod :: .prod :: .prod :: .prod :: rest)) (hp : s.prod.pphase = .idle)
    (hb : s.chan.busy = false) (hq : s.chan.q.length < s.cfg.fifoDepth) (hg : s.env.prog = enqLine n codes :: more)
    (hlen : codes.length = s.cfg.srcW) :
    Host.Core.run Sys2Proof.core 5 s = .next (enqueuedLine s n codes more rest) := by
  obtain ⟨hs, hl, hd⟩ := ht
  have haccept : step s = .next (acceptedLine s n codes more _) :=
    step_portOp ⟨hs, hl, hd⟩ hp hg (enqueue_wellFormed fun _ => hlen)
  have hwait : step (acceptedLine s n codes more (.prod :: .prod :: .prod :: .prod :: rest)) =
      .next ((acceptedLine s n codes more (.prod :: .prod :: .prod :: rest)).toPPhase .copy) :=
    step_wait_of_line ⟨rfl, hl, hd⟩ rfl hb (tagOf_encodeWord _ _)
  have hcopy : step ((acceptedLine s n codes more (.prod :: .prod :: .prod :: rest)).toPPhase .copy) =
      .next (copyPhase (acceptedLine s n codes more (.prod :: .prod :: rest))) := step_copy ⟨rfl, hl, hd⟩ rfl
  have hmark : step (copyPhase (acceptedLine s n codes more (.prod :: .prod :: rest))) =
      .next (markPhase (copyPhase (acceptedLine s n codes more (.prod :: rest)))) := step_mark ⟨rfl, hl, hd⟩ rfl
  have hpush : step (markPhase (copyPhase (acceptedLine s n codes more (.prod :: rest)))) =
      .next (enqueuedLine s n codes more rest) := step_push_of_room ⟨rfl, hl, hd⟩ rfl hq
  rw [run_succ haccept, run_succ hwait, run_succ hcopy, run_succ hmark, run_succ hpush, run_zero]

/-- The codes of an enqueued line are in `PLINE` and `STG`, and elements past the line are as before. -/
theorem enqueuedLine_read {s : State} (hc : s.Canonical) (n : Byte) {codes : List Byte} (more : List ProgItem)
    (rest : List Turn) (hlen : codes.length = s.cfg.srcW) :
    let t := enqueuedLine s n codes more rest
    (∀ x (h : x < codes.length), t.prod.pline.read x = codes[x] ∧ t.chan.stg.read x = codes[x]) ∧
    (∀ a, s.cfg.srcW ≤ a → t.prod.pline.read a = s.prod.pline.read a ∧ t.chan.stg.read a = s.chan.stg.read a) := by
  intro t
  constructor
  · intro x hx
    have hline : t.prod.pline.read x = codes[x] := Memory.read_writeRow_zero hc.pline_wf codes hx
    have hstg := Memory.read_writeRow_zero hc.stg_wf (t.prod.pline.elements s.cfg.srcW) (j := x)
      (by simpa [hlen] using hx)
    rw [Memory.getElem_elements, hline] at hstg
    exact ⟨hline, hstg⟩
  · intro a ha
    exact ⟨Memory.read_writeRow_outside _ _ _ _ (.inr (by omega)),
      Memory.read_writeRow_outside _ _ _ _ (.inr (by simpa using ha))⟩

/-- Settles O9: the run of the five phases, and what their two rows of writes hold. -/
theorem enqueueOfALineEndToEnd : Obligations.EnqueueOfALineEndToEnd := by
  intro s rest n codes more ht hc hp hb hq hg hlen
  obtain ⟨hin, hout⟩ := enqueuedLine_read hc n more rest hlen
  exact ⟨_, run_enqueueLine ht hp hb hq hg hlen, rfl, rfl, rfl, rfl, hin, hout, rfl, rfl, rfl, rfl, rfl⟩

/-! The configuration port (43_config_port.md): one record update per write. -/

section
variable (s : State)

theorem cfgPal_eq (sub : SubPalette) (k : BitVec 2) (c : Colour) : cfgPal sub k c s = { s with
    regs := { s.regs with pal := s.regs.pal.set sub k c }
    env := { s.env with races :=
      if s.chan.busy then .pal sub k (s.regs.pal.get sub k) :: s.env.races else s.env.races } } := by
  rw [cfgPal, State.race_eq]

theorem cfgScale_of_some {m : BitVec 2} {mode : ScalingMode} (h : scaleOf m = some mode) : cfgScale m s = { s with
    regs := { s.regs with scale := mode }
    env := { s.env with races :=
      if s.chan.busy then .scale s.regs.scale :: s.env.races else s.env.races } } := by
  simp [cfgScale, h, State.race_eq]

theorem cfgScale_of_none {m : BitVec 2} (h : scaleOf m = none) : cfgScale m s = s := by simp [cfgScale, h]

theorem cfgEcm_eq (e : Bool) : cfgEcm e s = { s with
    regs := { s.regs with ecmEn := e }
    env := { s.env with races :=
      if s.chan.busy then .ecmEn s.regs.ecmEn :: s.env.races else s.env.races } } := by
  rw [cfgEcm, State.race_eq]

theorem cfgEcmTab_eq (i : Nat) (c : Colour) : cfgEcmTab i c s = { s with
    regs := { s.regs with ecmTab := s.regs.ecmTab.write i c }
    env := { s.env with races :=
      if s.chan.busy then .ecmTab i (s.regs.ecmTab.read i) :: s.env.races else s.env.races } } := by
  rw [cfgEcmTab, State.race_eq]

end

section
variable {s : State} {rest : List Turn} {more : List ProgItem}

/-- One step per configuration write, for either value of `BUSY` (R59, R161 to R165). -/
theorem step_cfgPal (ht : s.TurnIs .prod rest) (hp : s.prod.pphase = .idle) {sub : SubPalette} {k : BitVec 2}
    {c : Colour} (hg : s.env.prog = .op (.cfgPal sub k c) :: more) : step s = .next { s with
      regs := { s.regs with pal := s.regs.pal.set sub k c }
      env := { s.env with
        sched := rest, prog := more
        races := if s.chan.busy then .pal sub k (s.regs.pal.get sub k) :: s.env.races else s.env.races } } :=
  (step_portOp ht hp hg rfl).trans (congrArg _ (cfgPal_eq _ sub k c))

theorem step_cfgScale (ht : s.TurnIs .prod rest) (hp : s.prod.pphase = .idle) {m : BitVec 2} {mode : ScalingMode}
    (hm : scaleOf m = some mode) (hg : s.env.prog = .op (.cfgScale m) :: more) : step s = .next { s with
      regs := { s.regs with scale := mode }
      env := { s.env with
        sched := rest, prog := more
        races := if s.chan.busy then .scale s.regs.scale :: s.env.races else s.env.races } } :=
  (step_portOp ht hp hg rfl).trans (congrArg _ (cfgScale_of_some _ hm))

theorem step_cfgScale_of_none (ht : s.TurnIs .prod rest) (hp : s.prod.pphase = .idle) {m : BitVec 2}
    (hm : scaleOf m = none) (hg : s.env.prog = .op (.cfgScale m) :: more) :
    step s = .next { s with env := { s.env with sched := rest, prog := more } } :=
  (step_portOp ht hp hg rfl).trans (congrArg _ (cfgScale_of_none _ hm))

theorem step_cfgEcm (ht : s.TurnIs .prod rest) (hp : s.prod.pphase = .idle) {e : Bool}
    (he : s.cfg.ecmSupport = true) (hg : s.env.prog = .op (.cfgEcm e) :: more) : step s = .next { s with
      regs := { s.regs with ecmEn := e }
      env := { s.env with
        sched := rest, prog := more
        races := if s.chan.busy then .ecmEn s.regs.ecmEn :: s.env.races else s.env.races } } :=
  (step_portOp ht hp hg he).trans (congrArg _ (cfgEcm_eq _ e))

theorem step_cfgEcmTab (ht : s.TurnIs .prod rest) (hp : s.prod.pphase = .idle) {i : Nat} {c : Colour}
    (he : s.cfg.ecmSupport = true) (hi : i < s.cfg.ecmN) (hg : s.env.prog = .op (.cfgEcmTab i c) :: more) :
    step s = .next { s with
      regs := { s.regs with ecmTab := s.regs.ecmTab.write i c }
      env := { s.env with
        sched := rest, prog := more
        races := if s.chan.busy then .ecmTab i (s.regs.ecmTab.read i) :: s.env.races else s.env.races } } :=
  (step_portOp ht hp hg (by simp [PortOp.wellFormed, he, hi])).trans (congrArg _ (cfgEcmTab_eq _ i c))

end

/-- Settles O46: with `BUSY = 0` each write's step stores its one element and records nothing. -/
theorem configurationWritesChangeOneElement : Obligations.ConfigurationWritesChangeOneElement := by
  intro s rest more ht hp hb
  refine ⟨fun sub k c hg => ?_, fun m hg => ?_, fun e he hg => ?_, fun i c he hi hwf hg => ?_⟩
  · exact ⟨_, by rw [step_cfgPal ht hp hg]; simp [hb], fun sub' k' => Palette.get_set _ _ _ _ _ _⟩
  · cases hm : scaleOf m with
    | none =>
      rw [step_cfgScale_of_none ht hp hm hg]
      unfold scaleOf at hm
      split_ifs at hm with h0 h1 h2
      simp [h0, h1, h2]
    | some mode =>
      rw [step_cfgScale ht hp hm hg]
      unfold scaleOf at hm
      split_ifs at hm with h0 h1 h2 <;> cases hm <;> simp [*]
  · rw [step_cfgEcm ht hp he hg]
    simp [hb]
  · exact ⟨_, by rw [step_cfgEcmTab ht hp he hi hg]; simp [hb], Memory.read_write_same c hwf,
      fun j hj => Memory.read_write_other c hj _⟩

/-- Settles O47: the poll's value is `BUSY`, and `wait_idle` is dropped when it is 0. -/
theorem statusReturnsBusy : Obligations.StatusReturnsBusy := by
  intro s rest more ht hp
  refine ⟨fun hg => step_portOp ht hp hg rfl, fun hg hb => ?_, fun hg hb => ?_⟩
  all_goals
    rw [step_prod ht, prodTurn_of_waitIdle (s := s.withSched rest) hp hg]
    simp only [pollOnce, State.loadBusy_eq, State.withSched_chan, hb, statusRead]
    rfl

end Sys2Proof.Machine
end

section
/-! The moves of the three agents, one constructor per thing a turn can do, and what each agent's moves leave alone
(00_scope.md R6, 10_state.md R10). -/

namespace Sys2Proof.Machine

/-- What a producer turn can do (R12, R76 to R80, R160). -/
inductive ProdMove (s : State) : State → Prop
  | rest (hp : s.prod.pphase = .idle) (hg : s.env.prog = []) : ProdMove s s
  | op (o : PortOp) (more : List ProgItem) (hp : s.prod.pphase = .idle) (hg : s.env.prog = .op o :: more)
      (hw : o.wellFormed s.cfg = true) : ProdMove s (portOp o (s.issued more))
  | poll (more : List ProgItem) (hp : s.prod.pphase = .idle) (hg : s.env.prog = .waitIdle :: more) :
      ProdMove s (pollOnce more s)
  | spin (hp : s.prod.pphase = .wait) (hb : s.chan.busy = true) : ProdMove s s
  | toCopy (hp : s.prod.pphase = .wait) (hb : s.chan.busy = false) (hl : isLine s.prod.pcmd = true) :
      ProdMove s (s.toPPhase .copy)
  | toPush (hp : s.prod.pphase = .wait) (hb : s.chan.busy = false) (hl : isLine s.prod.pcmd = false) :
      ProdMove s (s.toPPhase .push)
  | copy (hp : s.prod.pphase = .copy) : ProdMove s (copyPhase s)
  | mark (hp : s.prod.pphase = .mark) : ProdMove s (markPhase s)
  | full (hp : s.prod.pphase = .push) (hq : s.cfg.fifoDepth ≤ s.chan.q.length) : ProdMove s s
  | push (hp : s.prod.pphase = .push) (hq : s.chan.q.length < s.cfg.fifoDepth) :
      ProdMove s (({ s with chan := { s.chan with q := s.chan.q ++ [s.prod.pcmd] } }).toPPhase .idle)

/-- What a consumer turn can do (R82 to R94, R131). -/
inductive ConsMove (s : State) : State → Prop
  | empty (hp : s.cons.cphase = .pop) (hq : s.chan.q = []) : ConsMove s s
  | pop (w : Word) (ws : List Word) (hp : s.cons.cphase = .pop) (hq : s.chan.q = w :: ws) : ConsMove s
      { s with chan := { s.chan with q := ws }, cons := { s.cons with cmd := w, cphase := .dispatch } }
  | discard (hp : s.cons.cphase = .dispatch) (hl : isLine s.cons.cmd = false) : ConsMove s (s.toPhase .pop)
  | toIdle (hp : s.cons.cphase = .dispatch) (ht : tagOf s.cons.cmd = 2#8) : ConsMove s (s.toPhase .idle)
  | toResolve (hp : s.cons.cphase = .dispatch) (hl : isLine s.cons.cmd = true)
      (hn : lineIndexOf s.cons.cmd < s.cfg.srcH) : ConsMove s (s.toPhase .resolve)
  | toAck (hp : s.cons.cphase = .dispatch) (hl : isLine s.cons.cmd = true)
      (hn : s.cfg.srcH ≤ lineIndexOf s.cons.cmd) : ConsMove s (s.toPhase .ack)
  | resolve (hp : s.cons.cphase = .resolve) (hl : isLine s.cons.cmd = true) : ConsMove s (resolvePhase s)
  | layout (hp : s.cons.cphase = .layout) (hl : isLine s.cons.cmd = true) :
      ConsMove s (layoutPhase (lineIndexOf s.cons.cmd) s)
  | pushWait (hp : s.cons.cphase = .push) (hl : isLine s.cons.cmd = true) (hw : pushWaits s = true) : ConsMove s s
  | push (hp : s.cons.cphase = .push) (hl : isLine s.cons.cmd = true) (hw : pushWaits s = false)
      (hin : placementInside s = true) :
      ConsMove s ((pushLine s).toPhase (afterPush s.cfg (lineIndexOf s.cons.cmd)))
  | frame (hp : s.cons.cphase = .frame) (hl : isLine s.cons.cmd = true) : ConsMove s (framePhase s)
  | ack (hp : s.cons.cphase = .ack) (hl : isLine s.cons.cmd = true) : ConsMove s (ackPhase s)
  | idleWait (hp : s.cons.cphase = .idle) (ht : tagOf s.cons.cmd = 2#8) (hf : s.dmaInFlight = true) : ConsMove s s
  | idle (hp : s.cons.cphase = .idle) (ht : tagOf s.cons.cmd = 2#8) (hf : s.dmaInFlight = false) :
      ConsMove s (idlePhase (dataOf s.cons.cmd) s)

/-- What a DMA turn can do (R134, R135). -/
inductive DmaMove (s : State) : State → Prop
  | rest (hf : s.dmaInFlight = false) : DmaMove s s
  | beat (hf : s.dmaInFlight = true) (hp : s.drv.dma.pos < s.drv.dma.len) (hb : beatInside s = true) :
      DmaMove s (dmaBeat s)
  | complete (hf : s.dmaInFlight = true) (hp : s.drv.dma.len ≤ s.drv.dma.pos) : DmaMove s (dmaComplete s)

variable {s t : State}

theorem prodMove_of_next (h : prodTurn s = .next t) : ProdMove s t := by
  rcases prodTurn_next h with ⟨hp, hg, rfl⟩ | ⟨o, more, hp, hg, hw, rfl⟩ | ⟨more, hp, hg, rfl⟩ | ⟨hp, rfl⟩ |
    ⟨hp, rfl⟩ | ⟨hp, rfl⟩ | ⟨hp, rfl⟩
  · exact .rest hp hg
  · exact .op o more hp hg hw
  · exact .poll more hp hg
  · by_cases hb : s.chan.busy = true
    · rw [waitPhase_of_busy hb]; exact .spin hp hb
    · have hb' : s.chan.busy = false := by simpa using hb
      by_cases ht : tagOf s.prod.pcmd = 1#8
      · rw [waitPhase_of_line hb' ht]; exact .toCopy hp hb' (by simp [isLine, ht])
      · rw [waitPhase_of_other hb' ht]; exact .toPush hp hb' (by simp [isLine, ht])
  · exact .copy hp
  · exact .mark hp
  · rcases Nat.lt_or_ge s.chan.q.length s.cfg.fifoDepth with hq | hq
    · rw [pushWordPhase_of_room hq]; exact .push hp hq
    · rw [pushWordPhase_of_full hq]; exact .full hp hq

theorem idlePhase_of_inFlight (hf : s.dmaInFlight = true) (m : Byte) : idlePhase m s = s := by
  simp [idlePhase, hf]

theorem consMove_of_next (h : consTurn s = .next t) : ConsMove s t := by
  rcases consTurn_next h with ⟨hp, rfl⟩ | ⟨hp, hl, -, rfl⟩ | ⟨hp, ht, rfl⟩ | ⟨hp, hl, hn, rfl⟩ | ⟨hp, hl, hn, rfl⟩ |
    ⟨hp, hl, rfl⟩ | ⟨hp, hl, rfl⟩ | ⟨hp, hl, h⟩ | ⟨hp, hl, rfl⟩ | ⟨hp, hl, rfl⟩ | ⟨hp, ht, rfl⟩
  · cases hq : s.chan.q with
    | nil => rw [popPhase_of_nil hq]; exact .empty hp hq
    | cons w ws => rw [popPhase_of_cons hq]; exact .pop w ws hp hq
  · exact .discard hp hl
  · exact .toIdle hp ht
  · exact .toResolve hp hl hn
  · exact .toAck hp hl hn
  · exact .resolve hp hl
  · exact .layout hp hl
  · rcases pushPhase_next h with ⟨hw, rfl⟩ | ⟨hw, hin, rfl⟩
    · exact .pushWait hp hl hw
    · exact .push hp hl hw hin
  · exact .frame hp hl
  · exact .ack hp hl
  · cases hf : s.dmaInFlight
    · exact .idle hp ht hf
    · rw [idlePhase_of_inFlight hf]; exact .idleWait hp ht hf

theorem dmaMove_of_next (h : dmaTurn s = .next t) : DmaMove s t := by
  rcases dmaTurn_next h with ⟨hf, rfl⟩ | ⟨hf, hp, hb, rfl⟩ | ⟨hf, hp, rfl⟩
  · exact .rest hf
  · exact .beat hf hp hb
  · exact .complete hf hp

/-- Everything a step can do: one move of the agent whose turn it is, or the reset input (R6, R52). -/
theorem step_moves (h : step s = .next t) :
    (s.turn = .prod ∧ ProdMove s.turnTaken t) ∨ (s.turn = .cons ∧ ConsMove s.turnTaken t) ∨
      (s.turn = .dma ∧ DmaMove s.turnTaken t) ∨ (s.turn = .reset ∧ t = resetInput s.turnTaken) :=
  (agentTurn_next (step_next h).2.2).imp (And.imp_right prodMove_of_next)
    (Or.imp (And.imp_right consMove_of_next) (Or.imp_left (And.imp_right dmaMove_of_next)))

theorem prodMove_of_step (hx : s.turn = .prod) (h : step s = .next t) : ProdMove s.turnTaken t := by
  have hturn := (step_next h).2.2
  rw [hx] at hturn
  exact prodMove_of_next hturn

theorem consMove_of_step (hx : s.turn = .cons) (h : step s = .next t) : ConsMove s.turnTaken t := by
  have hturn := (step_next h).2.2
  rw [hx] at hturn
  exact consMove_of_next hturn

theorem dmaMove_of_step (hx : s.turn = .dma) (h : step s = .next t) : DmaMove s.turnTaken t := by
  have hturn := (step_next h).2.2
  rw [hx] at hturn
  exact dmaMove_of_next hturn

/-- A property of states that every move keeps, and that no schedule takes part in, is kept by every step. -/
theorem step_keeps {I : State → Prop} (htaken : ∀ {s}, I s → I s.turnTaken)
    (hprod : ∀ {s t}, I s → ProdMove s t → I t) (hcons : ∀ {s t}, I s → ConsMove s t → I t)
    (hdma : ∀ {s t}, I s → DmaMove s t → I t) (hreset : ∀ {s}, I s → I (resetInput s))
    (hI : I s) (h : step s = .next t) : I t := by
  rcases step_moves h with ⟨-, h⟩ | ⟨-, h⟩ | ⟨-, h⟩ | ⟨-, rfl⟩
  · exact hprod (htaken hI) h
  · exact hcons (htaken hI) h
  · exact hdma (htaken hI) h
  · exact hreset (htaken hI)

/-! What each agent's moves leave alone (R10, R182). -/

theorem ProdMove.unchanged (h : ProdMove s t) : t.cfg = s.cfg ∧ t.cons = s.cons ∧ t.drv = s.drv := by
  cases h <;> simp

/-- The producer only appends to `Q` and never clears `BUSY` (R79, R80). -/
theorem ProdMove.channel (h : ProdMove s t) :
    (∃ ws, t.chan.q = s.chan.q ++ ws) ∧ (s.chan.busy = true → t.chan.busy = true) := by
  cases h with
  | push hp hq => exact ⟨⟨[s.prod.pcmd], rfl⟩, id⟩
  | _ => exact ⟨⟨[], by simp⟩, by simp⟩

theorem ConsMove.unchanged (h : ConsMove s t) :
    t.cfg = s.cfg ∧ t.prod = s.prod ∧ t.regs = s.regs ∧ t.chan.stg = s.chan.stg := by
  cases h <;> simp

/-- The consumer only takes the oldest word from `Q`, at `C_POP` (R82). -/
theorem ConsMove.queue (h : ConsMove s t) : t.chan.q = s.chan.q ∨
    (s.cons.cphase = .pop ∧ s.chan.q = t.cons.cmd :: t.chan.q ∧ t.cons.cphase = .dispatch) := by
  cases h with
  | pop w ws hp hq => exact .inr ⟨hp, hq, rfl⟩
  | _ => left; simp

/-- The consumer writes `BUSY` at `C_ACK` only, and clears it there (R89). -/
theorem ConsMove.busy (h : ConsMove s t) :
    t.chan.busy = s.chan.busy ∨ (s.cons.cphase = .ack ∧ t.chan.busy = false) := by
  cases h with
  | ack hp hl => exact .inr ⟨hp, rfl⟩
  | _ => left; simp

theorem DmaMove.unchanged (h : DmaMove s t) : t.cfg = s.cfg ∧ t.chan = s.chan ∧ t.prod = s.prod ∧ t.cons = s.cons ∧
    t.regs = s.regs ∧ t.env = s.env ∧ t.drv = { s.drv with dma := t.drv.dma, panel := t.drv.panel } := by
  cases h <;> exact ⟨rfl, rfl, rfl, rfl, rfl, rfl, rfl⟩

theorem step_cfg (h : step s = .next t) : t.cfg = s.cfg := by
  rcases step_moves h with ⟨-, h⟩ | ⟨-, h⟩ | ⟨-, h⟩ | ⟨-, rfl⟩
  · rw [h.unchanged.1, State.turnTaken_cfg]
  · rw [h.unchanged.1, State.turnTaken_cfg]
  · rw [h.unchanged.1, State.turnTaken_cfg]
  · exact s.turnTaken_cfg

/-- Settles O49: the frame of each agent's moves. -/
theorem eachAgentWritesOnlyItsOwnState : Obligations.EachAgentWritesOnlyItsOwnState := by
  intro s t h
  refine ⟨step_cfg h, fun hx => ?_, fun hx => ?_, fun hx => ?_⟩
  · have hmove := prodMove_of_step hx h
    obtain ⟨-, hcons, hdrv⟩ := hmove.unchanged
    obtain ⟨hq, hb⟩ := hmove.channel
    simp only [State.turnTaken_cons, State.turnTaken_drv, State.turnTaken_chan] at hcons hdrv hq hb
    exact ⟨hcons, hdrv, hq, hb⟩
  · have hmove := consMove_of_step hx h
    obtain ⟨-, hprod, hregs, hstg⟩ := hmove.unchanged
    have hqueue := hmove.queue
    have hbusy := hmove.busy
    simp only [State.turnTaken_prod, State.turnTaken_regs, State.turnTaken_chan] at hprod hregs hstg hqueue hbusy
    refine ⟨hprod, hregs, hstg, ?_, fun hb => ?_⟩
    · rcases hqueue with hq | ⟨-, hq, -⟩
      · rw [hq]
      · rw [hq]; exact List.suffix_cons _ _
    · rcases hbusy with he | ⟨-, he⟩
      · rw [← he, hb]
      · rw [he] at hb; cases hb
  · obtain ⟨-, hchan, hprod, hcons, hregs, -, hdrv⟩ := (dmaMove_of_step hx h).unchanged
    simp only [State.turnTaken_chan, State.turnTaken_prod, State.turnTaken_cons, State.turnTaken_regs,
      State.turnTaken_drv] at hchan hprod hcons hregs hdrv
    exact ⟨hchan, hprod, hcons, hregs, hdrv⟩

end Sys2Proof.Machine
end

section
/-! The race rule (20_memory.md R59): what a racing read can return, and which moves record a race. -/

namespace Sys2Proof.Machine

/-- The value held and each value replaced is what some choice of a racing read returns (R59). -/
theorem racingRead_surjective {α : Type} {now v : α} {olds : List α} (h : v = now ∨ v ∈ olds) :
    ∃ choice, racingRead now olds choice = v := by
  cases olds with
  | nil => exact ⟨0, by simpa [eq_comm] using h⟩
  | cons old rest =>
    obtain ⟨i, hi, rfl⟩ := List.getElem_of_mem (List.mem_cons.2 h)
    refine ⟨i, ?_⟩
    have hlt : i < rest.length + 2 := hi
    simp only [racingRead, Nat.mod_eq_of_lt hlt, List.getD_eq_getElem _ _ hi]

/-- A read of a configuration element answers the register or the value some record of the element holds (R59). -/
theorem racingRead_of_records {α : Type} (now : α) (element : Race → Option α) (races : List Race) (choice : Nat) :
    racingRead now (races.filterMap element) choice = now ∨
      ∃ race ∈ races, element race = some (racingRead now (races.filterMap element) choice) :=
  (racingRead_mem _ _ _).imp_right List.mem_filterMap.1

/-! The records of each element. -/

theorem Race.scaleOld_eq_some {race : Race} {v : ScalingMode} : race.scaleOld = some v ↔ race = .scale v := by
  cases race <;> simp [Race.scaleOld]

theorem Race.palOld_eq_some {race : Race} {sub : SubPalette} {k : BitVec 2} {v : Colour} :
    race.palOld sub k = some v ↔ race = .pal sub k v := by
  cases race <;> simp [Race.palOld, and_assoc]

theorem Race.ecmEnOld_eq_some {race : Race} {v : Bool} : race.ecmEnOld = some v ↔ race = .ecmEn v := by
  cases race <;> simp [Race.ecmEnOld]

theorem Race.ecmTabOld_eq_some {race : Race} {i : Nat} {v : Colour} :
    race.ecmTabOld i = some v ↔ race = .ecmTab i v := by
  cases race <;> simp [Race.ecmTabOld]

section
variable (u : State) (r : Nat)

theorem readScale_mem : u.readScale r = u.regs.scale ∨ Race.scale (u.readScale r) ∈ u.env.races :=
  (racingRead_of_records _ _ _ _).imp_right fun ⟨_, hmem, hold⟩ => Race.scaleOld_eq_some.1 hold ▸ hmem

theorem readPal_mem (sub : SubPalette) (k : BitVec 2) :
    u.readPal sub k r = u.regs.pal.get sub k ∨ Race.pal sub k (u.readPal sub k r) ∈ u.env.races :=
  (racingRead_of_records _ _ _ _).imp_right fun ⟨_, hmem, hold⟩ => Race.palOld_eq_some.1 hold ▸ hmem

theorem readEcmEn_mem (he : u.cfg.ecmSupport = true) :
    u.readEcmEn r = u.regs.ecmEn ∨ Race.ecmEn (u.readEcmEn r) ∈ u.env.races := by
  rw [State.readEcmEn, he, Bool.true_and]
  exact (racingRead_of_records _ _ _ _).imp_right fun ⟨_, hmem, hold⟩ => Race.ecmEnOld_eq_some.1 hold ▸ hmem

theorem readEcmTab_mem (i : Nat) :
    u.readEcmTab i r = u.regs.ecmTab.read i ∨ Race.ecmTab i (u.readEcmTab i r) ∈ u.env.races :=
  (racingRead_of_records _ _ _ _).imp_right fun ⟨_, hmem, hold⟩ => Race.ecmTabOld_eq_some.1 hold ▸ hmem

end

/-- A port operation records at most the one race of a write made while a line is in flight (R59). -/
theorem portOp_races (o : PortOp) (s : State) : (portOp o s).env.races = s.env.races ∨
    (s.chan.busy = true ∧ ∃ old, (portOp o s).env.races = old :: s.env.races) := by
  have hrace : ∀ r : Race, (s.race r).env.races = s.env.races ∨
      (s.chan.busy = true ∧ ∃ old, (s.race r).env.races = old :: s.env.races) := by
    intro r
    rw [State.race_races]
    cases hb : s.chan.busy
    · exact .inl rfl
    · exact .inr ⟨rfl, r, rfl⟩
  cases o with
  | enqueue tag data line => exact .inl rfl
  | cfgPal sub k c => exact hrace _
  | cfgScale m =>
    cases hm : scaleOf m with
    | none => exact .inl (by rw [portOp, cfgScale_of_none s hm])
    | some mode => simpa [portOp, cfgScale, hm] using hrace (.scale s.regs.scale)
  | cfgEcm e => exact hrace _
  | cfgEcmTab i c => exact hrace _
  | status => exact .inl rfl

variable {s t : State}

theorem ProdMove.races (h : ProdMove s t) : t.env.races = s.env.races ∨
    (s.chan.busy = true ∧ ∃ old, t.env.races = old :: s.env.races) := by
  cases h with
  | rest | spin | toCopy | toPush | copy | mark | full | push => exact .inl rfl
  | op o more => exact portOp_races o (s.issued more)
  | poll more =>
    left
    unfold pollOnce
    split <;> rfl

/-- The consumer ends the record of races with the acknowledgement and otherwise leaves it (R59). -/
theorem ConsMove.races (h : ConsMove s t) (ha : s.cons.cphase ≠ .ack) : t.env.races = s.env.races := by
  cases h with
  | ack hp => exact absurd hp ha
  | _ => simp

/-- Settles O48: the writes by their one step each with `BUSY = 1`, the records by each agent's turn, the reads by
what a racing read can return. -/
theorem racingReadReturnsOldOrNew : Obligations.RacingReadReturnsOldOrNew := by
  refine ⟨fun s rest more ht hp hb => ⟨fun m mode hm hg => ?_, fun m hm hg => ?_, fun sub k c hg => ?_,
    fun e he hg => ?_, fun i c he hi hwf hg => ?_⟩, fun s t h hr hack => ?_, fun u r => ?_, fun α now olds v => ?_⟩
  · rw [step_cfgScale ht hp hm hg]
    simp [hb]
  · exact step_cfgScale_of_none ht hp hm hg
  · exact ⟨_, by rw [step_cfgPal ht hp hg]; simp [hb], fun sub' k' => Palette.get_set _ _ _ _ _ _⟩
  · rw [step_cfgEcm ht hp he hg]
    simp [hb]
  · exact ⟨_, by rw [step_cfgEcmTab ht hp he hi hg]; simp [hb], Memory.read_write_same c hwf,
      fun j hj => Memory.read_write_other c hj _⟩
  · rcases step_moves h with ⟨hx, h⟩ | ⟨hx, h⟩ | ⟨hx, h⟩ | ⟨hx, -⟩
    · rcases h.races with h | ⟨hb, old, h⟩
      · exact .inl (by simpa using h)
      · exact .inr ⟨hx, by simpa using hb, old, by simpa using h⟩
    · exact .inl (by simpa using h.races fun ha => hack ⟨hx, by simpa using ha⟩)
    · exact .inl (by rw [h.unchanged.2.2.2.2.2.1, State.turnTaken_races])
    · exact absurd hx hr
  · exact ⟨readScale_mem u r, readPal_mem u r, readEcmEn_mem u r, fun he => by simp [State.readEcmEn, he],
      readEcmTab_mem u r⟩
  · constructor
    · exact racingRead_surjective
    · rintro ⟨choice, rfl⟩
      exact racingRead_mem now olds choice

end Sys2Proof.Machine
end

section
/-! The in-flight invariant (40_channel.md R92): every move keeps it, and what it gives. -/

namespace Sys2Proof.Machine

variable {s t : State}

/-- A move that leaves the channel and the consumer alone keeps the invariant when the port still holds as many
LCD_LINE words and its phase agrees with `BUSY`. -/
theorem State.ChannelInv.of_port (h : s.ChannelInv) (hchan : t.chan = s.chan) (hcons : t.cons = s.cons)
    (hlines : portLines t.prod.pphase t.prod.pcmd = portLines s.prod.pphase s.prod.pcmd)
    (hcopy : (t.prod.pphase = .copy ∨ t.prod.pphase = .mark) → s.chan.busy = false ∧ isLine t.prod.pcmd = true)
    (hpush : t.prod.pphase = .push → isLine t.prod.pcmd = false → s.chan.busy = false) : t.ChannelInv := by
  obtain ⟨hn, -, -, hline⟩ := h
  rw [State.ChannelInv, State.linesInFlight, hchan, hcons, hlines]
  exact ⟨hn, hcopy, hpush, hline⟩

/-- A move that leaves the channel and the producer alone keeps the invariant when as many LCD_LINE words are being
executed and the phases of a line still stand for a line. -/
theorem State.ChannelInv.of_cons (h : s.ChannelInv) (hchan : t.chan = s.chan) (hprod : t.prod = s.prod)
    (hlines : cmdLines t.cons.cphase t.cons.cmd = cmdLines s.cons.cphase s.cons.cmd)
    (hline : t.cons.cphase.ofLine = true → isLine t.cons.cmd = true) : t.ChannelInv := by
  obtain ⟨hn, hcopy, hpush, -⟩ := h
  rw [State.ChannelInv, State.linesInFlight, hchan, hprod, hlines]
  exact ⟨hn, hcopy, hpush, hline⟩

/-- The invariant speaks of the channel, the producer and the consumer only. -/
theorem State.ChannelInv.of_eq (h : s.ChannelInv) (hchan : t.chan = s.chan) (hprod : t.prod = s.prod)
    (hcons : t.cons = s.cons) : t.ChannelInv :=
  h.of_cons hchan hprod (by rw [hcons]) (by rw [hcons]; exact h.2.2.2)

theorem State.ChannelInv.prodMove (h : s.ChannelInv) (hm : ProdMove s t) : t.ChannelInv := by
  have ⟨hn, hcopy, hpush, hline⟩ := h
  cases hm with
  | rest | spin | full => exact h
  | op o more hp =>
    rcases portOp_prod (s.issued more) o with he | ⟨tag, data, codes, -, he⟩
    · exact h.of_eq (by simp) (by simpa using he) (by simp)
    · exact h.of_port (by simp) (by simp) (by simp [he, hp]) (by simp [he]) (by simp [he])
  | poll more => exact h.of_eq (by simp) (by simp) (by simp)
  | toCopy hp hb hl => exact h.of_port rfl rfl (by simp [hp]) (fun _ => ⟨hb, hl⟩) (by simp)
  | toPush hp hb hl => exact h.of_port rfl rfl (by simp [hp, portLines_push, hl]) (by simp) (fun _ _ => hb)
  | copy hp =>
    obtain ⟨hb, hl⟩ := hcopy (.inl hp)
    exact ⟨by simpa [State.linesInFlight, hp] using hn, fun _ => ⟨hb, hl⟩, by simp, hline⟩
  | mark hp =>
    obtain ⟨hb, hl⟩ := hcopy (.inr hp)
    refine ⟨?_, by simp, by simp [hl], hline⟩
    simp only [State.linesInFlight, hp, portLines_mark, hb, Bool.toNat_false] at hn
    simp only [State.linesInFlight, markPhase_pphase, markPhase_pcmd, portLines_push, hl, if_true, markPhase_chan_q,
      markPhase_cons, markPhase_busy, Bool.toNat_true]
    omega
  | push hp hq =>
    refine ⟨?_, by simp, by simp, hline⟩
    simp only [State.linesInFlight, hp, portLines_push] at hn
    simp only [State.linesInFlight, State.toPPhase_pphase, State.toPPhase_pcmd, portLines_idle, State.toPPhase_chan,
      State.toPPhase_cons, List.countP_append, List.countP_singleton]
    omega

/-- A phase of a line holds one LCD_LINE word, so a move from one to another changes no count. -/
theorem State.ChannelInv.of_line (h : s.ChannelInv) (hchan : t.chan = s.chan) (hprod : t.prod = s.prod)
    (hcmd : t.cons.cmd = s.cons.cmd) (hl : isLine s.cons.cmd = true)
    (hs : s.cons.cphase = .dispatch ∨ s.cons.cphase.ofLine = true) (ht : t.cons.cphase.ofLine = true) :
    t.ChannelInv := by
  refine h.of_cons hchan hprod ?_ fun _ => by rw [hcmd, hl]
  rw [hcmd, cmdLines_line ht hl]
  rcases hs with hs | hs
  · rw [hs, cmdLines_dispatch, if_pos hl]
  · rw [cmdLines_line hs hl]

theorem afterPush_ofLine (P : Params) (n : Nat) : (afterPush P n).ofLine = true := by
  unfold afterPush
  split
  · rfl
  · split <;> rfl

theorem isLine_of_idleTag {w : Word} (h : tagOf w = 2#8) : isLine w = false := by simp [isLine, h]

theorem State.ChannelInv.consMove (h : s.ChannelInv) (hm : ConsMove s t) : t.ChannelInv := by
  have ⟨hn, hcopy, hpush, hline⟩ := h
  cases hm with
  | empty | pushWait | idleWait => exact h
  | pop w ws hp hq =>
    refine ⟨?_, hcopy, hpush, by simp [CPhase.ofLine]⟩
    simp only [State.linesInFlight, hp, hq, List.countP_cons, cmdLines_pop] at hn
    simp only [State.linesInFlight, cmdLines_dispatch]
    omega
  | discard hp hl => exact h.of_cons rfl rfl (by simp [hp, cmdLines_dispatch, hl]) (by simp [CPhase.ofLine])
  | toIdle hp ht =>
    exact h.of_cons rfl rfl (by simp [hp, cmdLines_dispatch, isLine_of_idleTag ht]) (by simp [CPhase.ofLine])
  | toResolve hp hl | toAck hp hl => exact h.of_line rfl rfl rfl hl (.inl hp) rfl
  | resolve hp hl | layout hp hl => exact h.of_line rfl rfl rfl hl (.inr (by rw [hp]; rfl)) rfl
  | push hp hl =>
    exact h.of_line (by simp) (by simp) (by simp) hl (.inr (by rw [hp]; rfl)) (by simp [afterPush_ofLine])
  | frame hp hl => exact h.of_line (by simp) (by simp) (by simp) hl (.inr (by rw [hp]; rfl)) (by simp [CPhase.ofLine])
  | ack hp hl =>
    have hone := cmdLines_line (c := .ack) rfl hl
    have hb := Bool.toNat_le s.chan.busy
    refine ⟨?_, fun hc => ⟨rfl, (hcopy hc).2⟩, fun _ _ => rfl, by simp [CPhase.ofLine]⟩
    simp only [State.linesInFlight, hp, hone] at hn
    simp only [State.linesInFlight, ackPhase_prod, ackPhase_chan_q, ackPhase_cphase, cmdLines_pop, ackPhase_busy,
      Bool.toNat_false]
    omega
  | idle hp ht hf =>
    refine h.of_cons (by simp) (by simp) ?_ ?_ <;> rw [idlePhase_cphase s _ hf]
    · rw [hp, cmdLines_pop, cmdLines_idle]
    · simp [CPhase.ofLine]

/-- Settles O22: every agent's moves keep the count of R92, and the reset input empties it. -/
theorem stepKeepsTheInFlightInvariant : Obligations.StepKeepsTheInFlightInvariant := fun s t hI h =>
  step_keeps (I := State.ChannelInv) (fun h => h.of_eq (by simp) (by simp) (by simp)) (fun h => h.prodMove)
    (fun h => h.consMove) (fun h hm => h.of_eq hm.unchanged.2.1 hm.unchanged.2.2.1 hm.unchanged.2.2.2.1)
    (fun _ => ⟨rfl, by simp [resetInput], by simp [resetInput], by simp [resetInput, CPhase.ofLine]⟩) hI h

theorem State.ChannelInv.linesInFlight_le_one (h : s.ChannelInv) : s.linesInFlight ≤ 1 :=
  h.1.trans_le (Bool.toNat_le _)

theorem State.ChannelInv.busy_iff (h : s.ChannelInv) : s.chan.busy = true ↔ s.linesInFlight = 1 := by
  rw [h.1]
  cases s.chan.busy <;> simp

/-- With `BUSY = 0` no LCD_LINE is in the port's push, in `Q` or being executed. -/
theorem State.ChannelInv.no_line (h : s.ChannelInv) (hb : s.chan.busy = false) :
    portLines s.prod.pphase s.prod.pcmd = 0 ∧ (∀ w ∈ s.chan.q, isLine w = false) ∧
      cmdLines s.cons.cphase s.cons.cmd = 0 := by
  have hn := h.1
  rw [hb, State.linesInFlight, Bool.toNat_false] at hn
  refine ⟨by omega, fun w hw => ?_, by omega⟩
  simpa using List.countP_eq_zero.1 (by omega : s.chan.q.countP isLine = 0) w hw

/-- Settles O23: the invariant bounds the count by `BUSY`, and in `P_COPY` the count is 0. -/
theorem atMostOneLineInFlight : Obligations.AtMostOneLineInFlight := by
  intro s h
  refine ⟨h.linesInFlight_le_one, h.busy_iff, fun hp => ?_⟩
  have hb := (h.2.1 (.inl hp)).1
  obtain ⟨-, hq, hcmd⟩ := h.no_line hb
  refine ⟨hb, fun hc => ?_, hq⟩
  have hl := h.2.2.2 (by rw [hc]; rfl)
  rw [hc, cmdLines_line rfl hl] at hcmd
  exact absurd hcmd Nat.one_ne_zero

/-- Settles O8: a line waiting in the port would make the one in `Q` a second, and any other word waits with
`BUSY = 0`, when `Q` holds no line. -/
theorem fullQueueAtPushHoldsNoLine : Obligations.FullQueueAtPushHoldsNoLine := by
  intro s w h hp hq
  cases hl : isLine s.prod.pcmd with
  | false => exact (h.no_line (h.2.2.1 hp hl)).2.1 w (by simp [hq])
  | true =>
    have hle := h.linesInFlight_le_one
    simp only [State.linesInFlight, hp, portLines_push, hl, if_true, hq, List.countP_singleton] at hle
    cases hw : isLine w with
    | false => rfl
    | true => simp only [hw, if_true] at hle; omega

/-- While a line is in flight the producer leaves `STG` and waits (R77, R96). -/
theorem ProdMove.of_busy (h : s.ChannelInv) (hb : s.chan.busy = true) (hm : ProdMove s t) :
    t.chan.stg = s.chan.stg ∧
      (s.prod.pphase = .wait → t.prod.pphase = .wait ∧ t.prod.pcmd = s.prod.pcmd) := by
  cases hm with
  | copy hp => rw [(h.2.1 (.inl hp)).1] at hb; cases hb
  | toCopy hp hf | toPush hp hf => rw [hf] at hb; cases hb
  | spin hp => exact ⟨rfl, fun _ => ⟨hp, rfl⟩⟩
  | rest hp | op _ _ hp | poll _ hp | mark hp | full hp | push hp => simp [hp]

/-- Settles O10: with `BUSY = 1` there is no `P_COPY`, `P_WAIT` spins, and only `C_ACK` clears the flag. -/
theorem backpressureProtectsTheLineInFlight : Obligations.BackpressureProtectsTheLineInFlight := by
  intro s t h hb hr hstep
  rcases step_moves hstep with ⟨hx, hm⟩ | ⟨hx, hm⟩ | ⟨hx, hm⟩ | ⟨hx, -⟩
  · have hI : s.turnTaken.ChannelInv := h.of_eq (by simp) (by simp) (by simp)
    obtain ⟨hstg, hwait⟩ := hm.of_busy hI (by simpa using hb)
    have hbusy := hm.channel.2 (by simpa using hb)
    exact ⟨by simpa using hstg, by simpa using hwait, fun hf => by rw [hbusy] at hf; cases hf⟩
  · obtain ⟨-, hprod, -, hstg⟩ := hm.unchanged
    refine ⟨by simpa using hstg, fun hp => by simp [hprod, hp], fun hf => ?_⟩
    rcases hm.busy with he | ⟨hp, -⟩
    · rw [he, State.turnTaken_chan, hb] at hf; cases hf
    · exact ⟨hx, by simpa using hp⟩
  · obtain ⟨-, hchan, hprod, -⟩ := hm.unchanged
    exact ⟨by simp [hchan], fun hp => by simp [hprod, hp], fun hf => by simp [hchan, hb] at hf⟩
  · exact absurd hx hr

end Sys2Proof.Machine
end

section
/-! The Scanline Compositor (41_compositor.md): the fields of a pixel code, the offset tables, and the phases
`C_RESOLVE` and `C_LAYOUT` with no race. -/

namespace Sys2Proof.Machine

theorem pixelSel_toNat (c : Byte) : (pixelSel c).toNat = c.toNat / 16 % 4 := by
  simp [pixelSel, Nat.shiftRight_eq_div_pow]

theorem pixelShade_toNat (c : Byte) : (pixelShade c).toNat = c.toNat % 4 := by simp [pixelShade]

/-- A selector by its number (R101). -/
theorem pixelSel_eq {c : Byte} {k : BitVec 2} (h : c.toNat / 16 % 4 = k.toNat) : pixelSel c = k :=
  BitVec.eq_of_toNat_eq ((pixelSel_toNat c).trans h)

/-- The mask `0x33` keeps the selector and the shade (R101). -/
theorem pixelSel_mask (c : Byte) : pixelSel (c &&& 0x33#8) = pixelSel c := by
  rw [pixelSel, BitVec.extractLsb'_and]
  exact BitVec.and_allOnes

theorem pixelShade_mask (c : Byte) : pixelShade (c &&& 0x33#8) = pixelShade c := by
  rw [pixelShade, BitVec.extractLsb'_and]
  exact BitVec.and_allOnes

/-- With no race the lookup of a code with a sub-palette reads that sub-palette at the shade (R102). -/
theorem lut_of_subPalette {s : State} (h : s.RaceFree) (x : Nat) {c : Byte} {sub : SubPalette}
    (hs : subPaletteOf (pixelSel c) = some sub) : lut s x c = s.regs.pal.get sub (pixelShade c) := by
  simp only [lut, hs, readPal_of_raceFree h]

/-- The lookup sees the selector and the shade of a code only (R101, R102). -/
theorem lut_congr (s : State) (x : Nat) {c c' : Byte} (hsel : pixelSel c = pixelSel c')
    (hshade : pixelShade c = pixelShade c') : lut s x c = lut s x c' := by
  simp only [lut, hsel, hshade]

/-- Settles O24: the selector's number names the sub-palette, and the mask of the two fields names both. -/
theorem lutReadsThePaletteBySelectorAndShade : Obligations.LutReadsThePaletteBySelectorAndShade := by
  intro s x c h
  refine ⟨fun hc => lut_of_subPalette h x ?_, fun hc => lut_of_subPalette h x ?_, fun hc => lut_of_subPalette h x ?_,
    pixelShade_toNat c, fun c' hc => lut_congr s x ?_ ?_⟩
  · rw [pixelSel_eq (k := 0#2) hc]; rfl
  · rw [pixelSel_eq (k := 1#2) hc]; rfl
  · rw [pixelSel_eq (k := 2#2) hc]; rfl
  · rw [← pixelSel_mask c, hc, pixelSel_mask]
  · rw [← pixelShade_mask c, hc, pixelShade_mask]

/-- What `C_RESOLVE` leaves in `LINEBUF` (R103). -/
theorem resolvePhase_linebuf {s : State} (hc : s.Canonical) :
    (∀ x < s.cfg.srcW, (resolvePhase s).cons.linebuf.read x = resolvePixel s x) ∧
    (∀ a, s.cfg.srcW ≤ a → (resolvePhase s).cons.linebuf.read a = s.cons.linebuf.read a) := by
  constructor
  · intro x hx
    have h := Memory.read_writeRow_zero hc.linebuf_wf (resolvedLine s) (j := x) (by simpa using hx)
    rwa [getElem_resolvedLine] at h
  · intro a ha
    exact Memory.read_writeRow_outside _ _ _ _ (.inr (by simpa using ha))

/-- Settles O25: the phase is `resolvePhase`, and with no race a pixel's colour is the one R103 names. -/
theorem resolvePhaseFillsTheLineBuffer : Obligations.ResolvePhaseFillsTheLineBuffer := by
  intro s n hc hr hp
  obtain ⟨hin, hout⟩ := resolvePhase_linebuf hc
  refine ⟨resolvePhase s, by simp [exec, execLcdLine, hp], fun x hx => ?_, hout, rfl, rfl, rfl, rfl, rfl, rfl, rfl⟩
  rw [hin x hx, resolvePixel_of_raceFree hr]

/-- Settles O27: the table is the index plus the repeats before it, which the width of a line sums up. -/
theorem horizontalTableAndScaledWidth : Obligations.HorizontalTableAndScaledWidth := by
  refine ⟨rfl, fun x => rfl, fun P => ⟨rfl, ?_, ?_, ?_⟩, ?_, by decide⟩
  · exact (copyBase_bounds .keepAspect P.srcW).1
  · exact (copyBase_bounds .keepAspect P.srcW).2
  · rw [kaW, xoff_eq, repCount_eq_length_filter]
  · rw [kaW, xoff_eq]
    decide

theorem hgt_le_panelH {P : Params} (hl : P.legal = true) (m : ScalingMode) : hgt P m ≤ P.panelH := by
  obtain ⟨-, -, -, ⟨hout, hsrc⟩, -⟩ := (legal_iff P).1 hl
  cases m with
  | normal => exact hsrc
  | stretch | keepAspect => exact hout

/-- The frame ends at or above the bottom of the panel (R106). -/
theorem yoff_srcH_le {P : Params} (hl : P.legal = true) (m : ScalingMode) : yoff P m P.srcH ≤ P.panelH := by
  have h := hgt_le_panelH hl m
  rw [yoff_srcH, ybase]
  omega

/-- Settles O28: the closed form of the table, and the margin of R106 that keeps the frame's end inside. -/
theorem verticalTableStaysInsideThePanel : Obligations.VerticalTableStaysInsideThePanel := fun P hl m =>
  ⟨rfl, fun _ => rfl, fun i => yoff_eq P .normal i, yoff_srcH P m, yoff_srcH_le hl m⟩

theorem layoutPhase_place {s : State} (hr : s.RaceFree) (n : Nat) :
    (layoutPhase n s).cons.place = placementOf s.cfg s.regs.scale n :=
  congrArg (placementOf s.cfg · n) (readScale_of_raceFree hr 0)

theorem layoutPhase_outbuf {s : State} (hr : s.RaceFree) (n : Nat) :
    (layoutPhase n s).cons.outbuf = copyLoop s.regs.scale s.cons.linebuf s.cfg.srcW s.cons.outbuf := by
  rw [← layoutLine_eq]
  exact congrArg (layoutLine s.cfg · s.cons.linebuf s.cons.outbuf) (readScale_of_raceFree hr 0)

/-- What `C_LAYOUT` leaves in `OUTBUF` (R107 to R110). -/
theorem layoutPhase_read {s : State} (hc : s.Canonical) (hr : s.RaceFree) (n : Nat) :
    (∀ x < s.cfg.srcW, ∀ k ∈ copiesOf s.regs.scale x,
      (layoutPhase n s).cons.outbuf.read k = s.cons.linebuf.read x) ∧
    (∀ a, outWidth s.cfg s.regs.scale ≤ a → (layoutPhase n s).cons.outbuf.read a = s.cons.outbuf.read a) := by
  rw [layoutPhase_outbuf hr]
  exact ⟨fun x hx k hk => copyLoop_copies _ _ _ hc.outbuf_wf hx hk,
    fun a ha => copyLoop_outside _ _ _ _ (by rwa [← outWidth_eq])⟩

/-- Settles O29: with no race the mode read is `SCALE`, and the layout is the loop that writes the copies. -/
theorem layoutPhasePlacesEveryPixel : Obligations.LayoutPhasePlacesEveryPixel := by
  intro s n hc hr hp
  have hplace := layoutPhase_place hr n.toNat
  obtain ⟨hin, hout⟩ := layoutPhase_read hc hr n.toNat
  refine ⟨layoutPhase n.toNat s, by simp [exec, execLcdLine, hp], ?_, ?_, ?_, ?_, hin, ?_, rfl, rfl, rfl, rfl, rfl,
    rfl, rfl⟩ <;> rw [hplace]
  · cases s.regs.scale <;> rfl
  · rfl
  · rfl
  · rfl
  · exact hout

theorem copiesOf_length (m : ScalingMode) (x : Nat) : (copiesOf m x).length = 1 ∨ (copiesOf m x).length = 2 := by
  cases m with
  | normal => exact .inl rfl
  | stretch => exact .inr rfl
  | keepAspect => rcases rep_cases x with h | h <;> simp [copiesOf, h]

/-- A copy of a column in a layout lies below the line's width (R111). -/
theorem copy_lt_outWidth {P : Params} {m : ScalingMode} {x k : Nat} (hx : x < P.srcW) (hk : k ∈ copiesOf m x) :
    k < outWidth P m := by
  have hbase := copyBase_mono m (show x + 1 ≤ P.srcW from hx)
  rw [copyBase_succ] at hbase
  rw [mem_copiesOf] at hk
  rw [outWidth_eq]
  omega

theorem copies_ordered {m : ScalingMode} {x y k l : Nat} (hk : k ∈ copiesOf m x) (hl : l ∈ copiesOf m y)
    (hkl : k ≤ l) : x ≤ y := by
  rw [mem_copiesOf] at hk hl
  by_contra hyx
  have hbase := copyBase_mono m (show y + 1 ≤ x by omega)
  rw [copyBase_succ] at hbase
  omega

theorem outWidth_bounds (P : Params) (m : ScalingMode) : P.srcW ≤ outWidth P m ∧ outWidth P m ≤ 2 * P.srcW := by
  rw [outWidth_eq]
  exact copyBase_bounds m P.srcW

theorem outRows_cases (P : Params) (m : ScalingMode) (n : Nat) :
    (placementOf P m n).outRows = 1 ∨ (placementOf P m n).outRows = 2 := by
  have h := vrep_le_one m n
  simp only [placementOf]
  omega

/-- Settles O30: the copies of the columns follow each other without a gap from 0 to the width. -/
theorem layoutIsAnOrderedIntegerZoom : Obligations.LayoutIsAnOrderedIntegerZoom := by
  intro P m
  refine ⟨(outWidth_bounds P m).1, (outWidth_bounds P m).2, fun x _ => copiesOf_length m x, fun k => ⟨fun hk => ?_, ?_⟩,
    fun x y k l => copies_ordered, outRows_cases P m⟩
  · exact exists_copy m P.srcW (by rwa [← outWidth_eq])
  · rintro ⟨x, hx, hk⟩
    exact copy_lt_outWidth hx hk

/-- Settles O31: the line is at most twice as wide as the source, and the line after it begins inside the frame. -/
theorem placedLineLiesInsideThePanel : Obligations.PlacedLineLiesInsideThePanel := by
  intro P m n hl hn
  obtain ⟨-, -, hpanel, -⟩ := (legal_iff P).1 hl
  have hw := (outWidth_bounds P m).2
  have hend := (yoff_mono P m (show n + 1 ≤ P.srcH from hn)).trans (yoff_srcH_le hl m)
  rw [yoff_succ] at hend
  simp only [placementOf]
  omega

/-- The placement of a line of the frame is one that `C_PUSH` takes (R44, R113). -/
theorem placementInside_of_placementOf {s : State} {m : ScalingMode} {n : Nat} (hl : s.cfg.legal = true)
    (hn : n < s.cfg.srcH) (hp : s.cons.place = placementOf s.cfg m n) : placementInside s = true := by
  obtain ⟨hx, hy⟩ := placedLineLiesInsideThePanel s.cfg m n hl hn
  obtain ⟨hlo, hhi⟩ := outWidth_bounds s.cfg m
  have hsrc := ((legal_iff s.cfg).1 hl).1
  have hrows := outRows_cases s.cfg m n
  rw [placementInside_iff, hp]
  exact ⟨hsrc.trans hlo, hhi, by omega, by omega, hx, hy⟩

end Sys2Proof.Machine
end

section
/-! The panel and the byte order (42_display_driver.md R127 to R130). -/

namespace Sys2Proof.Machine

section
variable (w : Window) (c : Cursor)

theorem Window.advance_along (h : c.x < w.x1) : w.advance c = ⟨c.x + 1, c.y⟩ := if_pos h

theorem Window.advance_down (hx : w.x1 ≤ c.x) (hy : c.y < w.y1) : w.advance c = ⟨w.x0, c.y + 1⟩ := by
  rw [Window.advance, if_neg (by omega), if_pos hy]

theorem Window.advance_back (hx : w.x1 ≤ c.x) (hy : w.y1 ≤ c.y) : w.advance c = ⟨w.x0, w.y0⟩ := by
  rw [Window.advance, if_neg (by omega), if_neg (by omega)]

end

/-- Settles O32: a write is one memory write at the cursor and one of the cursor's three moves. -/
theorem panelWindowAndWrite : Obligations.PanelWindowAndWrite :=
  ⟨fun _ _ _ _ _ => ⟨rfl, rfl, rfl⟩, fun _ p u hp => ⟨Memory.read_write_same u hp,
    fun _ ha => Memory.read_write_other u ha p.pix, rfl, p.win.advance_along p.cur, p.win.advance_down p.cur,
    p.win.advance_back p.cur⟩⟩

/-- Settles O33: the stream from unit 0 on, each unit at its position of the window. -/
theorem streamFillsTheWindow : Obligations.StreamFillsTheWindow := by
  intro P p x0 y0 x1 y1 us hx hxP hy hyP hp hlen
  let w : Window := ⟨x0, y0, x1, y1⟩
  have hpos : 0 < w.width * w.height := Nat.mul_pos w.width_pos w.height_pos
  have hlen' : us.length = w.width * w.height := hlen
  obtain ⟨hread, hother, hcur⟩ := Panel.stream_spec (P := P) us (p := p.setWindow x0 y0 x1 y1) (j := 0) hx hxP hy hp
    w.cell_zero.symm hpos (by rw [Nat.zero_add]; exact hlen'.le)
  refine ⟨fun r k h hk => ?_, fun c hc hout => hother _ fun i hi heq => hout ?_, Panel.stream_win _ _ _, ?_,
    Panel.wf_stream _ _ _ hp⟩
  · have hcell : w.cell (0 + (r * (x1 - x0 + 1) + k)) = ⟨x0 + k, y0 + r⟩ := by
      rw [Nat.zero_add]
      exact w.cell_row_col r hk
    have h1 := hread _ h
    rw [Panel.setWindow_win, show Window.cell ⟨x0, y0, x1, y1⟩ _ = _ from hcell] at h1
    exact h1
  · obtain ⟨h1, h2, h3, h4⟩ := Window.cell_inside (w := w) hx hy (j := 0 + i) (by omega)
    obtain ⟨ey, ex⟩ := (pixelAddr_inj hc.1 (h2.trans_lt hxP)).1 heq
    rw [ex, ey]
    exact ⟨h1, h2, h3, h4⟩
  · rw [hcur, if_pos (by rw [Nat.zero_add]; exact hlen')]
    exact w.cell_zero

theorem bswap16_toNat (c : Colour) : (bswap16 c).toNat = c.toNat % 256 * 256 + c.toNat / 256 := by
  have hc := c.isLt
  have hlow : c.toNat % 256 * 2 ^ 8 < 2 ^ 16 := by omega
  simp only [bswap16, BitVec.toNat_or, BitVec.toNat_shiftLeft, BitVec.toNat_setWidth, BitVec.extractLsb'_toNat,
    Nat.shiftRight_eq_div_pow, Nat.shiftLeft_eq]
  rw [show c.toNat / 2 ^ 0 % 2 ^ 8 % 2 ^ 16 * 2 ^ 8 % 2 ^ 16 = c.toNat % 256 * 2 ^ 8 by omega,
    show c.toNat / 2 ^ 8 % 2 ^ 8 % 2 ^ 16 = c.toNat / 256 by omega, shl_or (by omega)]
  rfl

theorem bswap16_bswap16 (c : Colour) : bswap16 (bswap16 c) = c := by
  apply BitVec.eq_of_toNat_eq
  rw [bswap16_toNat, bswap16_toNat]
  have hc := c.isLt
  omega

/-- Settles O34: the exchange as a number, and that it undoes itself. -/
theorem byteOrderFunctionIsAnInvolution : Obligations.ByteOrderFunctionIsAnInvolution := by
  intro P c
  cases hs : P.swapBytes with
  | false => simp [bs, hs]
  | true => simp [bs, hs, bswap16_bswap16, bswap16_toNat]

end Sys2Proof.Machine
end

section
/-! The Display Driver's pushes (42_display_driver.md R131, R132, R136 to R145): one equation per phase and
configuration, and what each leaves in the panel and the buffers. -/

namespace Sys2Proof.Machine

section
variable {s : State} {n : Byte}

theorem dmaInFlight_of_noDma (h : s.cfg.useDma = false) : s.dmaInFlight = false := by simp [State.dmaInFlight, h]

theorem dmaInFlight_of_dma (h : s.cfg.useDma = true) : s.dmaInFlight = s.drv.dma.busy := by
  simp [State.dmaInFlight, h]

theorem useDma_of_inFlight (h : s.dmaInFlight = true) : s.cfg.useDma = true := by
  rw [State.dmaInFlight, Bool.and_eq_true] at h
  exact h.1

theorem pushWaits_direct (h : s.cfg.driverMode = .direct) : pushWaits s = s.dmaInFlight := by simp [pushWaits, h]

theorem pushWaits_of_notInFlight (h : s.dmaInFlight = false) : pushWaits s = false := by
  cases hm : s.cfg.driverMode <;> simp [pushWaits, hm, h]

theorem pushWaits_framebuffered (h : s.cfg.driverMode = .framebuffered) :
    pushWaits s = true ↔ s.cfg.fbCount = 1 ∧ s.dmaInFlight = true := by simp [pushWaits, h]

theorem pushLine_direct (h : s.cfg.driverMode = .direct) (hd : s.cfg.useDma = false) :
    pushLine s = pushDirect s := by simp [pushLine, h, hd]

theorem pushLine_directDma (h : s.cfg.driverMode = .direct) (hd : s.cfg.useDma = true) :
    pushLine s = pushDirectDma s := by simp [pushLine, h, hd]

theorem pushLine_framebuffered (h : s.cfg.driverMode = .framebuffered) : pushLine s = pushFb s := by
  simp [pushLine, h]

theorem afterPush_direct {P : Params} (h : P.driverMode = .direct) (k : Nat) : afterPush P k = .ack := by
  simp [afterPush, h]

theorem afterPush_framebuffered {P : Params} (h : P.driverMode = .framebuffered) (k : Nat) :
    afterPush P k = if k + 1 = P.srcH then .frame else .ack := by simp [afterPush, h]

theorem exec_push (hp : s.cons.cphase = .push) : exec (.lcdLine n) s = pushPhase n.toNat s := by
  simp [exec, execLcdLine, hp]

theorem exec_push_of_waits (hp : s.cons.cphase = .push) (hw : pushWaits s = true) :
    exec (.lcdLine n) s = .next s := by simp [exec_push hp, pushPhase, hw]

theorem exec_push_of_ready (hp : s.cons.cphase = .push) (hw : pushWaits s = false) (hin : placementInside s = true) :
    exec (.lcdLine n) s = .next ((pushLine s).toPhase (afterPush s.cfg n.toNat)) := by
  simp [exec_push hp, pushPhase, hw, hin]

theorem exec_frame (hp : s.cons.cphase = .frame) : exec (.lcdLine n) s = .next (framePhase s) := by
  simp [exec, execLcdLine, hp]

theorem framePhase_blocking (hd : s.cfg.useDma = false) : framePhase s = (framePushBlocking s).toPhase .ack := by
  simp [framePhase, hd]

theorem framePhase_skip (hf : s.dmaInFlight = true) : framePhase s = s.toPhase .ack := by
  simp [framePhase, framePushDma, hf, useDma_of_inFlight hf]

theorem exec_frame_blocking (hd : s.cfg.useDma = false) (hp : s.cons.cphase = .frame) :
    exec (.lcdLine n) s = .next ((framePushBlocking s).toPhase .ack) := by rw [exec_frame hp, framePhase_blocking hd]

/-- The frame push that starts its transfer and swaps (R140, R141). -/
theorem framePhase_start (hd : s.cfg.useDma = true) (hf : s.dmaInFlight = false) : framePhase s = { s with
    cons := { s.cons with cphase := .ack }
    drv := { s.drv with
      fbWr := if s.cfg.fbCount = 2 then s.drv.fbWr.other else s.drv.fbWr
      dma := { busy := true, src := .fb s.drv.fbWr, len := s.cfg.panelN, pos := 0 }
      panel := s.drv.panel.setFullWindow s.cfg } } := by
  simp only [framePhase, framePushDma, hd, hf, if_true, Bool.false_eq_true, if_false, Driver.swap_eq]
  rfl

theorem exec_direct_push (hm : s.cfg.driverMode = .direct) (hd : s.cfg.useDma = false) (hp : s.cons.cphase = .push)
    (hin : placementInside s = true) : exec (.lcdLine n) s = .next ((pushDirect s).toPhase .ack) := by
  rw [exec_push_of_ready hp (pushWaits_of_notInFlight (dmaInFlight_of_noDma hd)) hin, pushLine_direct hm hd,
    afterPush_direct hm]

theorem exec_directDma_push (hm : s.cfg.driverMode = .direct) (hd : s.cfg.useDma = true)
    (hb : s.drv.dma.busy = false) (hp : s.cons.cphase = .push) (hin : placementInside s = true) :
    exec (.lcdLine n) s = .next ((pushDirectDma s).toPhase .ack) := by
  rw [exec_push_of_ready hp (by rw [pushWaits_direct hm, dmaInFlight_of_dma hd, hb]) hin, pushLine_directDma hm hd,
    afterPush_direct hm]

theorem exec_framebuffer_push (hm : s.cfg.driverMode = .framebuffered) (hw : pushWaits s = false)
    (hp : s.cons.cphase = .push) (hin : placementInside s = true) :
    exec (.lcdLine n) s = .next ((pushFb s).toPhase (if n.toNat + 1 = s.cfg.srcH then .frame else .ack)) := by
  rw [exec_push_of_ready hp hw hin, pushLine_framebuffered hm, afterPush_framebuffered hm]

end

/-- Settles O35: the push streams the line's units through the line's window. -/
theorem directPushPaintsExactlyThePlacedLine : Obligations.DirectPushPaintsExactlyThePlacedLine := by
  intro s n hm hd hc hp hin
  obtain ⟨hread, hother, hcur⟩ := stream_line hin hc.pix_wf
  exact ⟨_, exec_direct_push hm hd hp hin, hread, hother, Panel.stream_win _ _ _, hcur, rfl⟩

/-- Settles O36: a transfer in flight makes the phase wait; otherwise `XBUF` gets the line's units, row by row. -/
theorem dmaPushCopiesAndStartsTheTransfer : Obligations.DmaPushCopiesAndStartsTheTransfer := by
  intro s n hm hd hp
  refine ⟨fun hb => exec_push_of_waits hp (by rw [pushWaits_direct hm, dmaInFlight_of_dma hd, hb]),
    fun hb hc hin => ⟨_, exec_directDma_push hm hd hb hp hin, fun r hr k hk => ?_, fun a ha => ?_, rfl⟩⟩
  · have hlt : r * s.cons.place.outW + k < (lineUnits s).length := by
      rw [length_lineUnits]
      exact mul_add_lt hr hk
    exact (Memory.read_writeRow_zero hc.xbuf_wf (lineUnits s) hlt).trans (getElem_lineUnits s hk hlt)
  · exact Memory.read_writeRow_outside _ _ _ _ (.inr (by simpa using ha))

section
variable (s : State)

theorem pushFb_idleMode : (pushFb s).drv.idleMode = s.drv.idleMode := s.drv.setFb_idleMode _ _
theorem pushFb_xbuf : (pushFb s).drv.xbuf = s.drv.xbuf := s.drv.setFb_xbuf _ _
theorem pushFb_fbWr : (pushFb s).drv.fbWr = s.drv.fbWr := s.drv.setFb_fbWr _ _
theorem pushFb_dma : (pushFb s).drv.dma = s.drv.dma := s.drv.setFb_dma _ _
theorem pushFb_panel : (pushFb s).drv.panel = s.drv.panel := s.drv.setFb_panel _ _

end

/-- What `push_fb` leaves in the writable buffer (R136). -/
theorem pushFb_bufferAt {s : State} (hc : s.Canonical) (hin : placementInside s = true) :
    (∀ r < s.cons.place.outRows, ∀ k < s.cons.place.outW,
      (pushFb s).bufferAt s.drv.fbWr ⟨s.cons.place.outX + k, s.cons.place.outY + r⟩
        = bs s.cfg (s.cons.outbuf.read k)) ∧
    (∀ c : Cursor, c.InPanel s.cfg → ¬ s.cons.place.Covers c →
      (pushFb s).bufferAt s.drv.fbWr c = s.bufferAt s.drv.fbWr c) := by
  obtain ⟨-, -, -, -, hx, -⟩ := (placementInside_iff s).1 hin
  have hbuf : (pushFb s).drv.fb s.drv.fbWr = rowsLoop s s.cons.place.outRows (s.drv.fb s.drv.fbWr) :=
    Driver.fb_setFb_same _ _ _
  constructor
  · intro r hr k hk
    rw [State.bufferAt, hbuf]
    exact rowsLoop_inside _ (hc.fb_wf _) hx hr hk
  · intro c hcp hcov
    rw [State.bufferAt, hbuf]
    exact rowsLoop_outside _ _ hx hcp.1 hcov

/-- Settles O38: with one buffer a transfer makes the push wait; otherwise the rows go to the writable buffer, which
with two buffers the transfer does not read. -/
theorem framebufferPushWritesTheWritableBuffer : Obligations.FramebufferPushWritesTheWritableBuffer := by
  intro s n hm hp
  refine ⟨fun h1 hf => exec_push_of_waits hp ((pushWaits_framebuffered hm).2 ⟨h1, hf⟩), fun hw hc hg hin => ?_⟩
  have hready : pushWaits s = false := by rw [← Bool.not_eq_true, pushWaits_framebuffered hm]; exact hw
  obtain ⟨hread, hother⟩ := pushFb_bufferAt hc hin
  refine ⟨_, exec_framebuffer_push hm hready hp hin, hread, hother, fun hf h2 => ?_, ?_, ?_⟩
  · rw [(hg.2.2 hf).2.1 hm h2]
    simp
  · simp [pushFb]
  · simp [pushFb, State.toPhase]

section
variable (s : State)

@[simp] theorem framePushBlocking_cfg : (framePushBlocking s).cfg = s.cfg := rfl
@[simp] theorem framePushBlocking_chan : (framePushBlocking s).chan = s.chan := rfl
@[simp] theorem framePushBlocking_prod : (framePushBlocking s).prod = s.prod := rfl
@[simp] theorem framePushBlocking_cons : (framePushBlocking s).cons = s.cons := rfl
@[simp] theorem framePushBlocking_regs : (framePushBlocking s).regs = s.regs := rfl
@[simp] theorem framePushBlocking_env : (framePushBlocking s).env = s.env := rfl

end

theorem panel_pos {P : Params} (hl : P.legal = true) : 1 ≤ P.panelW ∧ 1 ≤ P.panelH := by
  obtain ⟨hw, ⟨hh, -⟩, hpw, ⟨-, hph⟩, -⟩ := (legal_iff P).1 hl
  omega

/-- The frame push without DMA loads every panel position from the writable buffer (R139). -/
theorem framePushBlocking_panel {s : State} (hl : s.cfg.legal = true) (hc : s.Canonical) :
    (∀ c : Cursor, c.InPanel s.cfg → (framePushBlocking s).panelAt c = s.bufferAt s.drv.fbWr c) ∧
    (framePushBlocking s).drv.panel.win = ⟨0, 0, s.cfg.panelW - 1, s.cfg.panelH - 1⟩ ∧
    (framePushBlocking s).drv.panel.cur = ⟨0, 0⟩ := by
  obtain ⟨hW, hH⟩ := panel_pos hl
  obtain ⟨hread, hcur⟩ := stream_fullWindow hW hH hc.pix_wf ((s.drv.fb s.drv.fbWr).elements s.cfg.panelN) (by simp)
  have hpanel : (framePushBlocking s).drv.panel = (s.drv.panel.setFullWindow s.cfg).stream s.cfg
      ((s.drv.fb s.drv.fbWr).elements s.cfg.panelN) := Driver.swap_panel _ _
  rw [hpanel]
  refine ⟨fun c hcp => ?_, Panel.stream_win _ _ _, hcur⟩
  have h := hread _ (pixelAddr_lt hcp.1 hcp.2)
  rw [Memory.getElem_elements] at h
  rw [State.panelAt, hpanel]
  exact h

/-- Settles O39: the whole window takes the buffer's elements in order, and the swap changes `FB_WR` only. -/
theorem blockingFramePushLoadsTheWholeBuffer : Obligations.BlockingFramePushLoadsTheWholeBuffer := by
  intro s n hd hl hc hp
  obtain ⟨hread, hwin, hcur⟩ := framePushBlocking_panel hl hc
  refine ⟨_, exec_frame_blocking hd hp, hread, hwin, hcur, ?_⟩
  simp only [framePushBlocking, State.toPhase, Driver.swap_eq]

/-- Settles O40: with a transfer in flight the frame push only moves the phase, otherwise it starts one. -/
theorem dmaFramePushStartsOrSkips : Obligations.DmaFramePushStartsOrSkips := by
  intro s n hd hp
  rw [exec_frame hp]
  constructor
  · intro hb
    rw [framePhase_skip (by rw [dmaInFlight_of_dma hd, hb])]
  · intro hb
    rw [framePhase_start hd (by rw [dmaInFlight_of_dma hd, hb])]
    rfl

theorem idlePhase_of_notInFlight {s : State} (hf : s.dmaInFlight = false) (m : Byte) :
    idlePhase m s = ({ s with drv := { s.drv.displayClear s.cfg with idleMode := m } }).toPhase .pop := by
  simp [idlePhase, hf]

theorem exec_idle {s : State} (hp : s.cons.cphase = .idle) (m : Byte) :
    exec (.idleSet m) s = .next (idlePhase m s) := by simp [exec, execIdleSet, hp]

theorem exec_idle_of_notInFlight {s : State} (hp : s.cons.cphase = .idle) (hf : s.dmaInFlight = false) (m : Byte) :
    exec (.idleSet m) s =
      .next (({ s with drv := { s.drv.displayClear s.cfg with idleMode := m } }).toPhase .pop) := by
  rw [exec_idle hp, idlePhase_of_notInFlight hf]

theorem exec_idle_of_inFlight {s : State} (hp : s.cons.cphase = .idle) (hf : s.dmaInFlight = true) (m : Byte) :
    exec (.idleSet m) s = .next s := by rw [exec_idle hp, idlePhase_of_inFlight hf]

/-- The cleared panel (R145). -/
theorem displayClear_panel {P : Params} (hl : P.legal = true) {d : Driver} (hp : d.panel.pix.wf = true) :
    (∀ c : Cursor, c.InPanel P → (d.displayClear P).panel.pix.read (pixelAddr P c.y c.x) = bs P P.clearColour) ∧
    (d.displayClear P).panel.win = ⟨0, 0, P.panelW - 1, P.panelH - 1⟩ ∧ (d.displayClear P).panel.cur = ⟨0, 0⟩ := by
  obtain ⟨hW, hH⟩ := panel_pos hl
  obtain ⟨hread, hcur⟩ := stream_fullWindow hW hH hp (List.replicate P.panelN (bs P P.clearColour)) (by simp)
  refine ⟨fun c hc => ?_, Panel.stream_win _ _ _, hcur⟩
  exact (hread _ (pixelAddr_lt hc.1 hc.2)).trans (List.getElem_replicate _)

/-- Settles O19: the phase waits for a transfer in flight; otherwise it fills the framebuffers there are and streams
the clear colour through the whole window. -/
theorem idleSetLatchesTheModeAndClearsTheDisplay : Obligations.IdleSetLatchesTheModeAndClearsTheDisplay := by
  refine ⟨fun s m hp => by simp [exec, execIdleSet, hp], fun s m hl hc hp hf => ?_,
    fun s m hp hf => exec_idle_of_inFlight hp hf m⟩
  obtain ⟨hpanel, hwin, hcur⟩ := displayClear_panel hl hc.pix_wf
  obtain ⟨hfb0, hfb1⟩ := clearBuffers_fb s.cfg s.drv
  have hfill : ∀ b : BufId, ∀ c : Cursor, c.InPanel s.cfg →
      (fillBuffer s.cfg (s.drv.fb b) (bs s.cfg s.cfg.clearColour)).read (pixelAddr s.cfg c.y c.x)
        = bs s.cfg s.cfg.clearColour :=
    fun b c hcp => read_fillBuffer s.cfg _ (hc.fb_wf b) (pixelAddr_lt hcp.1 hcp.2)
  refine ⟨_, exec_idle_of_notInFlight hp hf m, rfl, hpanel, fun hm c hcp => ?_, fun hm h2 c hcp => ?_,
    fun hm => ⟨?_, ?_⟩, fun h1 => ?_, hwin, hcur, s.drv.clearBuffers_xbuf _, s.drv.clearBuffers_fbWr _,
    s.drv.clearBuffers_dma _, rfl, rfl, rfl, rfl, rfl, rfl⟩
  · rw [if_pos hm] at hfb0
    exact (congrArg (Memory.read · _) hfb0).trans (hfill .zero c hcp)
  · rw [if_pos ⟨hm, h2⟩] at hfb1
    exact (congrArg (Memory.read · _) hfb1).trans (hfill .one c hcp)
  · exact hfb0.trans (if_neg (by simp [hm]))
  · exact hfb1.trans (if_neg (by simp [hm]))
  · exact hfb1.trans (if_neg (by simp [h1]))

end Sys2Proof.Machine
end

section
/-! The consumer's dispatch and the commands without a drawing (40_channel.md R83 to R89, R93, R94), and what the
step itself checks (00_scope.md R4, 70_reset_and_hazards.md R190, R208). -/

namespace Sys2Proof.Machine

section
variable {s : State} {rest : List Turn}

theorem step_cons (ht : s.TurnIs .cons rest) : step s = consTurn (s.withSched rest) := step_of_turnIs ht

theorem step_runCommand (ht : s.TurnIs .cons rest) (hp : s.cons.cphase ≠ .pop) :
    step s = runCommand (s.withSched rest) := (step_cons ht).trans (if_neg hp)

theorem runCommand_of_command {i : Instr} (h : decode s.cons.cmd = .command i) : runCommand s = exec i s := by
  simp only [runCommand, h]

theorem runCommand_of_reserved {t d : Byte} (h : decode s.cons.cmd = .reserved t d) :
    runCommand s = execReserved t d s := by simp only [runCommand, h]

theorem step_command {i : Instr} (ht : s.TurnIs .cons rest) (hp : s.cons.cphase ≠ .pop)
    (h : decode s.cons.cmd = .command i) : step s = exec i (s.withSched rest) :=
  (step_runCommand ht hp).trans (runCommand_of_command (s := s.withSched rest) h)

theorem step_reserved {t d : Byte} (ht : s.TurnIs .cons rest) (hp : s.cons.cphase ≠ .pop)
    (h : decode s.cons.cmd = .reserved t d) : step s = execReserved t d (s.withSched rest) :=
  (step_runCommand ht hp).trans (runCommand_of_reserved (s := s.withSched rest) h)

/-- Settles O13: past `C_POP` the consumer's turn runs what `CMD` decodes to. -/
theorem stepRunsTheCommandInCmd : Obligations.StepRunsTheCommandInCmd := fun _ _ ht hp =>
  ⟨fun _ h => step_command ht hp h, fun _ _ h => step_reserved ht hp h⟩

theorem noEffect_of_dispatch (hp : s.cons.cphase = .dispatch) : noEffect s = .next (s.toPhase .pop) := by
  simp [noEffect, hp]

theorem exec_nop_dispatch (hp : s.cons.cphase = .dispatch) (d : Byte) :
    exec (.nop d) s = .next (s.toPhase .pop) := noEffect_of_dispatch hp

theorem exec_setPixel_dispatch (hp : s.cons.cphase = .dispatch) (hd : s.cfg.debugSetPixel = false) (d : Byte) :
    exec (.setPixel d) s = .next (s.toPhase .pop) := by
  simp [exec, execSetPixel, hd, noEffect_of_dispatch hp]

theorem exec_idleSet_dispatch (hp : s.cons.cphase = .dispatch) (m : Byte) :
    exec (.idleSet m) s = .next (s.toPhase .idle) := by simp [exec, execIdleSet, hp]

theorem exec_line_dispatch (hp : s.cons.cphase = .dispatch) {n : Byte} (hn : n.toNat < s.cfg.srcH) :
    exec (.lcdLine n) s = .next (s.toPhase .resolve) := by simp [exec, execLcdLine, hp, hn]

theorem exec_line_dispatch_outside (hp : s.cons.cphase = .dispatch) {n : Byte} (hn : s.cfg.srcH ≤ n.toNat) :
    exec (.lcdLine n) s = .next (s.toPhase .ack) := by
  simp [exec, execLcdLine, hp, Nat.not_lt.2 hn]

theorem exec_line_resolve (hp : s.cons.cphase = .resolve) (n : Byte) :
    exec (.lcdLine n) s = .next (resolvePhase s) := by simp [exec, execLcdLine, hp]

theorem exec_line_layout (hp : s.cons.cphase = .layout) (n : Byte) :
    exec (.lcdLine n) s = .next (layoutPhase n.toNat s) := by simp [exec, execLcdLine, hp]

theorem exec_line_ack (hp : s.cons.cphase = .ack) (n : Byte) :
    exec (.lcdLine n) s = .next (ackPhase s) := by simp [exec, execLcdLine, hp]

end

/-- Settles O12: the meaning of each command at `C_DISPATCH`. -/
theorem dispatchFollowsTheTag : Obligations.DispatchFollowsTheTag := by
  intro s rest ht hp
  have hne : s.cons.cphase ≠ .pop := by rw [hp]; decide
  have hp' : (s.withSched rest).cons.cphase = .dispatch := hp
  refine ⟨fun d h => ?_, fun n h hn => ?_, fun n h hn => ?_, fun m h => ?_, fun d h => ?_, fun t d h => ?_⟩
  · exact (step_command ht hne h).trans (exec_nop_dispatch hp' d)
  · exact (step_command ht hne h).trans (exec_line_dispatch hp' hn)
  · exact (step_command ht hne h).trans (exec_line_dispatch_outside hp' hn)
  · exact (step_command ht hne h).trans (exec_idleSet_dispatch hp' m)
  · exact (step_command ht hne h).trans (exec_setPixel_dispatch hp' ht.2.2 d)
  · exact (step_reserved ht hne h).trans (noEffect_of_dispatch hp')

/-- A word that is neither an LCD_LINE nor an IDLE_SET is discarded at its dispatch (R85, R93, R94). -/
theorem runCommand_discard {s : State} (hp : s.cons.cphase = .dispatch) (hd : s.cfg.debugSetPixel = false)
    (h1 : tagOf s.cons.cmd ≠ 1#8) (h2 : tagOf s.cons.cmd ≠ 2#8) : runCommand s = .next (s.toPhase .pop) := by
  by_cases h0 : tagOf s.cons.cmd = 0#8
  · rw [runCommand_of_command (i := .nop (dataOf s.cons.cmd)) (by simp [decode, h0]), exec_nop_dispatch hp]
  · by_cases h3 : tagOf s.cons.cmd = 3#8
    · rw [runCommand_of_command (i := .setPixel (dataOf s.cons.cmd)) (by simp [decode, h3]),
        exec_setPixel_dispatch hp hd]
    · rw [runCommand_of_reserved (decode_of_four_le_tag (four_le_of_tag_ne h0 h1 h2 h3))]
      exact noEffect_of_dispatch hp

theorem step_discard {s : State} {rest : List Turn} (ht : s.TurnIs .cons rest) (hp : s.cons.cphase = .dispatch)
    (h1 : tagOf s.cons.cmd ≠ 1#8) (h2 : tagOf s.cons.cmd ≠ 2#8) :
    step s = .next ((s.withSched rest).toPhase .pop) :=
  (step_runCommand ht (by rw [hp]; decide)).trans (runCommand_discard (s := s.withSched rest) hp ht.2.2 h1 h2)

/-- Popped and dispatched, such a word leaves `Q`, `CMD` and two turns changed and nothing else. -/
theorem run_discard {s : State} {rest : List Turn} {w : Word} {ws : List Word} (ht : s.TurnIs .cons (.cons :: rest))
    (hp : s.cons.cphase = .pop) (hq : s.chan.q = w :: ws) (h1 : tagOf w ≠ 1#8) (h2 : tagOf w ≠ 2#8) :
    Host.Core.run Sys2Proof.core 2 s = .next { s with
      chan := { s.chan with q := ws }
      cons := { s.cons with cmd := w, cphase := .pop }
      env := { s.env with sched := rest } } := by
  rw [run_succ ((popTakesTheOldestWord s _ ht hp).1 w ws hq)]
  exact run_succ (step_discard ⟨rfl, ht.2⟩ rfl h1 h2)

/-- Settles O15: NOP's meaning, and the run of a word with tag 0. -/
theorem nopHasNoEffect : Obligations.NopHasNoEffect :=
  ⟨fun _ d hp => exec_nop_dispatch hp d, fun _ _ _ _ ht hp hq h0 =>
    run_discard ht hp hq (by rw [h0]; decide) (by rw [h0]; decide)⟩

/-- Settles O16: SET_PIXEL's meaning for both values of the parameter, and the run of a word with tag 3 or above. -/
theorem setPixelAndReservedTagsAreDiscarded : Obligations.SetPixelAndReservedTagsAreDiscarded := by
  refine ⟨fun s d hp hd => exec_setPixel_dispatch hp hd d, fun s d hd => by simp [exec, execSetPixel, hd],
    fun s rest w ws ht hp hq h3 => run_discard ht hp hq ?_ ?_⟩
  all_goals
    intro h
    rw [h] at h3
    exact absurd h3 (by decide)

/-- Settles O17: from the dispatch straight to the acknowledgement. -/
theorem lineOutsideTheFrameIsOnlyAcknowledged : Obligations.LineOutsideTheFrameIsOnlyAcknowledged := by
  intro s n hp hn
  rw [execPhases_succ (exec_line_dispatch_outside hp hn), execPhases_succ (exec_line_ack rfl n), execPhases_zero]
  rfl

/-- Settles O18: the phase is `ackPhase`. -/
theorem ackClearsBusy : Obligations.AckClearsBusy := fun _ n hp => exec_line_ack hp n

theorem afterPush_mem (P : Params) (n : Nat) : afterPush P n ∈ [CPhase.frame, .ack] := by
  unfold afterPush
  split
  · simp
  · split <;> simp

/-- Settles O14: each move of the consumer is an edge of the graph, and no other agent's move touches the phase. -/
theorem consumerPhaseMovesOnlyAlongTheGraph : Obligations.ConsumerPhaseMovesOnlyAlongTheGraph := by
  intro s t h
  rcases step_moves h with ⟨-, hm⟩ | ⟨hx, hm⟩ | ⟨-, hm⟩ | ⟨hx, rfl⟩
  · exact .inl (by simp [hm.unchanged.2.1])
  · have hf : s.turnTaken.dmaInFlight = s.dmaInFlight := by simp [State.dmaInFlight]
    rw [← s.turnTaken_cons, ← s.turnTaken_chan, ← hf]
    generalize s.turnTaken = u at hm
    cases hm with
    | empty | pushWait | idleWait => exact .inl rfl
    | pop w ws hp hq => simp [hx, hp, hq]
    | discard hp | toIdle hp | toResolve hp | toAck hp | resolve hp | layout hp | frame hp | ack hp => simp [hx, hp]
    | push hp =>
      refine .inr (.inr ⟨hx, .inr (.inr (.inr (.inr (.inl ⟨hp, ?_⟩))))⟩)
      exact afterPush_mem u.cfg (lineIndexOf u.cons.cmd)
    | idle hp ht hf => simp [hx, hp, hf]
  · exact .inl (by simp [hm.unchanged.2.2.2.1])
  · exact .inr (.inl ⟨hx, rfl⟩)

/-- Settles O54: the reset input's state, field by field. -/
theorem resetInputGivesTheResetState : Obligations.ResetInputGivesTheResetState := fun _ _ ht =>
  ⟨_, step_of_turnIs ht, rfl, rfl, rfl, rfl, rfl, rfl, ⟨rfl, rfl, rfl, rfl, Bool.and_false _⟩, rfl⟩

/-- Settles O55: each agent's turn finds nothing enabled. -/
theorem quiescentStateMovesOnlyByANewOperation : Obligations.QuiescentStateMovesOnlyByANewOperation := by
  rintro s t rest ht hr ⟨hp, hq, hc, -, hf⟩ hg
  rw [step_of_turnIs ht]
  cases t with
  | prod => exact prodTurn_of_nil (s := s.withSched rest) hp hg
  | cons =>
    rw [agentTurn, consTurn_of_pop (s := s.withSched rest) hc, popPhase_of_nil (s := s.withSched rest) hq]
  | dma =>
    have hf' : (s.withSched rest).dmaInFlight = false := hf
    simp [agentTurn, dmaTurn, hf']
  | reset => exact absurd rfl hr

/-- Settles O56: the step's two checks of the parameters, then the turn. -/
theorem illegalParametersAreRefused : Obligations.IllegalParametersAreRefused := by
  intro s
  refine ⟨fun hd => ?_, fun hd hl => ?_, fun hd hl => step_eq_agentTurn hl hd⟩
  · simp [step, stepTurn, hd]
  · simp [step, stepTurn, hd, hl]

end Sys2Proof.Machine
end

section
/-! The DMA engine's turns from a sound state (42_display_driver.md R134, R135, R147). -/

namespace Sys2Proof.Machine

section
variable {s : State}

theorem sourceUnit_xbuf (h : s.drv.dma.src = .xbuf) (j : Nat) : s.sourceUnit j = s.drv.xbuf.read j := by
  simp only [State.sourceUnit, h]
  rfl

theorem sourceUnit_fb {b : BufId} (h : s.drv.dma.src = .fb b) (j : Nat) :
    s.sourceUnit j = s.bufferAt b ⟨j % s.cfg.panelW, j / s.cfg.panelW⟩ := by
  simp only [State.sourceUnit, h]
  rfl

/-- From a sound state a transfer in flight has its source, its window and its cursor in place (R44, R133). -/
theorem State.Sound.transfer (h : s.Sound) (hf : s.dmaInFlight = true) :
    s.drv.panel.win.width * s.drv.panel.win.height = s.drv.dma.len ∧
    s.drv.dma.len ≤ sourceSize s.cfg s.drv.dma.src ∧ s.drv.dma.pos ≤ s.drv.dma.len ∧
    s.drv.panel.cur = s.drv.panel.win.cell (if s.drv.dma.pos = s.drv.dma.len then 0 else s.drv.dma.pos) := by
  obtain ⟨-, -, -, -, -, -, -, -, hpos, hflight⟩ := h
  obtain ⟨hsize, hsrc, hcur⟩ := hflight hf
  exact ⟨hsize, hsrc, hpos, hcur⟩

theorem State.Sound.windowInside (h : s.Sound) : s.WindowInside := h.2.2.2.2.2.1

theorem dmaTurn_of_rest (hf : s.dmaInFlight = false) : dmaTurn s = .next s := by simp [dmaTurn, hf]

theorem State.Sound.dmaTurn_beat (h : s.Sound) (hf : s.dmaInFlight = true) (hp : s.drv.dma.pos < s.drv.dma.len) :
    dmaTurn s = .next (dmaBeat s) :=
  Machine.dmaTurn_beat hf hp (h.transfer hf).2.1 h.windowInside

end

/-- Settles O42: the beat reads the unit at `DMA_POS`, in either kind of source. -/
theorem dmaBeatAndCompletion : Obligations.DmaBeatAndCompletion := by
  intro s rest ht
  have hstep : step s = dmaTurn (s.withSched rest) := step_of_turnIs ht
  refine ⟨fun hf hs hp => ?_, fun hf hp => ?_, fun hf => ?_⟩
  · have hbeat : step s = .next { s with
        drv := { s.drv with
          panel := s.drv.panel.put s.cfg (s.sourceUnit s.drv.dma.pos)
          dma := { s.drv.dma with pos := s.drv.dma.pos + 1 } }
        env := { s.env with sched := rest } } :=
      hstep.trans (State.Sound.dmaTurn_beat (s := s.withSched rest) hs hf hp)
    rw [hbeat]
    cases hsrc : s.drv.dma.src with
    | xbuf => rw [sourceUnit_xbuf hsrc]
    | fb b => rw [sourceUnit_fb hsrc]
  · exact hstep.trans (dmaTurn_complete (s := s.withSched rest) hf hp)
  · exact hstep.trans (dmaTurn_of_rest (s := s.withSched rest) hf)

/-- Beats keep the passed positions and fill the next ones (R134, R147). -/
theorem afterBeats_delivered {s : State} (hs : s.Sound) (hc : s.Canonical) (hd : s.TransferDelivered)
    (hf : s.dmaInFlight = true) {k : Nat} (hk : s.drv.dma.pos + k ≤ s.drv.dma.len) :
    ∀ j < s.drv.dma.pos + k, (afterBeats s k).panelAt (s.drv.panel.win.cell j) = s.sourceUnit j := by
  intro j hj
  obtain ⟨hsize, -, -, hcur⟩ := hs.transfer hf
  obtain ⟨hx, hxW, hy, -⟩ := hs.windowInside
  rcases Nat.eq_zero_or_pos k with rfl | hpos
  · exact hd hf j hj
  rw [if_neg (by omega)] at hcur
  obtain ⟨hread, hother, -⟩ := Panel.stream_spec (P := s.cfg)
    ((List.range k).map fun i => s.sourceUnit (s.drv.dma.pos + i)) hx hxW hy hc.pix_wf hcur (by omega)
    (by simpa [hsize] using hk)
  rcases Nat.lt_or_ge j s.drv.dma.pos with hlt | hge
  · refine (hother _ fun i hi heq => ?_).trans (hd hf j hlt)
    rw [List.length_map, List.length_range] at hi
    obtain ⟨-, hjx, -⟩ := Window.cell_inside hx hy (j := j) (by omega)
    obtain ⟨-, hix, -⟩ := Window.cell_inside hx hy (j := s.drv.dma.pos + i) (by omega)
    obtain ⟨ey, ex⟩ := (pixelAddr_inj (hjx.trans_lt hxW) (hix.trans_lt hxW)).1 heq
    have hcell : s.drv.panel.win.cell j = s.drv.panel.win.cell (s.drv.dma.pos + i) := by
      rw [Cursor.mk.injEq]; exact ⟨ex, ey⟩
    have := Window.cell_inj.1 hcell
    omega
  · obtain ⟨i, rfl⟩ := Nat.exists_eq_add_of_le hge
    have h := hread i (by simpa using hj)
    simp only [List.getElem_map, List.getElem_range] at h
    exact h

/-- Settles O43: the remaining beats and the completion, by the units they stream. -/
theorem transferCompletesAndDeliversItsSource : Obligations.TransferCompletesAndDeliversItsSource := by
  intro s hs hc hd hf
  obtain ⟨-, hsrc, hpos, -⟩ := hs.transfer hf
  have hall : s.drv.dma.pos + (s.drv.dma.len - s.drv.dma.pos) = s.drv.dma.len := Nat.add_sub_cancel' hpos
  refine ⟨_, dmaTurns_all hf hpos hsrc hs.windowInside, Bool.and_false _, fun j hj => ?_, rfl, rfl, rfl, rfl, rfl,
    rfl, rfl⟩
  exact afterBeats_delivered hs hc hd hf hall.le j (by omega)

/-- The units of the transfer that a DMA push starts are the line's (R137). -/
theorem sourceUnit_pushDirectDma {s : State} (hc : s.Canonical) {i : Nat} (hi : i < (lineUnits s).length) :
    (pushDirectDma s).sourceUnit i = (lineUnits s)[i] := Memory.read_writeRow_zero hc.xbuf_wf (lineUnits s) hi

/-- Settles O37: the beats of the started transfer stream the line's units through the line's window. -/
theorem completedDmaPushEqualsDirectPush : Obligations.CompletedDmaPushEqualsDirectPush := by
  intro s n hm hd hb hc hp hin
  obtain ⟨-, hw, -, hr, -⟩ := (placementInside_iff s).1 hin
  let u := (pushDirectDma s).toPhase .ack
  have hf : u.dmaInFlight = true := by
    show (s.cfg.useDma && true) = true
    rw [hd]; rfl
  have hsrc : s.cons.place.outRows * s.cons.place.outW ≤ 4 * s.cfg.srcW :=
    (Nat.mul_le_mul hr hw).trans_eq (by ring)
  refine ⟨u, _, exec_directDma_push hm hd hb hp hin,
    dmaTurns_all (s := u) hf (Nat.zero_le _) hsrc (lineWindow_inside hin s.drv.panel), ?_, Bool.and_false _⟩
  show (lineWindow s s.drv.panel).stream s.cfg _ = (lineWindow s s.drv.panel).stream s.cfg (lineUnits s)
  congr 1
  refine List.ext_getElem (by simp [u, pushDirectDma, Driver.dmaStart]) fun i h1 h2 => ?_
  rw [List.getElem_map, List.getElem_range]
  exact (congrArg u.sourceUnit (Nat.zero_add i)).trans (sourceUnit_pushDirectDma hc h2)

end Sys2Proof.Machine
end

section
/-! The gating invariant and the one-buffer property (42_display_driver.md R142, R143). -/

namespace Sys2Proof.Machine

variable {s t : State}

/-- Whether a transfer is in flight is a matter of the parameters and the DMA registers. -/
theorem dmaInFlight_congr (hcfg : t.cfg = s.cfg) (hdma : t.drv.dma = s.drv.dma) : t.dmaInFlight = s.dmaInFlight := by
  simp only [State.dmaInFlight, hcfg, hdma]

/-- The gating invariant speaks of the parameters, `FB_WR`, the DMA registers and `C_FRAME`. -/
theorem State.Gated.of_eq (h : s.Gated) (hcfg : t.cfg = s.cfg) (hwr : t.drv.fbWr = s.drv.fbWr)
    (hdma : t.drv.dma = s.drv.dma) (hframe : t.cons.cphase = .frame → t.cfg.driverMode = .framebuffered) :
    t.Gated := by
  refine ⟨?_, hframe, ?_⟩
  · rw [hcfg, hwr]; exact h.1
  · rw [dmaInFlight_congr hcfg hdma, hcfg, hwr, hdma]; exact h.2.2

theorem afterPush_frame {P : Params} {n : Nat} (h : afterPush P n = .frame) : P.driverMode = .framebuffered := by
  cases hm : P.driverMode with
  | direct => rw [afterPush_direct hm] at h; cases h
  | framebuffered => rfl

/-- The end of a frame keeps the gating: a transfer it starts reads the buffer that the swap takes away (R141). -/
theorem State.Gated.framePhase (h : s.Gated) (hp : s.cons.cphase = .frame) : (framePhase s).Gated := by
  have ⟨hwr, hframe, _⟩ := h
  have hm := hframe hp
  cases hd : s.cfg.useDma with
  | false =>
    rw [framePhase_blocking hd]
    have hf : ((framePushBlocking s).toPhase .ack).dmaInFlight = false := dmaInFlight_of_noDma hd
    refine ⟨fun h2 => ?_, by simp, fun hf' => by rw [hf] at hf'; cases hf'⟩
    exact ((Driver.swap_fbWr _ _).trans (if_neg h2)).trans (hwr h2)
  | true =>
    cases hf : s.dmaInFlight with
    | true =>
      rw [framePhase_skip hf]
      exact h.of_eq rfl rfl rfl (by simp)
    | false =>
      rw [framePhase_start hd hf]
      refine ⟨fun h2 => (if_neg h2).trans (hwr h2), by simp, fun _ => ⟨fun hdir => ?_, fun _ h2 => ?_, fun _ h2 => ?_⟩⟩
      · rw [hm] at hdir; cases hdir
      · simp [show s.cfg.fbCount = 2 from h2]
      · simp [show ¬ s.cfg.fbCount = 2 from h2]

/-- The push of a line keeps the gating: a transfer it starts reads `XBUF`, in direct mode (R137). -/
theorem State.Gated.push (h : s.Gated) (n : Nat) : ((pushLine s).toPhase (afterPush s.cfg n)).Gated := by
  have hframe : afterPush s.cfg n = .frame → (pushLine s).cfg.driverMode = .framebuffered := fun he => by
    rw [pushLine_cfg, afterPush_frame he]
  rcases pushLine_dma s with he | ⟨hm, he⟩
  · exact h.of_eq (by simp) (by simp) he hframe
  · refine ⟨by simpa using h.1, hframe, fun _ => ⟨fun _ => ?_, fun hf => ?_, fun hf => ?_⟩⟩
    · rw [State.toPhase_drv, he]
    · rw [State.toPhase_cfg, pushLine_cfg, hm] at hf; cases hf
    · rw [State.toPhase_cfg, pushLine_cfg, hm] at hf; cases hf

theorem State.Gated.consMove (h : s.Gated) (hm : ConsMove s t) : t.Gated := by
  cases hm with
  | empty | pushWait | idleWait => exact h
  | pop | discard | toIdle | toResolve | toAck | resolve | layout | ack => exact h.of_eq rfl rfl rfl (by simp)
  | push => exact h.push _
  | frame hp => exact h.framePhase hp
  | idle hp ht hf => exact h.of_eq (by simp) (by simp) (by simp) (by simp [hf])

theorem State.Gated.dmaMove (h : s.Gated) (hm : DmaMove s t) : t.Gated := by
  cases hm with
  | rest => exact h
  | beat hf => exact ⟨h.1, h.2.1, fun _ => h.2.2 hf⟩
  | complete hf => exact ⟨h.1, h.2.1, fun hf' => by simp [State.dmaInFlight, dmaComplete] at hf'⟩

/-- Neither the queue's, the producer's nor the schedule's part of a state is looked at by a property of the
parameters, the consumer and the driver. -/
theorem State.Gated.of_cons_drv (h : s.Gated) (hcfg : t.cfg = s.cfg) (hcons : t.cons = s.cons)
    (hdrv : t.drv = s.drv) : t.Gated :=
  h.of_eq hcfg (by rw [hdrv]) (by rw [hdrv]) (by rw [hcons, hcfg]; exact h.2.1)

theorem reset_dmaInFlight (s : State) : (resetInput s).dmaInFlight = false := Bool.and_false _

/-- Every step keeps the gating invariant (R143). -/
theorem step_keeps_gated (h : s.Gated) (hstep : step s = .next t) : t.Gated :=
  step_keeps (I := State.Gated) (fun h => h.of_cons_drv (by simp) (by simp) (by simp))
    (fun h hm => h.of_cons_drv hm.unchanged.1 hm.unchanged.2.1 hm.unchanged.2.2) (fun h => h.consMove)
    (fun h => h.dmaMove)
    (fun {s} _ => ⟨fun _ => rfl, by simp [resetInput], fun hf => by rw [reset_dmaInFlight] at hf; cases hf⟩) h hstep

/-- The memory a transfer reads, when a push writes the other framebuffer. -/
theorem source_pushFb (hg : s.Gated) (hl : s.cfg.legal = true) (hm : s.cfg.driverMode = .framebuffered)
    (hf : s.dmaInFlight = true) (hw : pushWaits s = false) :
    (pushFb s).drv.source s.drv.dma.src = s.drv.source s.drv.dma.src := by
  have h2 : s.cfg.fbCount = 2 := by
    rcases ((legal_iff s.cfg).1 hl).2.2.2.2.1 with h1 | h2
    · rw [(pushWaits_framebuffered hm).2 ⟨h1, hf⟩] at hw; cases hw
    · exact h2
  rw [(hg.2.2 hf).2.1 hm h2]
  exact (Driver.fb_setFb _ _ _ _).trans (if_neg (BufId.other_ne _))

/-- While a transfer is in flight the consumer writes neither the panel nor the DMA registers (R143): `C_PUSH` in
direct mode and `C_IDLE` wait, and the frame push is skipped. -/
theorem ConsMove.of_inFlight (hm : ConsMove s t) (hf : s.dmaInFlight = true) :
    t.drv.panel = s.drv.panel ∧ t.drv.dma = s.drv.dma := by
  cases hm with
  | empty | pushWait | idleWait | pop | discard | toIdle | toResolve | toAck | resolve | layout | ack =>
    exact ⟨rfl, rfl⟩
  | push hp hline hw hin =>
    cases hmode : s.cfg.driverMode with
    | direct => rw [pushWaits_direct hmode, hf] at hw; cases hw
    | framebuffered =>
      rw [State.toPhase_drv, pushLine_framebuffered hmode]
      exact ⟨pushFb_panel s, pushFb_dma s⟩
  | frame => rw [framePhase_skip hf]; exact ⟨rfl, rfl⟩
  | idle hp ht hf' => rw [hf'] at hf; cases hf

/-- Nor does it write the transfer's source: a framebuffer push writes the other buffer (R143). -/
theorem ConsMove.source_of_inFlight (hm : ConsMove s t) (hg : s.Gated) (hl : s.cfg.legal = true)
    (hf : s.dmaInFlight = true) : t.drv.source s.drv.dma.src = s.drv.source s.drv.dma.src := by
  cases hm with
  | empty | pushWait | idleWait | pop | discard | toIdle | toResolve | toAck | resolve | layout | ack => rfl
  | push hp hline hw hin =>
    cases hmode : s.cfg.driverMode with
    | direct => rw [pushWaits_direct hmode, hf] at hw; cases hw
    | framebuffered =>
      rw [State.toPhase_drv, pushLine_framebuffered hmode, source_pushFb hg hl hmode hf hw]
  | frame => rw [framePhase_skip hf]; rfl
  | idle hp ht hf' => rw [hf'] at hf; cases hf

/-- Settles O44: the invariant by each agent's moves, and what a transfer in flight shuts out by the consumer's. -/
theorem transferInFlightGatesTheConsumer : Obligations.TransferInFlightGatesTheConsumer := by
  intro s t hg hstep
  refine ⟨step_keeps_gated hg hstep, fun hf hx => ?_⟩
  have hm := consMove_of_step hx hstep
  have hf' : s.turnTaken.dmaInFlight = true := by rwa [dmaInFlight_congr (s := s) (by simp) (by simp)]
  obtain ⟨hpanel, hdma⟩ := hm.of_inFlight hf'
  have hsrc := hm.source_of_inFlight (hg.of_cons_drv (by simp) (by simp) (by simp))
    (by simpa using (step_next hstep).1) hf'
  rw [State.turnTaken_drv] at hpanel hdma hsrc
  exact ⟨hpanel, hdma, hsrc⟩

theorem State.OneBufferFrameFree.of_eq (h : s.OneBufferFrameFree) (hcfg : t.cfg = s.cfg) (hcons : t.cons = s.cons)
    (hdma : t.drv.dma = s.drv.dma) : t.OneBufferFrameFree := by
  rw [State.OneBufferFrameFree, hcons, dmaInFlight_congr hcfg hdma, hcfg]
  exact h

/-- With one buffer `C_PUSH` waits for the transfer, so `C_FRAME` is entered without one (R142). -/
theorem State.OneBufferFrameFree.consMove (h : s.OneBufferFrameFree) (hm : ConsMove s t) : t.OneBufferFrameFree := by
  cases hm with
  | empty | pushWait | idleWait => exact h
  | push hp hl hw hin =>
    intro hmode h1 _
    rw [State.toPhase_cfg, pushLine_cfg] at hmode h1
    have hf : s.dmaInFlight = false := by
      rw [← Bool.not_eq_true]
      exact fun hf => by rw [(pushWaits_framebuffered hmode).2 ⟨h1, hf⟩] at hw; cases hw
    rw [← hf, pushLine_framebuffered hmode]
    exact dmaInFlight_congr rfl (pushFb_dma s)
  | idle hp ht hf => simp [State.OneBufferFrameFree, hf]
  | pop | discard | toIdle | toResolve | toAck | resolve | layout | frame | ack => simp [State.OneBufferFrameFree]

theorem State.OneBufferFrameFree.dmaMove (h : s.OneBufferFrameFree) (hm : DmaMove s t) : t.OneBufferFrameFree := by
  cases hm with
  | rest | beat => exact h
  | complete => exact fun _ _ _ => by simp [State.dmaInFlight, dmaComplete]

/-- Settles O41: only `C_PUSH` enters `C_FRAME`, and only the consumer starts a transfer. -/
theorem oneFramebufferNeverSkipsAFrame : Obligations.OneFramebufferNeverSkipsAFrame := fun s t hI hstep =>
  step_keeps (I := State.OneBufferFrameFree) (fun h => h.of_eq (by simp) (by simp) (by simp))
    (fun h hm => h.of_eq hm.unchanged.1 hm.unchanged.2.1 (by rw [hm.unchanged.2.2])) (fun h => h.consMove)
    (fun h => h.dmaMove) (fun {s} _ _ _ _ => reset_dmaInFlight s) hI hstep

end Sys2Proof.Machine
end

section
/-! Canonical memories (20_memory.md R40): every move's writes keep the form. -/

namespace Sys2Proof.Machine

variable {s t : State}

/-- The driver's memories in canonical form. -/
abbrev Driver.Canonical (d : Driver) : Prop :=
  d.xbuf.wf = true ∧ d.fb0.wf = true ∧ d.fb1.wf = true ∧ d.panel.pix.wf = true

/-- A canonical state's memories are the channel's, the producer's, the consumer's and the table, and the driver's. -/
theorem State.Canonical.drv (h : s.Canonical) : s.drv.Canonical := h.2.2.2.2.2

/-- A move that changes the driver only keeps the form when the driver's memories keep it. -/
theorem State.Canonical.of_drv (h : s.Canonical) (hchan : t.chan.stg = s.chan.stg) (hprod : t.prod = s.prod)
    (hline : t.cons.linebuf = s.cons.linebuf) (hout : t.cons.outbuf = s.cons.outbuf) (hregs : t.regs = s.regs)
    (hdrv : t.drv.Canonical) : t.Canonical := by
  obtain ⟨h1, h2, h3, h4, h5, -⟩ := h
  rw [State.Canonical, hchan, hprod, hline, hout, hregs]
  exact ⟨h1, h2, h3, h4, h5, hdrv⟩

theorem State.Canonical.portOp (h : s.Canonical) (o : PortOp) : (portOp o s).Canonical := by
  obtain ⟨h1, h2, h3, h4, h5, h6⟩ := h
  cases o with
  | enqueue tag data codes =>
    refine ⟨h1, ?_, h3, h4, h5, h6⟩
    show Memory.wf (if tag = 1#8 then _ else _) = true
    split
    · exact Memory.wf_writeRow _ _ h2
    · exact h2
  | cfgPal sub k c => rw [Machine.portOp, cfgPal_eq]; exact ⟨h1, h2, h3, h4, h5, h6⟩
  | cfgScale m =>
    cases hm : scaleOf m with
    | none => rw [Machine.portOp, cfgScale_of_none s hm]; exact ⟨h1, h2, h3, h4, h5, h6⟩
    | some mode => rw [Machine.portOp, cfgScale_of_some s hm]; exact ⟨h1, h2, h3, h4, h5, h6⟩
  | cfgEcm e => rw [Machine.portOp, cfgEcm_eq]; exact ⟨h1, h2, h3, h4, h5, h6⟩
  | cfgEcmTab i c =>
    rw [Machine.portOp, cfgEcmTab_eq]
    exact ⟨h1, h2, h3, h4, Memory.wf_write i c h5, h6⟩
  | status => exact ⟨h1, h2, h3, h4, h5, h6⟩

theorem State.Canonical.prodMove (h : s.Canonical) (hm : ProdMove s t) : t.Canonical := by
  cases hm with
  | rest | spin | full | toCopy | toPush | mark | push => exact h
  | op o more => exact State.Canonical.portOp (s := s.issued more) h o
  | poll more => exact h.of_drv (by simp) (by simp) (by simp) (by simp) (by simp) (by simpa using h.drv)
  | copy => exact ⟨Memory.wf_writeRow _ _ h.1, h.2⟩

theorem Driver.Canonical.setFb {d : Driver} (h : d.Canonical) (b : BufId) {m : Memory 16} (hm : m.wf = true) :
    (d.setFb b m).Canonical := by
  obtain ⟨hx, h0, h1, hp⟩ := h
  cases b
  · exact ⟨hx, hm, h1, hp⟩
  · exact ⟨hx, h0, hm, hp⟩

theorem State.Canonical.pushLine_drv (h : s.Canonical) : (pushLine s).drv.Canonical := by
  obtain ⟨hx, h0, h1, hp⟩ := h.drv
  cases hm : s.cfg.driverMode with
  | framebuffered =>
    rw [pushLine_framebuffered hm]
    exact h.drv.setFb _ (wf_rowsLoop _ (h.fb_wf _))
  | direct =>
    cases hd : s.cfg.useDma with
    | false =>
      rw [pushLine_direct hm hd]
      exact ⟨hx, h0, h1, Panel.wf_stream _ _ _ hp⟩
    | true =>
      rw [pushLine_directDma hm hd]
      exact ⟨Memory.wf_writeRow _ _ hx, h0, h1, hp⟩

theorem State.Canonical.pushLine (h : s.Canonical) : (pushLine s).Canonical :=
  h.of_drv (by simp) (by simp) (by simp) (by simp) (by simp) h.pushLine_drv

theorem State.Canonical.framePhase_drv (h : s.Canonical) : (framePhase s).drv.Canonical := by
  obtain ⟨hx, h0, h1, hp⟩ := h.drv
  cases hd : s.cfg.useDma with
  | false =>
    rw [framePhase_blocking hd]
    simp only [State.toPhase_drv, framePushBlocking, Driver.swap_eq]
    exact ⟨hx, h0, h1, Panel.wf_stream _ _ _ hp⟩
  | true =>
    cases hf : s.dmaInFlight with
    | true => rw [framePhase_skip hf]; exact h.drv
    | false => rw [framePhase_start hd hf]; exact ⟨hx, h0, h1, hp⟩

theorem Driver.Canonical.displayClear {d : Driver} (h : d.Canonical) (P : Params) : (d.displayClear P).Canonical := by
  obtain ⟨hx, h0, h1, hp⟩ := h
  obtain ⟨hfb0, hfb1⟩ := clearBuffers_fb P d
  refine ⟨(congrArg Memory.wf (d.clearBuffers_xbuf P)).trans hx, (congrArg Memory.wf hfb0).trans ?_,
    (congrArg Memory.wf hfb1).trans ?_, Panel.wf_stream _ _ _ hp⟩ <;> split
  · exact wf_fillBuffer P _ h0
  · exact h0
  · exact wf_fillBuffer P _ h1
  · exact h1

theorem State.Canonical.resolvePhase (h : s.Canonical) : (resolvePhase s).Canonical := by
  obtain ⟨h1, h2, h3, h4⟩ := h
  exact ⟨h1, h2, Memory.wf_writeRow _ _ h3, h4⟩

theorem State.Canonical.layoutPhase (h : s.Canonical) (n : Nat) : (layoutPhase n s).Canonical := by
  obtain ⟨h1, h2, h3, h4, h5⟩ := h
  refine ⟨h1, h2, h3, ?_, h5⟩
  show (layoutLine _ _ _ _).wf = true
  rw [layoutLine_eq]
  exact wf_copyLoop _ _ _ h4

theorem State.Canonical.consMove (h : s.Canonical) (hm : ConsMove s t) : t.Canonical := by
  cases hm with
  | empty | pushWait | idleWait | pop | discard | toIdle | toResolve | toAck | ack => exact h
  | resolve => exact h.resolvePhase
  | layout => exact h.layoutPhase _
  | push => exact h.pushLine
  | frame => exact h.of_drv (by simp) (by simp) (by simp) (by simp) (by simp) h.framePhase_drv
  | idle hp ht hf =>
    rw [idlePhase_of_notInFlight hf]
    exact h.of_drv rfl rfl rfl rfl rfl (h.drv.displayClear s.cfg)

theorem State.Canonical.dmaMove (h : s.Canonical) (hm : DmaMove s t) : t.Canonical := by
  obtain ⟨hx, h0, h1, hp⟩ := h.drv
  cases hm with
  | rest | complete => exact h
  | beat => exact h.of_drv rfl rfl rfl rfl rfl ⟨hx, h0, h1, Memory.wf_write _ _ hp⟩

theorem reset_canonical (s : State) : (resetInput s).Canonical :=
  ⟨freeMemory_wf _ _ _ _, freeMemory_wf _ _ _ _, freeMemory_wf _ _ _ _, freeMemory_wf _ _ _ _, freeMemory_wf _ _ _ _,
    freeMemory_wf _ _ _ _, freeMemory_wf _ _ _ _, freeMemory_wf _ _ _ _, freeMemory_wf _ _ _ _⟩

/-- Settles O52: every write of every move keeps the canonical form, and the reset input makes canonical memories. -/
theorem stepKeepsMemoriesCanonical : Obligations.StepKeepsMemoriesCanonical := fun s t hI hstep =>
  step_keeps (I := State.Canonical)
    (fun h => h.of_drv (by simp) (by simp) (by simp) (by simp) (by simp) (by simpa using h.drv))
    (fun h => h.prodMove) (fun h => h.consMove) (fun h => h.dmaMove) (fun {s} _ => reset_canonical s) hI hstep

end Sys2Proof.Machine
end

section
/-! Soundness (20_memory.md R44, 41_compositor.md R113, 10_state.md R26, R27): its parts one after another, each kept
by every move from a sound state. -/

namespace Sys2Proof.Machine

variable {s t : State}

/-- The driver's memories inside their spaces. -/
abbrev Driver.AddressesInside (P : Params) (d : Driver) : Prop :=
  d.xbuf.within P.xbufLen = true ∧ d.fb0.within P.panelN = true ∧ d.fb1.within P.panelN = true ∧
  d.panel.pix.within P.panelN = true

/-- The limits of R27 for a panel. -/
abbrev Panel.WindowInside (P : Params) (p : Panel) : Prop :=
  p.win.x0 ≤ p.win.x1 ∧ p.win.x1 < P.panelW ∧ p.win.y0 ≤ p.win.y1 ∧ p.win.y1 < P.panelH ∧
  p.win.x0 ≤ p.cur.x ∧ p.cur.x ≤ p.win.x1 ∧ p.win.y0 ≤ p.cur.y ∧ p.cur.y ≤ p.win.y1

section
variable (h : s.Sound)
include h

theorem State.Sound.legal : s.cfg.legal = true := h.1
theorem State.Sound.noDebug : s.cfg.debugSetPixel = false := h.2.1
theorem State.Sound.queue : s.chan.q.length ≤ s.cfg.fifoDepth := h.2.2.1
theorem State.Sound.addresses : s.AddressesInside := h.2.2.2.1
theorem State.Sound.phaseFits : s.PhaseFits := h.2.2.2.2.1
theorem State.Sound.transferPlaced : s.TransferPlaced := h.2.2.2.2.2.2
theorem State.Sound.drvAddresses : s.drv.AddressesInside s.cfg := h.addresses.2.2.2.2.2

end

theorem Panel.WindowInside.stream {P : Params} {p : Panel} (h : p.WindowInside P) (us : List Colour) :
    (p.stream P us).WindowInside P := by
  obtain ⟨h1, h2, h3, h4, hcur⟩ := h
  have hend := Panel.stream_cursor_inside (P := P) us hcur
  rw [Panel.WindowInside, Panel.stream_win]
  exact ⟨h1, h2, h3, h4, hend⟩

theorem Panel.WindowInside.within_stream {P : Params} {p : Panel} (h : p.WindowInside P) (us : List Colour)
    (hp : p.pix.within P.panelN = true) : (p.stream P us).pix.within P.panelN = true := by
  obtain ⟨-, h2, -, h4, h5, h6, h7, h8⟩ := h
  exact Panel.stream_within us h2 h4 h5 h6 h7 h8 hp

/-! The addresses (R40, R44). -/

/-- A move that changes the driver only keeps the addresses inside when the driver's memories do. -/
theorem State.AddressesInside.of_drv (h : s.AddressesInside) (hcfg : t.cfg = s.cfg) (hchan : t.chan.stg = s.chan.stg)
    (hprod : t.prod = s.prod) (hline : t.cons.linebuf = s.cons.linebuf) (hout : t.cons.outbuf = s.cons.outbuf)
    (hregs : t.regs = s.regs) (hdrv : t.drv.AddressesInside s.cfg) : t.AddressesInside := by
  obtain ⟨h1, h2, h3, h4, h5, -⟩ := h
  rw [State.AddressesInside, hcfg, hchan, hprod, hline, hout, hregs]
  exact ⟨h1, h2, h3, h4, h5, hdrv⟩

theorem State.AddressesInside.portOp (h : s.AddressesInside) {o : PortOp} (hw : o.wellFormed s.cfg = true) :
    (portOp o s).AddressesInside := by
  obtain ⟨h1, h2, h3, h4, h5, h6⟩ := h
  cases o with
  | enqueue tag data codes =>
    refine ⟨h1, ?_, h3, h4, h5, h6⟩
    show Memory.within s.cfg.srcW (if tag = 1#8 then _ else _) = true
    split
    next ht =>
      have hlen : codes.length = s.cfg.srcW := by simpa [PortOp.wellFormed, ht] using hw
      exact Memory.within_writeRow _ _ (by omega) h2
    next => exact h2
  | cfgPal sub k c => rw [Machine.portOp, cfgPal_eq]; exact ⟨h1, h2, h3, h4, h5, h6⟩
  | cfgScale m =>
    cases hm : scaleOf m with
    | none => rw [Machine.portOp, cfgScale_of_none s hm]; exact ⟨h1, h2, h3, h4, h5, h6⟩
    | some mode => rw [Machine.portOp, cfgScale_of_some s hm]; exact ⟨h1, h2, h3, h4, h5, h6⟩
  | cfgEcm e => rw [Machine.portOp, cfgEcm_eq]; exact ⟨h1, h2, h3, h4, h5, h6⟩
  | cfgEcmTab i c =>
    have hi : s.cfg.ecmSupport = true ∧ i < s.cfg.ecmN := by simpa [PortOp.wellFormed] using hw
    rw [Machine.portOp, cfgEcmTab_eq]
    exact ⟨h1, h2, h3, h4, Memory.within_write c hi.2 h5, h6⟩
  | status => exact ⟨h1, h2, h3, h4, h5, h6⟩

theorem State.AddressesInside.prodMove (h : s.AddressesInside) (hm : ProdMove s t) : t.AddressesInside := by
  cases hm with
  | rest | spin | full | toCopy | toPush | mark | push => exact h
  | op o more hp hg hw => exact State.AddressesInside.portOp (s := s.issued more) h hw
  | poll more =>
    exact h.of_drv (by simp) (by simp) (by simp) (by simp) (by simp) (by simp) (by simpa using h.2.2.2.2.2)
  | copy => exact ⟨Memory.within_writeRow _ _ (by simp) h.1, h.2⟩

theorem Driver.AddressesInside.setFb {P : Params} {d : Driver} (h : d.AddressesInside P) (b : BufId) {m : Memory 16}
    (hm : m.within P.panelN = true) : (d.setFb b m).AddressesInside P := by
  obtain ⟨hx, h0, h1, hp⟩ := h
  cases b
  · exact ⟨hx, hm, h1, hp⟩
  · exact ⟨hx, h0, hm, hp⟩

theorem Driver.AddressesInside.fb {P : Params} {d : Driver} (h : d.AddressesInside P) (b : BufId) :
    (d.fb b).within P.panelN = true := by
  cases b
  · exact h.2.1
  · exact h.2.2.1

/-- The units of a placed line fit `XBUF` (R24, R137). -/
theorem lineUnits_le_xbufLen (hin : placementInside s = true) :
    s.cons.place.outRows * s.cons.place.outW ≤ s.cfg.xbufLen := by
  obtain ⟨-, hw, -, hr, -⟩ := (placementInside_iff s).1 hin
  calc s.cons.place.outRows * s.cons.place.outW ≤ 2 * (2 * s.cfg.srcW) := Nat.mul_le_mul hr hw
    _ = s.cfg.xbufLen := by unfold Params.xbufLen; ring

theorem pushLine_addresses (h : s.drv.AddressesInside s.cfg) (hin : placementInside s = true) :
    (pushLine s).drv.AddressesInside s.cfg := by
  have ⟨hx, h0, h1, hp⟩ := h
  obtain ⟨-, -, -, -, hX, hY⟩ := (placementInside_iff s).1 hin
  cases hm : s.cfg.driverMode with
  | framebuffered =>
    rw [pushLine_framebuffered hm]
    exact Driver.AddressesInside.setFb h _ (within_rowsLoop _ hX hY (h.fb _))
  | direct =>
    cases hd : s.cfg.useDma with
    | false =>
      rw [pushLine_direct hm hd]
      exact ⟨hx, h0, h1, Panel.WindowInside.within_stream (lineWindow_inside hin _) _ hp⟩
    | true =>
      rw [pushLine_directDma hm hd]
      refine ⟨Memory.within_writeRow _ _ ?_ hx, h0, h1, hp⟩
      rw [Nat.zero_add, length_lineUnits]
      exact lineUnits_le_xbufLen hin

theorem framePhase_addresses (h : s.drv.AddressesInside s.cfg) (hl : s.cfg.legal = true) :
    (framePhase s).drv.AddressesInside s.cfg := by
  have ⟨hx, h0, h1, hp⟩ := h
  cases hd : s.cfg.useDma with
  | false =>
    rw [framePhase_blocking hd]
    simp only [State.toPhase_drv, framePushBlocking, Driver.swap_eq]
    exact ⟨hx, h0, h1, Panel.WindowInside.within_stream (Panel.setFullWindow_inside hl _) _ hp⟩
  | true =>
    cases hf : s.dmaInFlight with
    | true => rw [framePhase_skip hf]; exact h
    | false => rw [framePhase_start hd hf]; exact ⟨hx, h0, h1, hp⟩

theorem displayClear_addresses {P : Params} {d : Driver} (h : d.AddressesInside P) (hl : P.legal = true) :
    (d.displayClear P).AddressesInside P := by
  obtain ⟨hx, h0, h1, hp⟩ := h
  obtain ⟨hfb0, hfb1⟩ := clearBuffers_fb P d
  refine ⟨(congrArg (Memory.within _) (d.clearBuffers_xbuf P)).trans hx, (congrArg (Memory.within _) hfb0).trans ?_,
    (congrArg (Memory.within _) hfb1).trans ?_,
    Panel.WindowInside.within_stream (Panel.setFullWindow_inside hl _) _ hp⟩ <;> split
  · exact within_fillBuffer P _ h0
  · exact h0
  · exact within_fillBuffer P _ h1
  · exact h1

theorem ConsMove.addressesInside (hm : ConsMove s t) (hs : s.Sound) : t.AddressesInside := by
  have h := hs.addresses
  cases hm with
  | empty | pushWait | idleWait | pop | discard | toIdle | toResolve | toAck | ack => exact h
  | resolve =>
    obtain ⟨h1, h2, h3, h4⟩ := h
    exact ⟨h1, h2, Memory.within_writeRow _ _ (by simp) h3, h4⟩
  | layout =>
    obtain ⟨h1, h2, h3, h4, h5⟩ := h
    refine ⟨h1, h2, h3, ?_, h5⟩
    show (layoutLine _ _ _ _).within (2 * s.cfg.srcW) = true
    rw [layoutLine_eq]
    exact within_copyLoop _ _ _ (copyBase_bounds _ _).2 h4
  | push hp hl hw hin =>
    exact h.of_drv (by simp) (by simp) (by simp) (by simp) (by simp) (by simp)
      (pushLine_addresses hs.drvAddresses hin)
  | frame =>
    exact h.of_drv (by simp) (by simp) (by simp) (by simp) (by simp) (by simp)
      (framePhase_addresses hs.drvAddresses hs.legal)
  | idle hp ht hf =>
    rw [idlePhase_of_notInFlight hf]
    exact h.of_drv rfl rfl rfl rfl rfl rfl (displayClear_addresses hs.drvAddresses hs.legal)

/-! The phase and the word in `CMD` (R83, R84). -/

theorem State.PhaseFits.of_eq (h : s.PhaseFits) (hcfg : t.cfg = s.cfg) (hcons : t.cons = s.cons) : t.PhaseFits := by
  have hplace : placementInside t = placementInside s := by simp only [placementInside, hcfg, hcons]
  rw [State.PhaseFits, hcfg, hcons, hplace]
  exact h

theorem State.PhaseFits.index_of_resolve (h : s.PhaseFits) (hp : s.cons.cphase = .resolve) :
    lineIndexOf s.cons.cmd < s.cfg.srcH := by
  rw [State.PhaseFits, hp] at h
  exact h.2

theorem State.PhaseFits.index_of_layout (h : s.PhaseFits) (hp : s.cons.cphase = .layout) :
    lineIndexOf s.cons.cmd < s.cfg.srcH := by
  rw [State.PhaseFits, hp] at h
  exact h.2

theorem State.PhaseFits.placed_of_push (h : s.PhaseFits) (hp : s.cons.cphase = .push) : placementInside s = true := by
  rw [State.PhaseFits, hp] at h
  exact h.2.2

theorem State.PhaseFits.idleTag (h : s.PhaseFits) (hp : s.cons.cphase = .idle) : tagOf s.cons.cmd = 2#8 := by
  rw [State.PhaseFits, hp] at h
  exact h

theorem State.PhaseFits.isLine (h : s.PhaseFits) (hp : s.cons.cphase.ofLine = true) : isLine s.cons.cmd = true := by
  rw [State.PhaseFits] at h
  cases hc : s.cons.cphase with
  | pop | dispatch | idle => rw [hc] at hp; cases hp
  | ack => rw [hc] at h; exact h
  | resolve | layout | push | frame => rw [hc] at h; exact h.1

theorem phaseFits_of_pop (hp : t.cons.cphase = .pop) : t.PhaseFits := by rw [State.PhaseFits, hp]; trivial

theorem phaseFits_of_ack (hp : t.cons.cphase = .ack) (hl : Machine.isLine t.cons.cmd = true) : t.PhaseFits := by
  rw [State.PhaseFits, hp]; exact hl

theorem ConsMove.phaseFits (hm : ConsMove s t) (hs : s.Sound) : t.PhaseFits := by
  have h := hs.phaseFits
  cases hm with
  | empty | pushWait | idleWait => exact h
  | pop => trivial
  | discard | ack => exact phaseFits_of_pop rfl
  | toIdle hp ht => exact ht
  | toResolve hp hl hn => exact ⟨hl, hn⟩
  | toAck hp hl => exact phaseFits_of_ack rfl hl
  | resolve hp hl => exact ⟨hl, h.index_of_resolve hp⟩
  | layout hp hl =>
    have hn := h.index_of_layout hp
    exact ⟨hl, hn, placementInside_of_placementOf (s := layoutPhase (lineIndexOf s.cons.cmd) s) hs.legal hn rfl⟩
  | push hp hl =>
    rcases List.mem_pair.1 (afterPush_mem s.cfg (lineIndexOf s.cons.cmd)) with he | he
    · rw [he, State.PhaseFits]
      exact ⟨by simpa using hl, by simpa using afterPush_frame he⟩
    · rw [he]
      exact phaseFits_of_ack rfl (by simpa using hl)
  | frame hp hl => exact phaseFits_of_ack rfl (by simpa using hl)
  | idle hp ht hf => exact phaseFits_of_pop (idlePhase_cphase s _ hf)

/-! The window and the cursor (R27). -/

theorem pushLine_windowInside (h : s.drv.panel.WindowInside s.cfg) (hin : placementInside s = true) :
    (pushLine s).drv.panel.WindowInside s.cfg := by
  cases hm : s.cfg.driverMode with
  | framebuffered => rwa [pushLine_framebuffered hm, pushFb, Driver.setFb_panel]
  | direct =>
    cases hd : s.cfg.useDma with
    | false =>
      rw [pushLine_direct hm hd]
      exact Panel.WindowInside.stream (lineWindow_inside hin _) _
    | true =>
      rw [pushLine_directDma hm hd]
      exact lineWindow_inside hin _

theorem framePhase_windowInside (h : s.drv.panel.WindowInside s.cfg) (hl : s.cfg.legal = true) :
    (framePhase s).drv.panel.WindowInside s.cfg := by
  cases hd : s.cfg.useDma with
  | false =>
    rw [framePhase_blocking hd, State.toPhase_drv, framePushBlocking, Driver.swap_panel]
    exact Panel.WindowInside.stream (Panel.setFullWindow_inside hl _) _
  | true =>
    cases hf : s.dmaInFlight with
    | true => rwa [framePhase_skip hf]
    | false =>
      rw [framePhase_start hd hf]
      exact Panel.setFullWindow_inside hl _

theorem ConsMove.windowInside (hm : ConsMove s t) (hs : s.Sound) : t.WindowInside := by
  have h := hs.windowInside
  have hcfg := hm.unchanged.1
  show t.drv.panel.WindowInside t.cfg
  rw [hcfg]
  cases hm with
  | empty | pushWait | idleWait | pop | discard | toIdle | toResolve | toAck | resolve | layout | ack => exact h
  | push hp hl hw hin => exact pushLine_windowInside h hin
  | frame => exact framePhase_windowInside h hs.legal
  | idle hp ht hf =>
    rw [idlePhase_of_notInFlight hf]
    exact Panel.WindowInside.stream (Panel.setFullWindow_inside hs.legal _) _

/-! The transfer (R26, R133). -/

/-- With the DMA registers unchanged and no transfer in flight only the limits of R26 are asked. -/
theorem State.TransferPlaced.of_rest (h : s.TransferPlaced) (hcfg : t.cfg = s.cfg) (hdma : t.drv.dma = s.drv.dma)
    (hf : s.dmaInFlight = false) : t.TransferPlaced := by
  obtain ⟨h1, h2, h3, -⟩ := h
  refine ⟨?_, ?_, ?_, fun hf' => ?_⟩
  · rwa [hdma]
  · rwa [hdma, hcfg]
  · rwa [hdma]
  · rw [dmaInFlight_congr hcfg hdma, hf] at hf'
    cases hf'

/-- At the start of a transfer the next unit goes to the window's origin. -/
theorem Window.cell_start (w : Window) (len : Nat) : w.cell (if 0 = len then 0 else 0) = ⟨w.x0, w.y0⟩ := by
  rw [ite_self, Window.cell_zero]

theorem pushLine_transferPlaced (h : s.TransferPlaced) (hf : s.dmaInFlight = false) (hin : placementInside s = true) :
    (pushLine s).TransferPlaced := by
  obtain ⟨hw, -, hr, -⟩ := (placementInside_iff s).1 hin
  cases hm : s.cfg.driverMode with
  | framebuffered =>
    rw [pushLine_framebuffered hm]
    exact h.of_rest rfl (pushFb_dma s) hf
  | direct =>
    cases hd : s.cfg.useDma with
    | false =>
      rw [pushLine_direct hm hd]
      exact h.of_rest rfl rfl hf
    | true =>
      obtain ⟨hwidth, hheight⟩ := lineWindow_size s s.drv.panel hw hr
      rw [pushLine_directDma hm hd]
      refine ⟨Nat.mul_pos hr hw, placed_units_le hin, Nat.zero_le _, fun _ => ⟨?_, lineUnits_le_xbufLen hin, ?_⟩⟩
      · show (lineWindow s s.drv.panel).win.width * (lineWindow s s.drv.panel).win.height = _
        rw [hwidth, hheight]
        exact Nat.mul_comm _ _
      · exact (Window.cell_start (lineWindow s s.drv.panel).win _).symm

theorem framePhase_transferPlaced (h : s.TransferPlaced) (hf : s.dmaInFlight = false) (hl : s.cfg.legal = true) :
    (framePhase s).TransferPlaced := by
  obtain ⟨hW, hH⟩ := panel_pos hl
  cases hd : s.cfg.useDma with
  | false =>
    rw [framePhase_blocking hd]
    exact h.of_rest rfl (Driver.swap_dma _ _) hf
  | true =>
    obtain ⟨-, -, hsize⟩ := fullWindow_size s.cfg hW hH s.drv.panel
    rw [framePhase_start hd hf]
    exact ⟨Nat.mul_pos hW hH, le_rfl, Nat.zero_le _, fun _ => ⟨hsize, le_rfl,
      (Window.cell_start (s.drv.panel.setFullWindow s.cfg).win _).symm⟩⟩

theorem ConsMove.transferPlaced (hm : ConsMove s t) (hs : s.Sound) : t.TransferPlaced := by
  have h := hs.transferPlaced
  cases hf : s.dmaInFlight with
  | true =>
    obtain ⟨hpanel, hdma⟩ := hm.of_inFlight hf
    have hcfg := hm.unchanged.1
    rw [State.TransferPlaced, dmaInFlight_congr hcfg hdma, hcfg, hdma, hpanel]
    exact h
  | false =>
    cases hm with
    | empty | pushWait | idleWait | pop | discard | toIdle | toResolve | toAck | resolve | layout | ack => exact h
    | push hp hl hw hin => exact pushLine_transferPlaced h hf hin
    | frame => exact framePhase_transferPlaced h hf hs.legal
    | idle => exact h.of_rest (by simp) (by simp) hf

/-- A beat moves the cursor to where the next unit goes (R128, R134). -/
theorem dmaBeat_transferPlaced (hs : s.Sound) (hf : s.dmaInFlight = true) (hp : s.drv.dma.pos < s.drv.dma.len) :
    (dmaBeat s).TransferPlaced := by
  obtain ⟨h1, h2, -, -⟩ := hs.transferPlaced
  obtain ⟨hsize, hsrc, -, hcur⟩ := hs.transfer hf
  obtain ⟨hx, -, hy, -⟩ := hs.windowInside
  rw [if_neg hp.ne] at hcur
  refine ⟨h1, h2, hp, fun _ => ⟨hsize, hsrc, ?_⟩⟩
  show s.drv.panel.win.advance s.drv.panel.cur =
    s.drv.panel.win.cell (if s.drv.dma.pos + 1 = s.drv.dma.len then 0 else s.drv.dma.pos + 1)
  rw [hcur]
  split
  next hlast => exact Window.advance_last hx hy (hlast.trans hsize.symm)
  next hmore => exact Window.advance_cell hx hy (by omega)

/-! The moves and the reset input, all parts together. -/

theorem State.Sound.prodMove (hs : s.Sound) (hm : ProdMove s t) : t.Sound := by
  obtain ⟨hcfg, hcons, hdrv⟩ := hm.unchanged
  refine ⟨hcfg ▸ hs.legal, hcfg ▸ hs.noDebug, ?_, hs.addresses.prodMove hm, hs.phaseFits.of_eq hcfg hcons, ?_, ?_⟩
  · cases hm with
    | push hp hq => simpa using hq
    | _ => simpa using hs.queue
  · rw [State.WindowInside, hcfg, hdrv]
    exact hs.windowInside
  · rw [State.TransferPlaced, dmaInFlight_congr hcfg (by rw [hdrv]), hcfg, hdrv]
    exact hs.transferPlaced

theorem State.Sound.consMove (hs : s.Sound) (hm : ConsMove s t) : t.Sound := by
  have hcfg := hm.unchanged.1
  refine ⟨hcfg ▸ hs.legal, hcfg ▸ hs.noDebug, ?_, hm.addressesInside hs, hm.phaseFits hs, hm.windowInside hs,
    hm.transferPlaced hs⟩
  have hq := hs.queue
  rw [hcfg]
  rcases hm.queue with he | ⟨-, he, -⟩
  · rwa [he]
  · rw [he, List.length_cons] at hq
    exact Nat.le_of_succ_le hq

theorem State.Sound.dmaMove (hs : s.Sound) (hm : DmaMove s t) : t.Sound := by
  have ⟨h1, h2, h3, h4, h5, h6, h7⟩ := hs
  cases hm with
  | rest => exact hs
  | complete =>
    exact ⟨h1, h2, h3, h4, h5, h6, h7.1, h7.2.1, h7.2.2.1,
      fun hf => by simp [State.dmaInFlight, dmaComplete] at hf⟩
  | beat hf hp hb =>
    obtain ⟨hx, h0, hfb1, hpix⟩ := hs.drvAddresses
    obtain ⟨hcx, hcy⟩ := cursor_inPanel h6
    exact ⟨h1, h2, h3, h4.of_drv rfl rfl rfl rfl rfl rfl
      ⟨hx, h0, hfb1, Memory.within_write _ (pixelAddr_lt hcx hcy) hpix⟩, h5, windowInside_dmaBeat h6,
      dmaBeat_transferPlaced hs hf hp⟩

/-- The window and the cursor that `reset` leaves meet the limits of R27 (R31). -/
theorem freePanel_windowInside {P : Params} (hl : P.legal = true) (d : Nat) : (freePanel P d).WindowInside P := by
  obtain ⟨hW, hH⟩ := panel_pos hl
  obtain ⟨-, hx0⟩ := freeBetween_bounds d 18 0 (Nat.zero_le (P.panelW - 1))
  obtain ⟨-, hy0⟩ := freeBetween_bounds d 18 1 (Nat.zero_le (P.panelH - 1))
  obtain ⟨hx01, hx1⟩ := freeBetween_bounds d 18 2 hx0
  obtain ⟨hy01, hy1⟩ := freeBetween_bounds d 18 3 hy0
  obtain ⟨hcx0, hcx1⟩ := freeBetween_bounds d 18 4 hx01
  obtain ⟨hcy0, hcy1⟩ := freeBetween_bounds d 18 5 hy01
  exact ⟨hx01, by exact hx1.trans_lt (by omega), hy01, by exact hy1.trans_lt (by omega), hcx0, hcx1, hcy0, hcy1⟩

theorem reset_sound (hs : s.Sound) : (resetInput s).Sound := by
  obtain ⟨hW, hH⟩ := panel_pos hs.legal
  obtain ⟨hlen1, hlenN⟩ := freeBetween_bounds s.env.draws 16 0 (show 1 ≤ s.cfg.panelN from Nat.mul_pos hW hH)
  obtain ⟨-, hpos⟩ := freeBetween_bounds s.env.draws 17 0 (Nat.zero_le (freeBetween s.env.draws 16 0 1 s.cfg.panelN))
  refine ⟨hs.legal, hs.noDebug, Nat.zero_le _, ?_, trivial, freePanel_windowInside hs.legal _, hlen1, hlenN, hpos,
    fun hf => by rw [reset_dmaInFlight] at hf; cases hf⟩
  exact ⟨freeMemory_within _ _ _ _, freeMemory_within _ _ _ _, freeMemory_within _ _ _ _, freeMemory_within _ _ _ _,
    freeMemory_within _ _ _ _, freeMemory_within _ _ _ _, freeMemory_within _ _ _ _, freeMemory_within _ _ _ _,
    freeMemory_within _ _ _ _⟩

/-- Taking a turn touches the model's own fields only. -/
theorem turnTaken_eq (s : State) : s.turnTaken = { s with env := s.turnTaken.env } := by
  unfold State.turnTaken
  split <;> rfl

theorem State.Sound.turnTaken (hs : s.Sound) : s.turnTaken.Sound := by
  rw [turnTaken_eq]
  exact hs

/-- Settles O51: soundness is kept by each agent's moves and met by what the reset input leaves. -/
theorem stepKeepsTheStateSound : Obligations.StepKeepsTheStateSound := fun _ _ hI hstep =>
  step_keeps (I := State.Sound) (fun h => h.turnTaken) (fun h => h.prodMove) (fun h => h.consMove)
    (fun h => h.dmaMove) reset_sound hI hstep

end Sys2Proof.Machine
end

section
/-! What soundness gives: the passed positions of a transfer (42_display_driver.md R147),
no fault (60_exceptions.md R170), and all the invariants at reset (10_state.md R31). -/

namespace Sys2Proof.Machine

variable {s t : State}

/-- What a transfer has delivered is a matter of the parameters, the DMA registers, the panel and the
transfer's source. -/
theorem State.TransferDelivered.of_eq (h : s.TransferDelivered) (hcfg : t.cfg = s.cfg) (hdma : t.drv.dma = s.drv.dma)
    (hpanel : t.drv.panel = s.drv.panel)
    (hsrc : t.drv.source s.drv.dma.src = s.drv.source s.drv.dma.src) : t.TransferDelivered := by
  simp only [State.TransferDelivered, State.panelAt, State.sourceUnit, dmaInFlight_congr hcfg hdma, hdma, hpanel,
    hsrc, hcfg]
  exact h

/-- The consumer leaves the DMA registers or starts a transfer at its first unit (R133). -/
theorem ConsMove.dma (hm : ConsMove s t) : t.drv.dma = s.drv.dma ∨ t.drv.dma.pos = 0 := by
  cases hm with
  | push => exact (pushLine_dma s).imp_right fun h => congrArg Dma.pos h.2
  | frame => exact (framePhase_dma s).imp_right fun h => congrArg Dma.pos h
  | _ => left; simp

theorem State.TransferDelivered.consMove (h : s.TransferDelivered) (hg : s.Gated) (hl : s.cfg.legal = true)
    (hm : ConsMove s t) : t.TransferDelivered := by
  have hcfg := hm.unchanged.1
  cases hf : s.dmaInFlight with
  | true =>
    obtain ⟨hpanel, hdma⟩ := hm.of_inFlight hf
    exact h.of_eq hcfg hdma hpanel (hm.source_of_inFlight hg hl hf)
  | false =>
    intro hf' j hj
    rcases hm.dma with he | he
    · rw [dmaInFlight_congr hcfg he, hf] at hf'
      cases hf'
    · rw [he] at hj
      exact absurd hj (Nat.not_lt_zero j)

/-- A beat delivers one more unit (R134). -/
theorem State.TransferDelivered.dmaMove (h : s.TransferDelivered) (hs : s.Sound) (hc : s.Canonical)
    (hm : DmaMove s t) : t.TransferDelivered := by
  cases hm with
  | rest => exact h
  | complete => exact fun hf => by simp [State.dmaInFlight, dmaComplete] at hf
  | beat hf hp hb =>
    intro _ j hj
    have hone : afterBeats s 1 = dmaBeat s := (afterBeats_succ 0).symm.trans afterBeats_zero
    have hd := afterBeats_delivered hs hc h hf hp j hj
    rw [hone] at hd
    rw [sourceUnit_dmaBeat]
    exact hd

/-- Settles O45: the producer touches no part of a transfer, the consumer none of one in flight, and a beat writes the
next position. -/
theorem stepKeepsTheDeliveredPrefix : Obligations.StepKeepsTheDeliveredPrefix := by
  intro s t hs hc hg h hstep
  have h' : s.turnTaken.TransferDelivered := by rw [turnTaken_eq]; exact h
  rcases step_moves hstep with ⟨-, hm⟩ | ⟨-, hm⟩ | ⟨-, hm⟩ | ⟨-, rfl⟩
  · obtain ⟨hcfg, -, hdrv⟩ := hm.unchanged
    exact h'.of_eq hcfg (by rw [hdrv]) (by rw [hdrv]) (by rw [hdrv])
  · exact h'.consMove (by rw [turnTaken_eq]; exact hg) hs.turnTaken.legal hm
  · exact h'.dmaMove hs.turnTaken (by rw [turnTaken_eq]; exact hc) hm
  · intro hf
    rw [reset_dmaInFlight] at hf
    cases hf

/-! No fault (R170). -/

/-- A producer turn answers a next state, unless the next item is no operation of this configuration. -/
theorem prodTurn_total (s : State) : (∃ t, prodTurn s = .next t) ∨
    (prodTurn s = .refused .malformedPortOp ∧ s.prod.pphase = .idle ∧
      ∃ o more, s.env.prog = .op o :: more ∧ o.wellFormed s.cfg = false) := by
  cases hp : s.prod.pphase with
  | wait => exact .inl ⟨_, prodTurn_of_wait hp⟩
  | copy => exact .inl ⟨_, prodTurn_of_copy hp⟩
  | mark => exact .inl ⟨_, prodTurn_of_mark hp⟩
  | push => exact .inl ⟨_, prodTurn_of_push hp⟩
  | idle =>
    cases hg : s.env.prog with
    | nil => exact .inl ⟨_, prodTurn_of_nil hp hg⟩
    | cons item more =>
      cases item with
      | waitIdle => exact .inl ⟨_, prodTurn_of_waitIdle hp hg⟩
      | op o =>
        cases hw : o.wellFormed s.cfg with
        | true => exact .inl ⟨_, prodTurn_of_op hp hg hw⟩
        | false => exact .inr ⟨prodTurn_of_malformed hp hg hw, rfl, o, more, rfl, hw⟩

theorem consTurn_of_line (hp : s.cons.cphase ≠ .pop) (hl : isLine s.cons.cmd = true) :
    consTurn s = exec (.lcdLine (dataOf s.cons.cmd)) s :=
  (if_neg hp).trans (runCommand_of_command (decode_of_isLine hl))

theorem consTurn_of_idleTag (hp : s.cons.cphase ≠ .pop) (ht : tagOf s.cons.cmd = 2#8) :
    consTurn s = exec (.idleSet (dataOf s.cons.cmd)) s :=
  (if_neg hp).trans (runCommand_of_command (decode_of_idleTag ht))

theorem consTurn_dispatch_total (hp : s.cons.cphase = .dispatch) (hd : s.cfg.debugSetPixel = false) :
    ∃ t, consTurn s = .next t := by
  have hne : s.cons.cphase ≠ .pop := by rw [hp]; decide
  by_cases h1 : tagOf s.cons.cmd = 1#8
  · rw [consTurn_of_line hne (by simp [isLine, h1])]
    rcases Nat.lt_or_ge (dataOf s.cons.cmd).toNat s.cfg.srcH with hn | hn
    · exact ⟨_, exec_line_dispatch hp hn⟩
    · exact ⟨_, exec_line_dispatch_outside hp hn⟩
  · by_cases h2 : tagOf s.cons.cmd = 2#8
    · rw [consTurn_of_idleTag hne h2]
      exact ⟨_, exec_idleSet_dispatch hp _⟩
    · exact ⟨_, (if_neg hne).trans (runCommand_discard hp hd h1 h2)⟩

theorem pushPhase_total (hin : placementInside s = true) (n : Nat) : ∃ t, pushPhase n s = .next t := by
  cases hw : pushWaits s <;> simp [pushPhase, hw, hin]

/-- The meaning of a line answers in each of its phases past the dispatch. -/
theorem exec_line_total {n : Byte} (hp : s.cons.cphase.ofLine = true)
    (hin : s.cons.cphase = .push → placementInside s = true) : ∃ t, exec (.lcdLine n) s = .next t := by
  cases hc : s.cons.cphase with
  | pop | dispatch | idle => rw [hc] at hp; cases hp
  | resolve => exact ⟨_, exec_line_resolve hc n⟩
  | layout => exact ⟨_, exec_line_layout hc n⟩
  | push => rw [exec_push hc]; exact pushPhase_total (hin hc) _
  | frame => exact ⟨_, exec_frame hc⟩
  | ack => exact ⟨_, exec_line_ack hc n⟩

theorem State.Sound.consTurn_total (hs : s.Sound) : ∃ t, consTurn s = .next t := by
  have hfits := hs.phaseFits
  cases hline : s.cons.cphase.ofLine with
  | true =>
    rw [consTurn_of_line (fun hc => by rw [hc] at hline; cases hline) (hfits.isLine hline)]
    exact exec_line_total hline hfits.placed_of_push
  | false =>
    cases hc : s.cons.cphase with
    | resolve | layout | push | frame | ack => rw [hc] at hline; cases hline
    | pop => exact ⟨_, consTurn_of_pop hc⟩
    | dispatch => exact consTurn_dispatch_total hc hs.noDebug
    | idle =>
      rw [consTurn_of_idleTag (by rw [hc]; decide) (hfits.idleTag hc)]
      exact ⟨_, exec_idle hc _⟩

theorem State.Sound.dmaTurn_total (hs : s.Sound) : ∃ t, dmaTurn s = .next t := by
  cases hf : s.dmaInFlight with
  | false => exact ⟨_, dmaTurn_of_rest hf⟩
  | true =>
    rcases Nat.lt_or_ge s.drv.dma.pos s.drv.dma.len with hp | hp
    · exact ⟨_, hs.dmaTurn_beat hf hp⟩
    · exact ⟨_, dmaTurn_complete hf hp⟩

/-- Settles O50: the phase fits the command and every address is inside, so only a malformed operation stops. -/
theorem noStepOfASoundStateFaults : Obligations.NoStepOfASoundStateFaults := by
  intro s hs
  rw [step_eq_agentTurn hs.legal hs.noDebug]
  cases hx : s.turn with
  | cons => exact .inl hs.turnTaken.consTurn_total
  | dma => exact .inl hs.turnTaken.dmaTurn_total
  | reset => exact .inl ⟨_, rfl⟩
  | prod =>
    refine (prodTurn_total s.turnTaken).imp_right ?_
    rintro ⟨hr, hp, o, more, hg, hw⟩
    exact ⟨hr, rfl, by simpa using hp, o, more, by simpa using hg, by simpa using hw⟩

/-- Settles O53: the fields of the reset state, with the limits that legal parameters give. -/
theorem resetStateMeetsTheInvariants : Obligations.ResetStateMeetsTheInvariants := by
  intro P hl hd
  obtain ⟨hW, hH⟩ := panel_pos hl
  have hf : (State.resetWith P).dmaInFlight = false := Bool.and_false _
  have hno : ∀ {p : Prop}, (State.resetWith P).dmaInFlight = true → p := fun h => by rw [hf] at h; cases h
  refine ⟨⟨rfl, rfl, rfl, rfl, hf⟩, ⟨rfl, by simp [State.resetWith], by simp [State.resetWith],
    by simp [State.resetWith, CPhase.ofLine]⟩, ⟨rfl, rfl, rfl, rfl, rfl, rfl, rfl, rfl, rfl⟩, ?_,
    ⟨fun _ => rfl, by simp [State.resetWith], hno⟩, fun _ _ _ => hf, hno, rfl⟩
  exact ⟨hl, hd, Nat.zero_le _, ⟨rfl, rfl, rfl, rfl, rfl, rfl, rfl, rfl, rfl⟩, trivial,
    ⟨le_rfl, hW, le_rfl, hH, le_rfl, le_rfl, le_rfl, le_rfl⟩, le_rfl, Nat.mul_pos hW hH, Nat.zero_le _, hno⟩

end Sys2Proof.Machine
end

section
/-! Turns that do not look at a part of the state: the producer at the driver (70_reset_and_hazards.md R209), and
every agent at `IDLE_MODE` (10_state.md R23). -/

namespace Sys2Proof.Machine

/-- `s` with the driver `d`. -/
def State.withDrv (s : State) (d : Driver) : State := { s with drv := d }

/-- `s` with the idle mode `m`. -/
def State.withIdle (s : State) (m : Byte) : State := { s with drv := { s.drv with idleMode := m } }

section
variable (s : State) (d : Driver)

theorem waitPhase_withDrv : waitPhase (s.withDrv d) = (waitPhase s).withDrv d := by
  cases hb : s.chan.busy with
  | true => rw [waitPhase_of_busy hb, waitPhase_of_busy (s := s.withDrv d) hb]
  | false =>
    by_cases ht : tagOf s.prod.pcmd = 1#8
    · rw [waitPhase_of_line hb ht, waitPhase_of_line (s := s.withDrv d) hb ht]; rfl
    · rw [waitPhase_of_other hb ht, waitPhase_of_other (s := s.withDrv d) hb ht]; rfl

theorem pushWordPhase_withDrv : pushWordPhase (s.withDrv d) = (pushWordPhase s).withDrv d := by
  rcases Nat.lt_or_ge s.chan.q.length s.cfg.fifoDepth with hq | hq
  · rw [pushWordPhase_of_room hq, pushWordPhase_of_room (s := s.withDrv d) hq]; rfl
  · rw [pushWordPhase_of_full hq, pushWordPhase_of_full (s := s.withDrv d) hq]

theorem portOp_withDrv (o : PortOp) : portOp o (s.withDrv d) = (portOp o s).withDrv d := by
  cases o with
  | enqueue | status => rfl
  | cfgPal => simp only [portOp, cfgPal_eq]; rfl
  | cfgScale m =>
    cases hm : scaleOf m with
    | none => simp only [portOp, cfgScale_of_none _ hm]
    | some mode => simp only [portOp, cfgScale_of_some _ hm]; rfl
  | cfgEcm => simp only [portOp, cfgEcm_eq]; rfl
  | cfgEcmTab => simp only [portOp, cfgEcmTab_eq]; rfl

theorem pollOnce_withDrv (more : List ProgItem) : pollOnce more (s.withDrv d) = (pollOnce more s).withDrv d := by
  have hb : (s.withDrv d).loadBusy = s.loadBusy := rfl
  unfold pollOnce
  rw [hb]
  cases s.loadBusy <;> rfl

/-- The producer does not look at the driver and leaves it as it is (R10). -/
theorem prodTurn_withDrv : prodTurn (s.withDrv d) = mapNext (fun t => t.withDrv d) (prodTurn s) := by
  cases hp : s.prod.pphase with
  | wait =>
    rw [prodTurn_of_wait hp, prodTurn_of_wait (s := s.withDrv d) hp, waitPhase_withDrv]; rfl
  | copy => rw [prodTurn_of_copy hp, prodTurn_of_copy (s := s.withDrv d) hp]; rfl
  | mark => rw [prodTurn_of_mark hp, prodTurn_of_mark (s := s.withDrv d) hp]; rfl
  | push =>
    rw [prodTurn_of_push hp, prodTurn_of_push (s := s.withDrv d) hp, pushWordPhase_withDrv]; rfl
  | idle =>
    cases hg : s.env.prog with
    | nil => rw [prodTurn_of_nil hp hg, prodTurn_of_nil (s := s.withDrv d) hp hg]; rfl
    | cons item more =>
      cases item with
      | waitIdle =>
        rw [prodTurn_of_waitIdle hp hg, prodTurn_of_waitIdle (s := s.withDrv d) hp hg, pollOnce_withDrv]; rfl
      | op o =>
        cases hw : o.wellFormed s.cfg with
        | true =>
          rw [prodTurn_of_op hp hg hw, prodTurn_of_op (s := s.withDrv d) hp hg hw]
          exact congrArg _ (portOp_withDrv (s.issued more) d o)
        | false => rw [prodTurn_of_malformed hp hg hw, prodTurn_of_malformed (s := s.withDrv d) hp hg hw]; rfl

end

/-- The DMA engine looks at the parameters and the driver only and writes the driver only (R10). -/
theorem dmaTurn_of_cfg_drv {s a b : State} (hcfg : a.cfg = s.cfg) (hdrv : a.drv = s.drv) (h : dmaTurn s = .next b) :
    dmaTurn a = .next (a.withDrv b.drv) := by
  have hf : a.dmaInFlight = s.dmaInFlight := dmaInFlight_congr hcfg (by rw [hdrv])
  cases dmaMove_of_next h with
  | rest hr => rw [dmaTurn_of_rest (hf.trans hr), ← hdrv]; rfl
  | beat hr hp hb =>
    have hb' : beatInside a = true := by rw [← hb]; simp only [beatInside, hcfg, hdrv]
    rw [dmaTurn, if_pos (hf.trans hr), if_pos (by rwa [hdrv]), if_pos hb']
    simp only [dmaBeat, State.withDrv, hcfg, hdrv]
  | complete hr hp =>
    rw [dmaTurn_complete (hf.trans hr) (by rwa [hdrv])]
    simp only [dmaComplete, State.withDrv, hdrv]

/-- Settles O58: the producer's turn leaves the driver and does not look at it, the DMA engine's looks at nothing
else that the producer writes. -/
theorem producerAndDmaStepsCommute : Obligations.ProducerAndDmaStepsCommute := by
  intro s a b ha hb
  obtain ⟨hcfg, -, hdrv⟩ := (prodMove_of_next ha).unchanged
  obtain ⟨hbcfg, hchan, hprod, hcons, hregs, henv, -⟩ := (dmaMove_of_next hb).unchanged
  have hsb : b = s.withDrv b.drv := by
    rw [State.withDrv, ← hbcfg, ← hchan, ← hprod, ← hcons, ← hregs, ← henv]
  refine ⟨a.withDrv b.drv, dmaTurn_of_cfg_drv hcfg hdrv hb, ?_⟩
  rw [hsb, prodTurn_withDrv, ha]
  rfl

/-- The second outcome is the first with, in a next state, another idle mode or the same. -/
def AgreeButIdle (o o' : Host.Outcome State Fault Refusal) : Prop :=
  ∃ f : State → State, o' = mapNext f o ∧ ∀ t, o = .next t → (f t).withIdle t.drv.idleMode = t

section
variable (s : State) (m : Byte)

theorem agreeButIdle_of_eq {o o' : Host.Outcome State Fault Refusal} (h : o' = o) : AgreeButIdle o o' :=
  ⟨id, by rw [h]; cases o <;> rfl, fun _ _ => rfl⟩

theorem agreeButIdle_of_withIdle {o o' : Host.Outcome State Fault Refusal}
    (h : o' = mapNext (fun t => t.withIdle m) o) : AgreeButIdle o o' := ⟨_, h, fun _ _ => rfl⟩

theorem prodTurn_agreeButIdle : AgreeButIdle (prodTurn s) (prodTurn (s.withIdle m)) := by
  refine ⟨_, prodTurn_withDrv s { s.drv with idleMode := m }, fun t ht => ?_⟩
  have hdrv := (prodMove_of_next ht).unchanged.2.2
  rw [State.withDrv, ← hdrv]
  rfl

theorem dmaTurn_withIdle : dmaTurn (s.withIdle m) = mapNext (fun t => t.withIdle m) (dmaTurn s) := by
  have hf : (s.withIdle m).dmaInFlight = s.dmaInFlight := rfl
  have hb : beatInside (s.withIdle m) = beatInside s := rfl
  have hp : (s.withIdle m).drv.dma = s.drv.dma := rfl
  have hbeat : dmaBeat (s.withIdle m) = (dmaBeat s).withIdle m := by
    have hsrc : Driver.source (s.withIdle m).drv s.drv.dma.src = s.drv.source s.drv.dma.src := by
      rcases s.drv.dma.src with _ | b
      · rfl
      · cases b <;> rfl
    simp only [dmaBeat, hp, hsrc]
    rfl
  simp only [dmaTurn, hf, hb, hp, hbeat]
  split
  · split
    · split <;> rfl
    · rfl
  · rfl

theorem noEffect_withIdle : noEffect (s.withIdle m) = mapNext (fun t => t.withIdle m) (noEffect s) := by
  have hp : (s.withIdle m).cons.cphase = s.cons.cphase := rfl
  cases hc : s.cons.cphase <;> simp only [noEffect, hp, hc] <;> rfl

theorem setFb_withIdle (d : Driver) (b : BufId) (mem : Memory 16) :
    ({ d with idleMode := m } : Driver).setFb b mem = { d.setFb b mem with idleMode := m } := by cases b <;> rfl

theorem fb_withIdle (d : Driver) (b : BufId) : ({ d with idleMode := m } : Driver).fb b = d.fb b := by cases b <;> rfl

theorem pushLine_withIdle : pushLine (s.withIdle m) = (pushLine s).withIdle m := by
  cases hm : s.cfg.driverMode with
  | framebuffered =>
    rw [pushLine_framebuffered hm, pushLine_framebuffered (s := s.withIdle m) hm]
    simp only [pushFb, State.withIdle, fb_withIdle, setFb_withIdle]
    rfl
  | direct =>
    cases hd : s.cfg.useDma with
    | true => rw [pushLine_directDma hm hd, pushLine_directDma (s := s.withIdle m) hm hd]; rfl
    | false => rw [pushLine_direct hm hd, pushLine_direct (s := s.withIdle m) hm hd]; rfl

theorem pushPhase_withIdle (n : Nat) :
    pushPhase n (s.withIdle m) = mapNext (fun t => t.withIdle m) (pushPhase n s) := by
  have hw : pushWaits (s.withIdle m) = pushWaits s := rfl
  have hin : placementInside (s.withIdle m) = placementInside s := rfl
  simp only [pushPhase, hw, hin, pushLine_withIdle]
  split
  · rfl
  · split <;> rfl

theorem framePhase_withIdle : framePhase (s.withIdle m) = (framePhase s).withIdle m := by
  cases hd : s.cfg.useDma with
  | false =>
    rw [framePhase_blocking hd, framePhase_blocking (s := s.withIdle m) hd]
    simp only [framePushBlocking, Driver.swap_eq, State.withIdle, fb_withIdle]
    rfl
  | true =>
    cases hf : s.dmaInFlight with
    | true => rw [framePhase_skip hf, framePhase_skip (s := s.withIdle m) hf]; rfl
    | false => rw [framePhase_start hd hf, framePhase_start (s := s.withIdle m) hd hf]; rfl

theorem exec_line_withIdle (n : Byte) :
    exec (.lcdLine n) (s.withIdle m) = mapNext (fun t => t.withIdle m) (exec (.lcdLine n) s) := by
  have hp : (s.withIdle m).cons.cphase = s.cons.cphase := rfl
  cases hc : s.cons.cphase with
  | push => rw [exec_push hc, exec_push (s := s.withIdle m) hc, pushPhase_withIdle]
  | frame => rw [exec_frame hc, exec_frame (s := s.withIdle m) hc, framePhase_withIdle]; rfl
  | _ => simp only [exec, execLcdLine, hp, hc]; rfl

/-- IDLE_SET stores a mode of its own, or does not look at the one there is (R91). -/
theorem exec_idleSet_agreeButIdle (x : Byte) :
    AgreeButIdle (exec (.idleSet x) s) (exec (.idleSet x) (s.withIdle m)) := by
  have hp : (s.withIdle m).cons.cphase = s.cons.cphase := rfl
  cases hc : s.cons.cphase with
  | idle =>
    cases hf : s.dmaInFlight with
    | true =>
      rw [exec_idle_of_inFlight hc hf, exec_idle_of_inFlight (s := s.withIdle m) hc hf]
      exact agreeButIdle_of_withIdle m rfl
    | false =>
      rw [exec_idle_of_notInFlight hc hf, exec_idle_of_notInFlight (s := s.withIdle m) hc hf]
      apply agreeButIdle_of_eq
      simp only [State.withIdle, Driver.displayClear, Driver.clearBuffers]
      cases s.cfg.driverMode with
      | direct => rfl
      | framebuffered => by_cases h2 : s.cfg.fbCount = 2 <;> simp only [h2, if_true, if_false]
  | _ => exact agreeButIdle_of_withIdle m (by simp only [exec, execIdleSet, hp, hc]; rfl)

theorem runCommand_agreeButIdle : AgreeButIdle (runCommand s) (runCommand (s.withIdle m)) := by
  cases hd : decode s.cons.cmd with
  | reserved t d =>
    rw [runCommand_of_reserved hd, runCommand_of_reserved (s := s.withIdle m) hd]
    exact agreeButIdle_of_withIdle m (noEffect_withIdle s m)
  | command i =>
    rw [runCommand_of_command hd, runCommand_of_command (s := s.withIdle m) hd]
    cases i with
    | nop => exact agreeButIdle_of_withIdle m (noEffect_withIdle s m)
    | lcdLine n => exact agreeButIdle_of_withIdle m (exec_line_withIdle s m n)
    | idleSet x => exact exec_idleSet_agreeButIdle s m x
    | setPixel d =>
      have hcfg : (s.withIdle m).cfg = s.cfg := rfl
      refine agreeButIdle_of_withIdle m ?_
      simp only [exec, execSetPixel, hcfg, noEffect_withIdle]
      split <;> rfl

theorem consTurn_agreeButIdle : AgreeButIdle (consTurn s) (consTurn (s.withIdle m)) := by
  by_cases hp : s.cons.cphase = .pop
  · rw [consTurn_of_pop hp, consTurn_of_pop (s := s.withIdle m) hp]
    refine agreeButIdle_of_withIdle m ?_
    cases hq : s.chan.q with
    | nil => rw [popPhase_of_nil hq, popPhase_of_nil (s := s.withIdle m) hq]; rfl
    | cons w ws => rw [popPhase_of_cons hq, popPhase_of_cons (s := s.withIdle m) hq]; rfl
  · rw [consTurn, if_neg hp, consTurn, if_neg (show (s.withIdle m).cons.cphase ≠ .pop from hp)]
    exact runCommand_agreeButIdle s m

theorem agentTurn_agreeButIdle (x : Turn) : AgreeButIdle (agentTurn x s) (agentTurn x (s.withIdle m)) := by
  cases x with
  | prod => exact prodTurn_agreeButIdle s m
  | cons => exact consTurn_agreeButIdle s m
  | dma => exact agreeButIdle_of_withIdle m (dmaTurn_withIdle s m)
  | reset => exact agreeButIdle_of_eq rfl

theorem step_agreeButIdle : AgreeButIdle (step s) (step (s.withIdle m)) := by
  have hturn : (s.withIdle m).turn = s.turn := rfl
  have htaken : (s.withIdle m).turnTaken = s.turnTaken.withIdle m := by
    unfold State.turnTaken
    cases hs : s.env.sched <;> simp only [show (s.withIdle m).env.sched = s.env.sched from rfl, hs] <;> rfl
  have hcfg : (s.withIdle m).cfg = s.cfg := rfl
  simp only [step, stepTurn, hcfg, hturn, htaken]
  split
  · exact agreeButIdle_of_eq rfl
  · split
    · exact agentTurn_agreeButIdle _ m _
    · exact agreeButIdle_of_eq rfl

end

/-- Settles O57: the two steps agree but for the idle mode. -/
theorem idleModeInfluencesNothing : Obligations.IdleModeInfluencesNothing := by
  intro s m
  obtain ⟨f, hf, hback⟩ := step_agreeButIdle s m
  rw [show ({ s with drv := { s.drv with idleMode := m } } : State) = s.withIdle m from rfl, hf]
  cases h : step s with
  | next t => exact hback t h
  | fault r => rfl
  | refused r => rfl

end Sys2Proof.Machine
end

section
/-! A whole LCD_LINE (40_channel.md R86): its phases one after another from the dispatch, and from the producer's
ENQUEUE to the panel (20_memory.md R53). -/

namespace Sys2Proof.Machine

/-- The state in which a dispatched line has been resolved and laid out and waits for its push (R86). -/
def composedLine (s : State) (n : Byte) : State := layoutPhase n.toNat (resolvePhase (s.toPhase .resolve))

section
variable (s : State) (n : Byte)

@[simp] theorem composedLine_cfg : (composedLine s n).cfg = s.cfg := rfl
@[simp] theorem composedLine_chan : (composedLine s n).chan = s.chan := rfl
@[simp] theorem composedLine_prod : (composedLine s n).prod = s.prod := rfl
@[simp] theorem composedLine_regs : (composedLine s n).regs = s.regs := rfl
@[simp] theorem composedLine_drv : (composedLine s n).drv = s.drv := rfl
@[simp] theorem composedLine_cons_cmd : (composedLine s n).cons.cmd = s.cons.cmd := rfl
@[simp] theorem composedLine_env_prog : (composedLine s n).env.prog = s.env.prog := rfl
@[simp] theorem composedLine_env_sched : (composedLine s n).env.sched = s.env.sched := rfl

end

section
variable {s : State} {n : Byte}

/-- The first three phases of a line of the frame (R84, R86). -/
theorem execPhases_composedLine (hp : s.cons.cphase = .dispatch) (hn : n.toNat < s.cfg.srcH) (k : Nat) :
    execPhases (.lcdLine n) (k + 3) s = execPhases (.lcdLine n) k (composedLine s n) :=
  ((execPhases_succ (exec_line_dispatch hp hn)).trans (execPhases_succ (exec_line_resolve rfl n))).trans
    (execPhases_succ (exec_line_layout rfl n))

theorem composedLine_canonical (hc : s.Canonical) (n : Byte) : (composedLine s n).Canonical :=
  (State.Canonical.resolvePhase (s := s.toPhase .resolve) hc).layoutPhase _

theorem composedLine_place (hr : s.RaceFree) (n : Byte) :
    (composedLine s n).cons.place = placementOf s.cfg s.regs.scale n.toNat :=
  layoutPhase_place (s := resolvePhase (s.toPhase .resolve)) hr n.toNat

theorem composedLine_placementInside (hl : s.cfg.legal = true) (hr : s.RaceFree) (hn : n.toNat < s.cfg.srcH) :
    placementInside (composedLine s n) = true :=
  placementInside_of_placementOf (s := composedLine s n) hl hn (composedLine_place hr n)

/-- Every copy of a column holds the column's resolved pixel (R103, R107). -/
theorem composedLine_outbuf (hc : s.Canonical) (hr : s.RaceFree) {x k : Nat} (hx : x < s.cfg.srcW)
    (hk : k ∈ copiesOf s.regs.scale x) : (composedLine s n).cons.outbuf.read k = resolvePixel s x := by
  have hcopy := (layoutPhase_read (s := resolvePhase (s.toPhase .resolve))
    (State.Canonical.resolvePhase (s := s.toPhase .resolve) hc) hr n.toNat).1 x hx k hk
  exact hcopy.trans ((resolvePhase_linebuf (s := s.toPhase .resolve) hc).1 x hx)

end

/-- Settles O20: the composed line is pushed and acknowledged, and the push paints the placed line. -/
theorem directLineIsDrawnAndAcknowledged : Obligations.DirectLineIsDrawnAndAcknowledged := by
  intro s n hl hm hd hc hr hp hn
  have hin := composedLine_placementInside hl hr hn
  have hplace := composedLine_place hr n
  have hpush : exec (.lcdLine n) (composedLine s n) = .next ((pushDirect (composedLine s n)).toPhase .ack) :=
    exec_direct_push hm hd rfl hin
  obtain ⟨hread, hother, -⟩ := stream_line hin (composedLine_canonical hc n).pix_wf
  rw [hplace] at hread hother
  refine ⟨ackPhase ((pushDirect (composedLine s n)).toPhase .ack), ?_, rfl, rfl, by simp, by simp, by simp, by simp,
    rfl, by simp, by simp, fun r hr' x hx k hk => ?_, hother⟩
  · rw [execPhases_composedLine hp hn, execPhases_succ hpush, execPhases_succ (exec_line_ack rfl n), execPhases_zero]
  · have hpix := hread r hr' k (copy_lt_outWidth hx hk)
    rw [composedLine_outbuf hc hr hx hk] at hpix
    exact hpix

/-- What a framebuffered line leaves before its acknowledgement, the last line of a frame loading the panel and
swapping, any other line nothing of the two (R131, R138, R139). -/
theorem execPhases_framebuffered {s : State} {n : Byte} (hl : s.cfg.legal = true)
    (hm : s.cfg.driverMode = .framebuffered) (hd : s.cfg.useDma = false) (hc : s.Canonical) (hr : s.RaceFree)
    (hp : s.cons.cphase = .dispatch) (hn : n.toNat < s.cfg.srcH) :
    ∃ v, execPhases (.lcdLine n) (if n.toNat + 1 = s.cfg.srcH then 6 else 5) s = .next (ackPhase v) ∧
      v.chan = s.chan ∧ v.cfg = s.cfg ∧ v.prod = s.prod ∧ v.regs = s.regs ∧ v.drv.idleMode = s.drv.idleMode ∧
      v.drv.xbuf = s.drv.xbuf ∧ v.drv.dma = s.drv.dma ∧
      (∀ b, v.drv.fb b = (pushFb (composedLine s n)).drv.fb b) ∧
      (n.toNat + 1 ≠ s.cfg.srcH → v.drv.panel = s.drv.panel ∧ v.drv.fbWr = s.drv.fbWr) ∧
      (n.toNat + 1 = s.cfg.srcH →
        (∀ c : Cursor, c.InPanel s.cfg → v.panelAt c = v.bufferAt s.drv.fbWr c) ∧
        v.drv.fbWr = if s.cfg.fbCount = 2 then s.drv.fbWr.other else s.drv.fbWr) := by
  have hin := composedLine_placementInside hl hr hn
  have hwaits : pushWaits (composedLine s n) = false :=
    pushWaits_of_notInFlight (dmaInFlight_of_noDma hd)
  have hpush : exec (.lcdLine n) (composedLine s n) = .next ((pushFb (composedLine s n)).toPhase
      (if n.toNat + 1 = s.cfg.srcH then .frame else .ack)) := exec_framebuffer_push hm hwaits rfl hin
  by_cases hlast : n.toNat + 1 = s.cfg.srcH
  · rw [if_pos hlast] at hpush ⊢
    let u := (pushFb (composedLine s n)).toPhase .frame
    have hu : u.Canonical := by
      have h := (composedLine_canonical hc n).pushLine
      rwa [pushLine_framebuffered (s := composedLine s n) hm] at h
    have huwr : u.drv.fbWr = s.drv.fbWr := pushFb_fbWr (composedLine s n)
    obtain ⟨hpanel, -, -⟩ := framePushBlocking_panel (s := u) hl hu
    have hfb : ∀ b, (framePushBlocking u).drv.fb b = u.drv.fb b := fun b => by
      rw [framePushBlocking, Driver.swap_fb]
      cases b <;> rfl
    refine ⟨(framePushBlocking u).toPhase .ack, ?_, by simp [u], by simp [u], by simp [u], by simp [u], ?_, ?_, ?_,
      hfb, fun h => absurd hlast h, fun _ => ⟨fun c hcp => ?_, ?_⟩⟩
    · rw [execPhases_composedLine hp hn, execPhases_succ hpush,
        execPhases_succ (exec_frame_blocking (s := u) hd rfl), execPhases_succ (exec_line_ack rfl n), execPhases_zero]
    · exact (Driver.swap_idleMode _ _).trans (pushFb_idleMode (composedLine s n))
    · exact (Driver.swap_xbuf _ _).trans (pushFb_xbuf (composedLine s n))
    · exact (Driver.swap_dma _ _).trans (pushFb_dma (composedLine s n))
    · have h := hpanel c hcp
      rw [huwr] at h
      exact h.trans (congrArg (Memory.read · _) (hfb _).symm)
    · rw [← huwr]
      exact Driver.swap_fbWr _ _
  · rw [if_neg hlast] at hpush ⊢
    refine ⟨(pushFb (composedLine s n)).toPhase .ack, ?_, by simp, by simp, by simp, by simp,
      pushFb_idleMode (composedLine s n), pushFb_xbuf (composedLine s n), pushFb_dma (composedLine s n), fun _ => rfl,
      fun _ => ⟨pushFb_panel (composedLine s n), pushFb_fbWr (composedLine s n)⟩, fun h => absurd h hlast⟩
    rw [execPhases_composedLine hp hn, execPhases_succ hpush, execPhases_succ (exec_line_ack rfl n), execPhases_zero]

/-- Settles O21: the composed line is in the writable buffer, and the phases after it leave the buffers alone. -/
theorem framebufferedLineIsComposedAndAcknowledged : Obligations.FramebufferedLineIsComposedAndAcknowledged := by
  intro s n hl hm hd hc hr hp hn
  obtain ⟨v, hrun, hchan, hcfg, hprod, hregs, hidle, hxbuf, hdma, hfb, hmore, hlast⟩ :=
    execPhases_framebuffered hl hm hd hc hr hp hn
  have hplace := composedLine_place hr n
  obtain ⟨hread, hother⟩ := pushFb_bufferAt (composedLine_canonical hc n) (composedLine_placementInside hl hr hn)
  rw [hplace] at hread hother
  have hbuf : ∀ c, (ackPhase v).bufferAt s.drv.fbWr c = (pushFb (composedLine s n)).bufferAt s.drv.fbWr c := fun c => by
    rw [State.bufferAt, ackPhase_drv, hfb, ackPhase_cfg, hcfg]
    rfl
  refine ⟨_, hrun, ?_, rfl, hcfg, hprod, hregs, hidle, hxbuf, hdma, ?_, fun r hr' x hx k hk => ?_,
    fun c hcp hcov => ?_, hmore, hlast⟩
  · show { v.chan with busy := false } = _
    rw [hchan]
  · exact (hfb _).trans ((Driver.fb_setFb _ _ _ _).trans (if_neg (BufId.other_ne _)))
  · rw [hbuf, ← composedLine_outbuf hc hr hx hk]
    exact hread r hr' k (copy_lt_outWidth hx hk)
  · rw [hbuf]
    exact hother c hcp hcov

/-- As many consumer turns as phases run an LCD_LINE's phases, the schedule taking no part in them (R83). -/
theorem run_line {n : Byte} (rest : List Turn) (k : Nat) : ∀ {s t : State}, s.cfg.legal = true →
    s.cfg.debugSetPixel = false → s.env.sched = List.replicate k .cons ++ rest →
    decode s.cons.cmd = .command (.lcdLine n) → execPhases (.lcdLine n) k s = .next t →
    Host.Core.run Sys2Proof.core k s = .next (t.withSched rest) := by
  induction k with
  | zero =>
    intro s t hl hd hs hcmd h
    cases h
    rw [run_zero]
    congr 1
    rw [State.withSched, ← show s.env.sched = rest from hs]
  | succ k ih =>
    intro s t hl hd hs hcmd h
    cases he : exec (.lcdLine n) s with
    | next u =>
      obtain ⟨hp, hcmd', hcfg, -⟩ := execLcdLine_next he
      have hstep : step s = .next (u.withSched (List.replicate k .cons ++ rest)) := by
        rw [step_command ⟨hs, hl, hd⟩ hp hcmd, execLcdLine_withSched, he]
        rfl
      rw [execPhases_succ he] at h
      rw [run_succ hstep]
      exact ih (s := u.withSched _) (t := t.withSched (List.replicate k .cons ++ rest))
        (by rwa [State.withSched_cfg, hcfg])
        (by rwa [State.withSched_cfg, hcfg]) rfl (by rwa [State.withSched_cons, hcmd'])
        (execPhases_withSched n _ k u t h)
    | fault r => simp [execPhases, he] at h
    | refused r => simp [execPhases, he] at h

theorem enqueuedLine_canonical {s : State} (hc : s.Canonical) (n : Byte) (codes : List Byte) (more : List ProgItem)
    (rest : List Turn) : (enqueuedLine s n codes more rest).Canonical := by
  obtain ⟨h1, h2, h3⟩ := hc
  exact ⟨Memory.wf_writeRow _ _ h1, Memory.wf_writeRow _ _ h2, h3⟩

/-- The enqueued line popped from an empty queue, its word in `CMD` (R82). -/
def poppedLine (s : State) (n : Byte) (codes : List Byte) (more : List ProgItem) (rest : List Turn) : State :=
  let t := enqueuedLine s n codes more rest
  { t with chan := { t.chan with q := [] }, cons := { t.cons with cmd := encodeWord 1#8 n, cphase := .dispatch } }

theorem step_poppedLine {s : State} (hl : s.cfg.legal = true) (hd : s.cfg.debugSetPixel = false)
    (hq : s.chan.q = []) (hp : s.cons.cphase = .pop) (n : Byte) (codes : List Byte) (more : List ProgItem)
    (rest : List Turn) :
    step (enqueuedLine s n codes more (.cons :: rest)) = .next (poppedLine s n codes more rest) :=
  (popTakesTheOldestWord (enqueuedLine s n codes more (.cons :: rest)) rest ⟨rfl, hl, hd⟩ hp).1 (encodeWord 1#8 n) []
    (congrArg (· ++ [encodeWord 1#8 n]) hq)

/-- The colour of a popped line's column is that of the code the producer gave (R103). -/
theorem resolvePixel_poppedLine {s : State} (hc : s.Canonical) (hr : s.RaceFree) (n : Byte) {codes : List Byte}
    (more : List ProgItem) (rest : List Turn) (hlen : codes.length = s.cfg.srcW) {x : Nat} (hx : x < codes.length) :
    resolvePixel (poppedLine s n codes more rest) x =
      if s.cfg.ecmSupport = true ∧ s.regs.ecmEn = true then s.regs.ecmTab.read (codes[x].toNat % s.cfg.ecmN)
      else lut s x codes[x] := by
  have hstg : (poppedLine s n codes more rest).chan.stg.read x = codes[x] :=
    ((enqueuedLine_read hc n more rest hlen).1 x hx).2
  rw [resolvePixel_of_raceFree (s := poppedLine s n codes more rest) hr, hstg]
  rfl

/-- Settles O60: the enqueued line is popped and drawn, each phase a turn of its agent. -/
theorem enqueuedLineReachesThePanel : Obligations.EnqueuedLineReachesThePanel := by
  rintro s n codes more rest ⟨hs, hl, hd⟩ ⟨hp, hq, hcp, hb, hf⟩ hc hr hm hdma hg hlen hn
  have hroom : s.chan.q.length < s.cfg.fifoDepth := by
    rw [hq]
    exact ((legal_iff s.cfg).1 hl).2.2.2.2.2.2
  let u := poppedLine s n codes more (List.replicate 5 .cons ++ rest)
  have henqueue : Host.Core.run Sys2Proof.core 5 s =
      .next (enqueuedLine s n codes more (.cons :: (List.replicate 5 .cons ++ rest))) :=
    run_enqueueLine ⟨hs, hl, hd⟩ hp hb hroom hg hlen
  have hu : u.Canonical := enqueuedLine_canonical hc n codes more (List.replicate 5 .cons ++ rest)
  obtain ⟨t, hrun, hchan, hpop, -, hcfg, hprod, hregs, -, hprog, -, hread, hother⟩ :=
    directLineIsDrawnAndAcknowledged u n hl hm hdma hu hr rfl hn
  have hcmd : decode u.cons.cmd = .command (.lcdLine n) := decode_encode (.lcdLine n)
  refine ⟨t.withSched rest, ?_, ⟨by rw [State.withSched_prod, hprod]; rfl, by rw [State.withSched_chan, hchan]; rfl,
    hpop, by rw [State.withSched_chan, hchan], dmaInFlight_of_noDma (by rw [State.withSched_cfg, hcfg]; exact hdma)⟩,
    hprog, hcfg, hregs, fun r hr' x hx k hk => ?_, fun c hc' hcov => hother c hc' hcov⟩
  · rw [run_add 5 6 s _ henqueue, run_succ (step_poppedLine hl hd hq hcp n codes more _)]
    exact run_line rest 5 hl hd rfl hcmd hrun
  · rw [← resolvePixel_poppedLine hc hr n more (List.replicate 5 .cons ++ rest) hlen hx]
    exact hread r hr' x (hlen ▸ hx) k hk

end Sys2Proof.Machine
end

section
/-! Runs (70_reset_and_hazards.md R207, R208): a fair run gets on until it comes to rest, by the work left; what the
rest of a run then shows of a transfer, a word, a line and an ENQUEUE; and the two waits without fairness. -/

namespace Sys2Proof.Machine

variable {s t : State}

/-- The two states have the same block and the same program: they differ in the model's own bookkeeping at most. -/
def SameBlock (s t : State) : Prop :=
  t.cfg = s.cfg ∧ t.chan = s.chan ∧ t.prod = s.prod ∧ t.cons = s.cons ∧ t.drv = s.drv ∧ t.env.prog = s.env.prog

theorem SameBlock.trans {u : State} (h : SameBlock s t) (h' : SameBlock t u) : SameBlock s u := by
  obtain ⟨h1, h2, h3, h4, h5, h6⟩ := h
  obtain ⟨g1, g2, g3, g4, g5, g6⟩ := h'
  exact ⟨g1.trans h1, g2.trans h2, g3.trans h3, g4.trans h4, g5.trans h5, g6.trans h6⟩

theorem SameBlock.enabled_eq (h : SameBlock s t) (a : Turn) : t.enabled a = s.enabled a := by
  obtain ⟨hcfg, hchan, hprod, hcons, hdrv, hprog⟩ := h
  simp only [State.enabled, pushWaits, State.dmaInFlight, State.loadBusy, State.queueFull, hcfg, hchan, hprod, hcons,
    hdrv, hprog]

theorem SameBlock.workLeft_eq (h : SameBlock s t) : t.workLeft = s.workLeft := by
  obtain ⟨hcfg, hchan, hprod, hcons, hdrv, hprog⟩ := h
  simp only [State.workLeft, State.dmaWork, hcfg, hchan, hprod, hcons, hdrv, hprog]

/-- Agent `a` has no step that does work: none at all, or a poll that finds `BUSY = 1`. -/
def State.Stalled (s : State) (a : Turn) : Prop :=
  s.enabled a = false ∨ (a = .prod ∧ s.prod.pphase = .idle ∧ s.chan.busy = true)

theorem SameBlock.stalled (h : SameBlock s t) {a : Turn} (ht : t.Stalled a) : s.Stalled a := by
  refine ht.imp (fun he => (h.enabled_eq a).symm.trans he) fun ⟨ha, hp, hb⟩ => ?_
  obtain ⟨-, hchan, hprod, -⟩ := h
  exact ⟨ha, hprod ▸ hp, hchan ▸ hb⟩

/-- A turn makes the work left smaller, or changes nothing of the block because its agent is stalled. -/
theorem agentTurn_progress {a : Turn} (ha : a ≠ .reset) (h : agentTurn a s = .next t) :
    t.workLeft < s.workLeft ∨ (SameBlock s t ∧ s.Stalled a) := by
  cases he : s.enabled a with
  | false =>
    rw [agentTurn_of_not_enabled he h]
    exact .inr ⟨⟨rfl, rfl, rfl, rfl, rfl, rfl⟩, .inl he⟩
  | true =>
    refine (workLeft_lt ha he h).imp_right ?_
    rintro ⟨rfl, hp, hb, rfl⟩
    exact ⟨⟨rfl, rfl, rfl, rfl, rfl, rfl⟩, .inr ⟨rfl, hp, hb⟩⟩

/-- With the consumer and the DMA engine stalled, the queue is empty and nothing is executed or transferred. -/
theorem rest_of_stalled (hc : s.Stalled .cons) (hd : s.Stalled .dma) :
    s.dmaInFlight = false ∧ s.cons.cphase = .pop ∧ s.chan.q = [] := by
  have hf : s.dmaInFlight = false := by
    rcases hd with h | ⟨h, -⟩
    · exact h
    · cases h
  have hw : pushWaits s = false := pushWaits_of_notInFlight hf
  have he : s.enabled .cons = false := by
    rcases hc with h | ⟨h, -⟩
    · exact h
    · cases h
  cases hp : s.cons.cphase with
  | pop => exact ⟨hf, rfl, by simpa [State.enabled, hp] using he⟩
  | _ => simp [State.enabled, hp, hw, hf] at he

/-- A state of the invariant in which every agent is stalled is quiescent, its program at its end (R208). -/
theorem quiescent_of_stalled (hl : s.cfg.legal = true) (hI : s.ChannelInv) (h : ∀ a, a ≠ Turn.reset → s.Stalled a) :
    s.Quiescent ∧ s.env.prog = [] := by
  obtain ⟨hf, hc, hq⟩ := rest_of_stalled (h .cons (by decide)) (h .dma (by decide))
  have hlines : s.linesInFlight = portLines s.prod.pphase s.prod.pcmd := by simp [State.linesInFlight, hc, hq]
  have hfifo := ((legal_iff s.cfg).1 hl).2.2.2.2.2.2
  have hbusy : portLines s.prod.pphase s.prod.pcmd = 0 → s.chan.busy = false := fun h0 => by
    have hn := hI.1
    rw [hlines, h0] at hn
    cases hb : s.chan.busy with
    | false => rfl
    | true => rw [hb] at hn; cases hn
  rcases h .prod (by decide) with he | ⟨-, hp, hb⟩
  · cases hp : s.prod.pphase with
    | idle =>
      have hb := hbusy (by rw [hp, portLines_idle])
      exact ⟨⟨hp, hq, hc, hb, hf⟩, by simpa [State.enabled, hp] using he⟩
    | wait => simp [State.enabled, hp, hbusy (by rw [hp, portLines_wait])] at he
    | copy | mark => simp [State.enabled, hp] at he
    | push =>
      simp [State.enabled, hp, hq] at he
      omega
  · rw [hbusy (by rw [hp, portLines_idle])] at hb
    cases hb

/-! Runs. -/

/-- What holds at `n` and not at a later point ends at a step of the run. -/
theorem exists_last {p : Nat → Prop} {n m : Nat} (hnm : n ≤ m) (hn : p n) (hm : ¬ p m) :
    ∃ j, n ≤ j ∧ (∀ i, n ≤ i → i ≤ j → p i) ∧ ¬ p (j + 1) := by
  by_contra hcon
  have hall : ∀ j, n ≤ j → ∀ i, n ≤ i → i ≤ j → p i := by
    intro j hj
    induction j, hj using Nat.le_induction with
    | base => exact fun i hi hi' => le_antisymm hi hi' ▸ hn
    | succ j hj ih =>
      intro i hi hi'
      rcases Nat.lt_or_ge j i with h | h
      · have hi : i = j + 1 := by omega
        by_contra hp
        exact hcon ⟨j, hj, ih, hi ▸ hp⟩
      · exact ih i hi h
  exact hm (hall m hnm m hnm le_rfl)

section
variable {σ : Nat → Turn} {r : Nat → State} (hrun : IsRun σ r)
include hrun

theorem IsRun.legal (n : Nat) : (r n).cfg.legal = true := (step_next (hrun n)).1

/-- A step of a run is the scheduled agent's turn (R52). -/
theorem IsRun.turn (n : Nat) : agentTurn (σ n) ((r n).withSched []) = .next (r (n + 1)) :=
  (step_of_turnIs ⟨rfl, (step_next (hrun n)).1, (step_next (hrun n)).2.1⟩).symm.trans (hrun n)

theorem IsRun.prodMove {n : Nat} (hx : σ n = .prod) : ProdMove ((r n).withSched []) (r (n + 1)) := by
  have h := hrun.turn n
  rw [hx] at h
  exact prodMove_of_next h

theorem IsRun.consMove {n : Nat} (hx : σ n = .cons) : ConsMove ((r n).withSched []) (r (n + 1)) := by
  have h := hrun.turn n
  rw [hx] at h
  exact consMove_of_next h

theorem IsRun.dmaMove {n : Nat} (hx : σ n = .dma) : DmaMove ((r n).withSched []) (r (n + 1)) := by
  have h := hrun.turn n
  rw [hx] at h
  exact dmaMove_of_next h

/-- The move of a run's step, when it is no reset. -/
theorem IsRun.moves {n : Nat} (hr : σ n ≠ .reset) :
    (σ n = .prod ∧ ProdMove ((r n).withSched []) (r (n + 1))) ∨
    (σ n = .cons ∧ ConsMove ((r n).withSched []) (r (n + 1))) ∨
    (σ n = .dma ∧ DmaMove ((r n).withSched []) (r (n + 1))) := by
  cases hx : σ n with
  | prod => exact .inl ⟨rfl, hrun.prodMove hx⟩
  | cons => exact .inr (.inl ⟨rfl, hrun.consMove hx⟩)
  | dma => exact .inr (.inr ⟨rfl, hrun.dmaMove hx⟩)
  | reset => exact absurd hx hr

theorem IsRun.channelInv (h0 : (r 0).ChannelInv) (n : Nat) : (r n).ChannelInv := by
  induction n with
  | zero => exact h0
  | succ n ih =>
    exact stepKeepsTheInFlightInvariant _ _ (State.ChannelInv.of_eq (t := (r n).withSched [σ n]) ih rfl rfl rfl)
      (hrun n)

theorem IsRun.progress {n : Nat} (hr : σ n ≠ .reset) :
    (r (n + 1)).workLeft < (r n).workLeft ∨ (SameBlock (r n) (r (n + 1)) ∧ (r n).Stalled (σ n)) :=
  agentTurn_progress (s := (r n).withSched []) hr (hrun.turn n)

/-- From `n` on the work left becomes smaller, or the block stays as it is at `n`. -/
theorem IsRun.sameBlock (hr : ∀ n, σ n ≠ .reset) {n : Nat} (hno : ∀ m, n ≤ m → ¬ (r m).workLeft < (r n).workLeft)
    {m : Nat} (hm : n ≤ m) : SameBlock (r n) (r m) := by
  induction m, hm using Nat.le_induction with
  | base => exact ⟨rfl, rfl, rfl, rfl, rfl, rfl⟩
  | succ m hm ih =>
    rcases hrun.progress (hr m) with h | ⟨h, -⟩
    · rw [ih.workLeft_eq] at h
      exact absurd h (hno (m + 1) (by omega))
    · exact ih.trans h

/-- A fair run that is not at rest does work: while no turn did, each agent would be stalled (R207). -/
theorem IsRun.workLeft_decreases (hfair : WeaklyFair σ r) (hr : ∀ n, σ n ≠ .reset) {n : Nat} (hI : (r n).ChannelInv)
    (hbusy : ¬ ((r n).Quiescent ∧ (r n).env.prog = [])) : ∃ m, n ≤ m ∧ (r m).workLeft < (r n).workLeft := by
  by_contra hcon
  have hno : ∀ m, n ≤ m → ¬ (r m).workLeft < (r n).workLeft := fun m hm hlt => hcon ⟨m, hm, hlt⟩
  refine hbusy (quiescent_of_stalled (hrun.legal n) hI fun a ha => ?_)
  obtain ⟨m, hm, hturn | hoff⟩ := hfair a ha n
  · have hsame := hrun.sameBlock hr hno hm
    rcases hrun.progress (hr m) with h | ⟨-, h⟩
    · rw [hsame.workLeft_eq] at h
      exact absurd h (hno (m + 1) (by omega))
    · rw [hturn] at h
      exact hsame.stalled h
  · exact (hrun.sameBlock hr hno hm).stalled (.inl hoff)

/-- Every fair run comes to rest from any point on, by the work left (R208). -/
theorem IsRun.comes_to_rest (hfair : WeaklyFair σ r) (hr : ∀ n, σ n ≠ .reset) (h0 : (r 0).ChannelInv) (n : Nat) :
    ∃ m, n ≤ m ∧ (r m).Quiescent ∧ (r m).env.prog = [] := by
  induction hw : (r n).workLeft using Nat.strong_induction_on generalizing n with
  | _ w ih =>
    by_cases hrest : (r n).Quiescent ∧ (r n).env.prog = []
    · exact ⟨n, le_rfl, hrest⟩
    · obtain ⟨k, hk, hlt⟩ := hrun.workLeft_decreases hfair hr (hrun.channelInv h0 n) hrest
      obtain ⟨m, hm, h⟩ := ih _ (hw ▸ hlt) k rfl
      exact ⟨m, hk.trans hm, h⟩

/-- A transfer that is over later has been ended by a DMA turn with no unit left (R135). -/
theorem IsRun.transfer_completes (hr : ∀ n, σ n ≠ .reset) {n m : Nat} (hnm : n ≤ m)
    (hf : (r n).dmaInFlight = true) (hm : (r m).dmaInFlight = false) : ∃ j, n ≤ j ∧ σ j = .dma ∧
      (r j).dmaInFlight = true ∧ (r j).drv.dma.len ≤ (r j).drv.dma.pos ∧ (r (j + 1)).dmaInFlight = false := by
  obtain ⟨j, hj, hin, hout⟩ := exists_last (p := fun i => (r i).dmaInFlight = true) hnm hf (by simp [hm])
  have hfj := hin j hj le_rfl
  refine ⟨j, hj, ?_⟩
  rcases hrun.moves (hr j) with ⟨-, h⟩ | ⟨-, h⟩ | ⟨hx, h⟩
  · obtain ⟨hcfg, -, hdrv⟩ := h.unchanged
    exact absurd ((dmaInFlight_congr hcfg (by rw [hdrv])).trans hfj) hout
  · exact absurd ((dmaInFlight_congr h.unchanged.1 (h.of_inFlight hfj).2).trans hfj) hout
  · generalize hs : (r j).withSched [] = u at h
    have hu : u.drv = (r j).drv := by rw [← hs]; rfl
    generalize r (j + 1) = v at h hout
    cases h with
    | rest hf' => rw [← hs] at hf'; exact absurd (hf'.symm.trans hfj) (by decide)
    | beat hf' => exact absurd hf' hout
    | complete _ hp => exact ⟨hx, hfj, by rwa [hu] at hp, by simpa using hout⟩

/-- A line in flight that is not later has been acknowledged by `C_ACK` (R89). -/
theorem IsRun.line_acknowledged (hr : ∀ n, σ n ≠ .reset) {n m : Nat} (hnm : n ≤ m)
    (hb : (r n).chan.busy = true) (hm : (r m).chan.busy = false) : ∃ j, n ≤ j ∧ σ j = .cons ∧
      (r j).cons.cphase = .ack ∧ (r (j + 1)).chan.busy = false := by
  obtain ⟨j, hj, hin, hout⟩ := exists_last (p := fun i => (r i).chan.busy = true) hnm hb (by simp [hm])
  have hbj := hin j hj le_rfl
  refine ⟨j, hj, ?_⟩
  rcases hrun.moves (hr j) with ⟨-, h⟩ | ⟨hx, h⟩ | ⟨-, h⟩
  · exact absurd (h.channel.2 hbj) hout
  · rcases h.busy with he | ⟨hp, hoff⟩
    · exact absurd (he.trans hbj) hout
    · exact ⟨hx, hp, hoff⟩
  · exact absurd ((congrArg Channel.busy h.unchanged.2.1).trans hbj) hout

end

/-- A port with an ENQUEUE in progress keeps its word, and returns only by pushing it (R76 to R80). -/
theorem ProdMove.inProgress (h : ProdMove s t) (hp : s.prod.pphase ≠ .idle) :
    (t.prod.pphase ≠ .idle ∧ t.prod.pcmd = s.prod.pcmd) ∨
    (s.prod.pphase = .push ∧ t.chan.q = s.chan.q ++ [s.prod.pcmd] ∧ t.prod.pphase = .idle) := by
  cases h with
  | rest hp' | op _ _ hp' | poll _ hp' => exact absurd hp' hp
  | spin | full => exact .inl ⟨hp, rfl⟩
  | toCopy | toPush | copy | mark => exact .inl ⟨by simp, by simp⟩
  | push hp' => exact .inr ⟨hp', rfl, rfl⟩

/-- A command being executed stays in `CMD` until the consumer is back at `C_POP` (R82, R84). -/
theorem ConsMove.cmd (h : ConsMove s t) (hp : s.cons.cphase ≠ .pop) : t.cons.cmd = s.cons.cmd := by
  cases h with
  | pop _ _ hp' => exact absurd hp' hp
  | _ => simp

section
variable {σ : Nat → Turn} {r : Nat → State} (hrun : IsRun σ r) (hr : ∀ n, σ n ≠ .reset)
include hrun hr

/-- One step of a run while an ENQUEUE is in progress. -/
theorem IsRun.port_step {j : Nat} (hp : (r j).prod.pphase ≠ .idle) :
    ((r (j + 1)).prod.pphase ≠ .idle ∧ (r (j + 1)).prod.pcmd = (r j).prod.pcmd) ∨
    (σ j = .prod ∧ (r j).prod.pphase = .push ∧ (r (j + 1)).chan.q = (r j).chan.q ++ [(r j).prod.pcmd] ∧
      (r (j + 1)).prod.pphase = .idle) := by
  rcases hrun.moves (hr j) with ⟨hx, h⟩ | ⟨-, h⟩ | ⟨-, h⟩
  · exact (h.inProgress hp).imp_right fun h => ⟨hx, h⟩
  · have he : (r (j + 1)).prod = (r j).prod := h.unchanged.2.1
    exact .inl (by rw [he]; exact ⟨hp, rfl⟩)
  · have he : (r (j + 1)).prod = (r j).prod := h.unchanged.2.2.1
    exact .inl (by rw [he]; exact ⟨hp, rfl⟩)

/-- An ENQUEUE in progress that is over later has pushed its word (R80, R81). -/
theorem IsRun.enqueue_returns {n m : Nat} (hnm : n ≤ m) (hp : (r n).prod.pphase ≠ .idle)
    (hm : (r m).prod.pphase = .idle) : ∃ j, n ≤ j ∧ σ j = .prod ∧ (r j).prod.pphase = .push ∧
      (r (j + 1)).chan.q = (r j).chan.q ++ [(r n).prod.pcmd] ∧ (r (j + 1)).prod.pphase = .idle := by
  obtain ⟨j, hj, hin, hout⟩ := exists_last
    (p := fun i => (r i).prod.pphase ≠ .idle ∧ (r i).prod.pcmd = (r n).prod.pcmd) hnm ⟨hp, rfl⟩ (by simp [hm])
  obtain ⟨hpj, hcmd⟩ := hin j hj le_rfl
  rcases hrun.port_step hr hpj with ⟨hp', hcmd'⟩ | ⟨hx, hpush, hq, hidle⟩
  · exact absurd ⟨hp', hcmd'.trans hcmd⟩ hout
  · exact ⟨j, hj, hx, hpush, hcmd ▸ hq, hidle⟩

/-- One step of a run with the word `w` in `Q`: it stays there, in its order, or it is the oldest and is popped. -/
theorem IsRun.queue_step {j : Nat} {older younger : List Word} {w : Word}
    (hq : (r j).chan.q = older ++ w :: younger) :
    (∃ older' pushed, (r (j + 1)).chan.q = older' ++ w :: (younger ++ pushed)) ∨
    ((r (j + 1)).chan.q = younger ∧ (r (j + 1)).cons.cmd = w ∧ (r (j + 1)).cons.cphase = .dispatch) := by
  rcases hrun.moves (hr j) with ⟨-, h⟩ | ⟨-, h⟩ | ⟨-, h⟩
  · obtain ⟨ws, hws⟩ := h.channel.1
    refine .inl ⟨older, ws, ?_⟩
    rw [hws, State.withSched_chan, hq]
    simp
  · rcases h.queue with he | ⟨-, he, hd⟩
    · exact .inl ⟨older, [], by rw [he, State.withSched_chan, hq, List.append_nil]⟩
    · rw [State.withSched_chan, hq] at he
      cases older with
      | nil =>
        obtain ⟨hw, hy⟩ := List.cons.inj he
        exact .inr ⟨hy.symm, hw.symm, hd⟩
      | cons o older =>
        refine .inl ⟨older, [], ?_⟩
        rw [List.append_nil]
        exact (List.cons.inj he).2.symm
  · have he : (r (j + 1)).chan = (r j).chan := h.unchanged.2.1
    exact .inl ⟨older, [], by rw [he, hq, List.append_nil]⟩

/-- A word in `Q` that is not there later has been popped, after those before it. -/
theorem IsRun.word_popped {n m : Nat} (hnm : n ≤ m) {older younger : List Word} {w : Word}
    (hq : (r n).chan.q = older ++ w :: younger) (hm : (r m).chan.q = []) :
    ∃ j pushed, n < j ∧ (r j).chan.q = younger ++ pushed ∧ (r j).cons.cmd = w ∧ (r j).cons.cphase = .dispatch := by
  obtain ⟨j, hj, hin, hout⟩ := exists_last
    (p := fun i => ∃ older pushed, (r i).chan.q = older ++ w :: (younger ++ pushed)) hnm
    ⟨older, [], by rw [hq, List.append_nil]⟩ (by simp [hm])
  obtain ⟨o, p, hqj⟩ := hin j hj le_rfl
  rcases hrun.queue_step hr hqj with ⟨o', p', h⟩ | ⟨h, hcmd, hd⟩
  · exact absurd ⟨o', p ++ p', by rw [h, List.append_assoc]⟩ hout
  · exact ⟨j + 1, p, by omega, h, hcmd, hd⟩

/-- One step of a run while a command is executed keeps the command. -/
theorem IsRun.cmd_step {j : Nat} (hp : (r j).cons.cphase ≠ .pop) : (r (j + 1)).cons.cmd = (r j).cons.cmd := by
  rcases hrun.moves (hr j) with ⟨-, h⟩ | ⟨-, h⟩ | ⟨-, h⟩
  · exact congrArg Consumer.cmd h.unchanged.2.1
  · exact h.cmd hp
  · exact congrArg Consumer.cmd h.unchanged.2.2.2.1

/-- A command that is no longer executed later has been executed to its completion (R84). -/
theorem IsRun.command_completes {n m : Nat} (hnm : n ≤ m) (hp : (r n).cons.cphase ≠ .pop)
    (hm : (r m).cons.cphase = .pop) : ∃ k, n < k ∧ (r k).cons.cphase = .pop ∧
      ∀ j, n ≤ j → j < k → (r j).cons.cmd = (r n).cons.cmd ∧ (r j).cons.cphase ≠ .pop := by
  obtain ⟨j, hj, hin, hout⟩ := exists_last
    (p := fun i => (r i).cons.cmd = (r n).cons.cmd ∧ (r i).cons.cphase ≠ .pop) hnm ⟨rfl, hp⟩ (by simp [hm])
  obtain ⟨hcmd, hpj⟩ := hin j hj le_rfl
  refine ⟨j + 1, by omega, ?_, fun i hi hi' => hin i hi (by omega)⟩
  by_contra hp'
  exact hout ⟨(hrun.cmd_step hr hpj).trans hcmd, hp'⟩

end

/-- A producer behind a line in flight spins, whatever else moves but the consumer (R77, R97). -/
theorem ProdMove.spins (h : ProdMove s t) (hp : s.prod.pphase = .wait) (hb : s.chan.busy = true) : t = s := by
  cases h with
  | spin => rfl
  | toCopy _ hf | toPush _ hf => rw [hb] at hf; cases hf
  | rest hp' | op _ _ hp' | poll _ hp' | copy hp' | mark hp' | full hp' | push hp' =>
    exact absurd (hp.symm.trans hp') (by decide)

/-- A push that must wait for its transfer waits, whatever else moves but the DMA engine (R131, R148). -/
theorem ConsMove.waits (h : ConsMove s t) (hp : s.cons.cphase = .push) (hw : pushWaits s = true) : t = s := by
  cases h with
  | pushWait => rfl
  | push _ _ hw' => rw [hw] at hw'; cases hw'
  | empty hp' | pop _ _ hp' | discard hp' | toIdle hp' | toResolve hp' | toAck hp' | resolve hp' | layout hp'
  | frame hp' | ack hp' | idleWait hp' | idle hp' => exact absurd (hp.symm.trans hp') (by decide)

/-- Settles O59: a fair run comes to rest from every point on, and what was in progress there has then been done; the
two waits by the moves that are left to the agents that still have turns. -/
theorem weaklyFairRunsMakeProgress : Obligations.WeaklyFairRunsMakeProgress := by
  refine ⟨fun σ r hrun hfair hr h0 n => ?_, fun σ r hrun hp hb => ⟨fun hσ n => ?_, fun hσ hc hw n => ?_⟩⟩
  · obtain ⟨m, hnm, hrest, hprog⟩ := hrun.comes_to_rest hfair hr h0 n
    have ⟨hidle, hq, _, hbusy, hf⟩ := hrest
    refine ⟨fun hin => hrun.transfer_completes hr hnm hin hf, fun older w younger hqn => ?_,
      fun hbn => hrun.line_acknowledged hr hnm hbn hbusy, fun hpn => hrun.enqueue_returns hr hnm hpn hidle,
      m, hnm, hrest, hprog⟩
    obtain ⟨j, pushed, hnj, hqj, hcmd, hd⟩ := hrun.word_popped hr hnm hqn hq
    obtain ⟨m', hjm, ⟨-, -, hpop, -⟩, -⟩ := hrun.comes_to_rest hfair hr h0 j
    obtain ⟨k, hjk, hk, hall⟩ := hrun.command_completes hr hjm (by rw [hd]; decide) hpop
    exact ⟨j, k, pushed, hnj, hjk, hqj, hd, fun i hi hi' => hcmd ▸ hall i hi hi', hk⟩
  · induction n with
    | zero => exact ⟨hp, hb⟩
    | succ n ih =>
      rcases hσ n with hx | hx
      · rw [(hrun.prodMove hx).spins ih.1 ih.2]
        exact ih
      · obtain ⟨-, hchan, hprod, -⟩ := (hrun.dmaMove hx).unchanged
        rw [hchan, hprod]
        exact ih
  · have hall : (r n).prod.pphase = .wait ∧ (r n).chan.busy = true ∧ (r n).cons.cphase = .push ∧
        pushWaits (r n) = true := by
      induction n with
      | zero => exact ⟨hp, hb, hc, hw⟩
      | succ n ih =>
        obtain ⟨hpn, hbn, hcn, hwn⟩ := ih
        rcases hσ n with hx | hx
        · rw [(hrun.prodMove hx).spins hpn hbn]
          exact ⟨hpn, hbn, hcn, hwn⟩
        · rw [(hrun.consMove hx).waits hcn hwn]
          exact ⟨hpn, hbn, hcn, hwn⟩
    exact ⟨hall.1, hall.2.1, hall.2.2.1⟩

end Sys2Proof.Machine
end
